-- ==== Sys2Proof/Word.lean ====
section
/-! DEFINITION. The word types of the HTB and the plainest arithmetic over them (00_scope.md R6, R7). -/

namespace Sys2Proof

/-- A register, window or bus data word: 32 bits (00_scope.md R6). -/
abbrev Word := BitVec 32

/-- A symbol or a byte of the DATA RAM (00_scope.md R5: SYMBOL_BITS = 8). -/
abbrev Byte := BitVec 8

/-- A host byte address (00_scope.md R5: BUS_ADDR_W = 17). -/
abbrev BusAddr := BitVec 17

/-- A node index, 0..510, or the null index 0x1FF (00_scope.md R5: NODE_IDX_W = 9). -/
abbrev NodeIdx := BitVec 9

/-- The 255 code bits of one symbol; bit j of the vector is code bit j, counted from the root (10_state.md R35). -/
abbrev CodeBits := BitVec 255

end Sys2Proof
end

