-- ==== Sys2Proof/Config.lean ====
section
/-! DEFINITION. What the spec leaves to the implementation: the free values, constants without a body, so that no
proof can see what they are and a claim holds whatever they are. The one sized parameter of the block, DATA_BYTES,
is a field of State (log entry 8). -/

namespace Sys2Proof

/-- What a free value is drawn for: one item for each value the spec leaves unspecified (10_state.md R39,
60_exceptions.md R127, 70_reset_and_hazards.md R133). -/
inductive FreeItem where
  | busRead
  | res (n : Nat)
  | treeNleaf
  | treeRoot
  | treeTotal
  | treeMaxlen
  | nodeCount
  | freq (s : Nat)
  | nodeIsLeaf (i : Nat)
  | nodeSymbol (i : Nat)
  | nodeFreq (i : Nat)
  | nodeLeft (i : Nat)
  | nodeRight (i : Nat)
  | heapKey (p : Nat)
  | heapSeq (p : Nat)
  | heapTag (p : Nat)
  | codeLen (s : Nat)
  | codeBits (s : Nat)
  | data (a : Nat)
deriving DecidableEq, Repr

/-- The unspecified value of width `w` that draw number `draw` gives for `item` (93_implementation_defined.md
section 2: any value, an independent draw for each read and for each entry). Log entry 2. -/
opaque Config.free (draw : Nat) (item : FreeItem) (w : Nat) : BitVec w

/-- Whether the abort requested at draw number `draw` takes effect (60_exceptions.md R126: one of two outcomes,
"which one is not specified (a model takes both)"). Log entry 4. -/
opaque Config.abortTakesEffect (draw : Nat) : Bool

end Sys2Proof
end

