-- ==== Sys2Proof/Syntax.lean ====
section
/-! DEFINITION. The commands of HTB-CMD version 1: one constructor for each row of spec/opcode_table.json
(30_encoding.md R69). No command has an operand field in its word (30_encoding.md R67), so no constructor has an
argument: operands are read from ARG0..ARG3 when the command runs. -/

namespace Sys2Proof

/-- The nine commands (30_encoding.md R69). -/
inductive Instr where
  /-- NOP, word 0x00000000 (41_tree_builder.md R89). -/
  | nop
  /-- FREQ_CLEAR, word 0x00000001 (41_tree_builder.md R90). -/
  | freqClear
  /-- FREQ_COUNT, word 0x00000002 (41_tree_builder.md R91). -/
  | freqCount
  /-- BUILD, word 0x00000003 (41_tree_builder.md R92). -/
  | build
  /-- ENCODE, word 0x00000004 (43_bitstream_codec.md R106). -/
  | encode
  /-- DECODE, word 0x00000005 (43_bitstream_codec.md R109). -/
  | decode
  /-- PQ_INIT, word 0x00000006 (40_priority_queue.md R85). -/
  | pqInit
  /-- PQ_INSERT, word 0x00000007 (40_priority_queue.md R86). -/
  | pqInsert
  /-- PQ_EXTRACT, word 0x00000008 (40_priority_queue.md R87). -/
  | pqExtract
deriving DecidableEq, Repr

end Sys2Proof
end

