-- ==== Sys2Proof/WellFormed.lean ====
section
/-! DEFINITION. The checks on terms: a command has no field that could be out of range (30_encoding.md R67), so the
checks are on what a term is written from or parameterised by: the command word and DATA_BYTES. -/

namespace Sys2Proof

/-- Every command is well formed: it has no operand field, prefix or mode (30_encoding.md R67, R73). -/
def Instr.wf : Instr → Bool
  | .nop | .freqClear | .freqCount | .build | .encode | .decode | .pqInit | .pqInsert | .pqExtract => true

/-- A word is a valid command only when RSVD (bits 31:4) is 0 and OP (bits 3:0) is in the opcode map
(30_encoding.md R68, R69). -/
def Word.wfCommand (w : Word) : Bool :=
  w.extractLsb 31 4 == 0 && (w.extractLsb 3 0).toNat ≤ 8

/-- DATA_BYTES is any value from 1 to 65536 (00_scope.md R5). -/
def dataBytesWf (n : Nat) : Bool :=
  1 ≤ n && n ≤ 65536

end Sys2Proof
end

