-- ==== Sys2Proof/Decode.lean ====
section
/-! DEFINITION. The decoder of 30_encoding.md R70, total on all 2^32 words and rejecting by name; after it the
encoder, written from the "word" column of R69. -/

namespace Sys2Proof

/-- Why a word is no command (30_encoding.md R71). The block accepts such a word and completes it with
ILLEGAL_CMD (60_exceptions.md R120). -/
inductive DecodeError where
  /-- RSVD != 0: some bit of 31:4 is set. -/
  | reservedBits
  /-- RSVD = 0 and OP is in 0x9..0xF. -/
  | reservedOpcode
deriving DecidableEq, Repr

/-- The OP field, bits 3:0 (30_encoding.md R68). -/
def opField (w : Word) : BitVec 4 := w.extractLsb 3 0

/-- The RSVD field, bits 31:4 (30_encoding.md R68). -/
def rsvdField (w : Word) : BitVec 28 := w.extractLsb 31 4

/-- The command of an OP value, if the opcode map has one (30_encoding.md R69). -/
def decodeOp (op : BitVec 4) : Except DecodeError Instr :=
  match op.toNat with
  | 0x0 => .ok .nop
  | 0x1 => .ok .freqClear
  | 0x2 => .ok .freqCount
  | 0x3 => .ok .build
  | 0x4 => .ok .encode
  | 0x5 => .ok .decode
  | 0x6 => .ok .pqInit
  | 0x7 => .ok .pqInsert
  | 0x8 => .ok .pqExtract
  | _ => .error .reservedOpcode

/-- Decoding a command word (30_encoding.md R70): RSVD first, then OP. -/
def decodeWord (w : Word) : Except DecodeError Instr :=
  if rsvdField w ≠ 0 then .error .reservedBits else decodeOp (opField w)

/-- The command a word stands for, or none where it is ILLEGAL. -/
def command? (w : Word) : Option Instr := (decodeWord w).toOption

/-- The decoder on a word numbered as spec/opcode_table.json numbers it. A command is exactly one 32-bit word
(30_encoding.md R67), so the bits above `nbits` are 0 and a number of more than 32 bits is no command. -/
def decodeTableWord (nbits w : Nat) : Option Instr :=
  if nbits ≤ 32 ∧ w < 2 ^ 32 then command? (BitVec.ofNat 32 w) else none

/-- The command word of a command (30_encoding.md R69, column "word"). -/
def encode : Instr → Word
  | .nop => 0x00000000
  | .freqClear => 0x00000001
  | .freqCount => 0x00000002
  | .build => 0x00000003
  | .encode => 0x00000004
  | .decode => 0x00000005
  | .pqInit => 0x00000006
  | .pqInsert => 0x00000007
  | .pqExtract => 0x00000008

end Sys2Proof
end

