-- ==== Sys2Proof/Machine/State.lean ====
section
/-! DEFINITION. The state of the block as plain data (10_state.md), what stands outside it (the host's program and the
schedule), the outcomes' reasons, and the state after reset (70_reset_and_hazards.md R135). -/

namespace Sys2Proof.Machine

/-- A NODE entry (10_state.md R32). -/
structure NodeEntry where
  isLeaf : Bool
  symbol : Byte
  freq : Word
  left : NodeIdx
  right : NodeIdx
deriving DecidableEq, Repr

/-- The all-zero node: a blank RAM entry, and what the window shows for index 511, which has no storage
(10_state.md R32). -/
def NodeEntry.blank : NodeEntry := ⟨false, 0, 0, 0, 0⟩

/-- A HEAP entry: frequency, insertion sequence number, payload (10_state.md R33, 40_priority_queue.md R78). -/
structure HeapEntry where
  key : Word
  seq : Word
  tag : NodeIdx
deriving DecidableEq, Repr

/-- The all-zero heap entry. -/
def HeapEntry.blank : HeapEntry := ⟨0, 0, 0⟩

/-- A table with one entry for each of the 256 symbols (FREQ, CODE_LEN, CODE_BITS). -/
abbrev SymTable (α : Type) := Vector α 256

/-- The NODE RAM: 511 entries (10_state.md R32). -/
abbrev Nodes := Vector NodeEntry 511

/-- The HEAP RAM: slots 1..256; slot p is element p - 1 (10_state.md R33). -/
abbrev Heap := Vector HeapEntry 256

/-- The DATA RAM: the bytes that are not 0, as (offset, byte) pairs with offsets strictly rising; an unlisted offset
reads 0 (log entries 1 and 9). -/
abbrev Memory := List Host.Cell

/-- The one canonical form of a Memory: offsets strictly rise and no listed byte equals what an unlisted offset reads
as. -/
def Memory.wf : Memory → Bool
  | [] => true
  | [c] => c.2 != 0
  | c :: d :: rest => c.2 != 0 && c.1 < d.1 && Memory.wf (d :: rest)

/-- The registers and status bits (10_state.md R18 to R28). ID and VERSION are constants, CTRL.ABORT, CTRL.SRST and
the reserved fields read 0, and STATUS.IRQ is computed from `irqEn` and `done`: none of these has storage. -/
structure Regs where
  irqEn : Bool
  cmd : Word
  busy : Bool
  done : Bool
  err : Bool
  treeValid : Bool
  wrBusy : Bool
  errcode : BitVec 4
  arg0 : Word
  arg1 : Word
  arg2 : Word
  arg3 : Word
  res0 : Word
  res1 : Word
  res2 : Word
  treeNleaf : BitVec 9
  treeRoot : NodeIdx
  treeTotal : Word
  treeMaxlen : BitVec 8
  nodeCount : BitVec 10
  pqSize : BitVec 9
  pqSeq : Word
deriving DecidableEq, Repr

/-- The reset value of every register, after power-on and after a soft reset (70_reset_and_hazards.md R135). -/
def Regs.reset : Regs where
  irqEn := false
  cmd := 0
  busy := false
  done := false
  err := false
  treeValid := false
  wrBusy := false
  errcode := 0
  arg0 := 0
  arg1 := 0
  arg2 := 0
  arg3 := 0
  res0 := 0
  res1 := 0
  res2 := 0
  treeNleaf := 0
  treeRoot := 0
  treeTotal := 0
  treeMaxlen := 0
  nodeCount := 0
  pqSize := 0
  pqSeq := 0

/-- The five RAMs (10_state.md R30); CODE is its two tables. -/
structure Rams where
  freq : SymTable Word
  node : Nodes
  heap : Heap
  codeLen : SymTable (BitVec 8)
  codeBits : SymTable CodeBits
  data : Memory
deriving DecidableEq, Repr

/-- The RAM contents State.reset starts from. DESIGN CHOICE: the spec leaves them unspecified (log entry 1). -/
def Rams.blank : Rams where
  freq := Vector.replicate 256 0
  node := Vector.replicate 511 NodeEntry.blank
  heap := Vector.replicate 256 HeapEntry.blank
  codeLen := Vector.replicate 256 0
  codeBits := Vector.replicate 256 0
  data := []

/-- The two agents of the block (00_scope.md R2). -/
inductive Agent where
  | host
  | engine
deriving DecidableEq, Repr

/-- What the outside world does next: the three statements of a host program (30_encoding.md R74) and the assertion
of the power-on / reset input (70_reset_and_hazards.md R133). -/
inductive Input where
  | wr (addr : BusAddr) (value : Word)
  | rd (addr : BusAddr)
  | poll (addr : BusAddr) (mask value : Word)
  | powerOn
deriving DecidableEq, Repr

/-- The direction of a transaction (30_encoding.md R77). -/
inductive Dir where
  | write
  | read
deriving DecidableEq, Repr

/-- A performed host transaction with its data word (30_encoding.md R77). -/
structure Record where
  dir : Dir
  addr : BusAddr
  data : Word
deriving DecidableEq, Repr

/-- What stands outside the block, as data the step reads: the MODEL's own fields (log entries 2, 5, 6, 7, 16). -/
structure Env where
  /-- The host transactions and reset events still to come, in order (20_memory.md R51). -/
  program : List Input
  /-- Which agent moves next while BUSY = 1; when the list is used up the engine moves (70_reset_and_hazards.md R144). -/
  turns : List Agent
  /-- The transactions performed so far, in order. -/
  records : List Record
  /-- How many times a free value has been drawn. -/
  draws : Nat
  /-- Whether the host has observed the completion of the last accepted command (20_memory.md R62,
  70_reset_and_hazards.md R139; log entry 16). -/
  observed : Bool
deriving DecidableEq, Repr

/-- The machine: the parameter DATA_BYTES (00_scope.md R5; no step changes it), the registers, the RAMs, and what
stands outside. -/
structure State where
  dataBytes : Nat
  regs : Regs
  ram : Rams
  env : Env
deriving DecidableEq, Repr

/-- The block has no fault that stops it: an error ends the command and the machine goes on (60_exceptions.md R115,
R118), and no host access faults (20_memory.md R53, R54). So there is no constructor. -/
inductive Fault where
deriving DecidableEq, Repr

/-- Why the model has no meaning for an instruction. -/
inductive Refusal where
  /-- Raised by an arm of exec whose instruction has no meaning yet (safe: the model stops where the block goes on). -/
  | notModelled (mnemonic : String)
deriving DecidableEq, Repr

/-- The errors a command can end with (60_exceptions.md R119). -/
inductive ErrorKind where
  | illegalCmd
  | emptyInput
  | emptyQueue
  | queueFull
  | seqOverflow
  | freqOverflow
  | noTree
  | range
  | overlap
  | outOverflow
  | unknownSymbol
  | truncated
  | invalidCode
  | aborted
deriving DecidableEq, Repr

/-- What a step of this machine answers. -/
abbrev Result := Host.Outcome State Fault Refusal

/-- The environment before the host has done anything. DESIGN CHOICE: nothing is placed and no completion is
still to be observed (log entries 2, 5, 6, 7, 16). -/
def Env.empty : Env := ⟨[], [], [], 0, true⟩

/-- The state after power-on, for any contents of the RAMs: `ram` is the parameter ramPowerOn
(70_reset_and_hazards.md R133, R135). -/
def State.powerOn (dataBytes : Nat) (ram : Rams) : State :=
  { dataBytes := dataBytes, regs := Regs.reset, ram := ram, env := Env.empty }

/-- The machine right after reset: every register at its reset value, the default DATA_BYTES = 65536 (00_scope.md R5),
and blank RAMs (DESIGN CHOICE, log entry 1). -/
def State.reset : State := State.powerOn 65536 Rams.blank

end Sys2Proof.Machine
end

