-- ==== Sys2Proof/Machine/Ops.lean ====
section
/-! DEFINITION. The named operations over registers and RAMs that the commands share: RAM accessors, acceptance
(60_exceptions.md R116), successful completion (R117), and taking an error (R118), the block's only exception. There
is no return from an exception (R125): acceptance or the host's write to STATUS clears DONE and ERR. -/

namespace Sys2Proof.Machine

/-! ### Symbol tables: FREQ, CODE_LEN, CODE_BITS (10_state.md R31, R34, R35) -/

/-- Entry `s` of a symbol table. -/
def SymTable.entry {α : Type} (t : SymTable α) (s : Byte) : α := t[s.toNat]'s.isLt

/-- A symbol table with entry `s` replaced. -/
def SymTable.store {α : Type} (t : SymTable α) (s : Byte) (x : α) : SymTable α := t.set s.toNat x s.isLt

/-- The symbols in ascending order, the order of `for s in 0..255`. -/
def allSymbols : List Byte := (List.range 256).map (BitVec.ofNat 8)

/-- The entries of a symbol table with their symbols, in ascending order of the symbol. -/
def SymTable.pairs {α : Type} (t : SymTable α) : List (Byte × α) := allSymbols.zip t.toList

/-! ### NODE and HEAP (10_state.md R32, R33) -/

/-- NODE[i]. Index 511 has no storage and gives the blank node, as the window does; no command reads it in a state a
run reaches (log entry 10). -/
def Nodes.entry (n : Nodes) (i : NodeIdx) : NodeEntry := (n[i.toNat]?).getD NodeEntry.blank

/-- NODE with entry i replaced; index 511 has no storage (log entry 10). -/
def Nodes.store (n : Nodes) (i : NodeIdx) (x : NodeEntry) : Nodes := n.setIfInBounds i.toNat x

/-- HEAP[p], p counted from 1 (40_priority_queue.md R78). A position that is no slot gives the blank entry; no command
reads one in a state a run reaches (log entry 10). -/
def Heap.slot (h : Heap) (p : Nat) : HeapEntry :=
  match p with
  | 0 => HeapEntry.blank
  | i + 1 => (h[i]?).getD HeapEntry.blank

/-- HEAP with slot p replaced, p counted from 1. -/
def Heap.setSlot (h : Heap) (p : Nat) (e : HeapEntry) : Heap :=
  match p with
  | 0 => h
  | i + 1 => h.setIfInBounds i e

/-- HEAP with slots p and q exchanged. -/
def Heap.swap (h : Heap) (p q : Nat) : Heap :=
  (h.setSlot p (h.slot q)).setSlot q (h.slot p)

/-! ### DATA, one byte at a time (10_state.md R36) -/

/-- MemRead(a, 1). -/
def Memory.read (m : Memory) (a : Nat) : Byte := (m.lookup a).getD 0

/-- Puts a cell before the first one with a larger offset. -/
def Memory.insertCell (c : Host.Cell) : Memory → Memory
  | [] => [c]
  | d :: rest => if c.1 < d.1 then c :: d :: rest else d :: Memory.insertCell c rest

/-- MemWrite(a, 1, v), keeping the canonical form: the old byte goes, and 0 is not listed. -/
def Memory.write (m : Memory) (a : Nat) (v : Byte) : Memory :=
  let cleared := m.filter (fun c => c.1 != a)
  if v = 0 then cleared else Memory.insertCell (a, v) cleared

/-- Writes the byte `f k` at offset `a + k` for each k below `n`. -/
def Memory.fill (m : Memory) (a : Nat) (f : Nat → Byte) : Nat → Memory
  | 0 => m
  | n + 1 => (Memory.fill m a f n).write (a + n) (f n)

/-- A byte as the host sees it: bytes at or above DATA_BYTES read as 0 (20_memory.md R54). -/
def Memory.readBelow (m : Memory) (dataBytes a : Nat) : Byte :=
  if a < dataBytes then m.read a else 0

/-- The DATA-window word at byte offset `a` (a multiple of 4): byte a in bits 7:0, byte a+3 in bits 31:24
(20_memory.md R54, R55). -/
def Memory.readWord (m : Memory) (dataBytes a : Nat) : Word :=
  m.readBelow dataBytes (a + 3) ++ m.readBelow dataBytes (a + 2) ++ m.readBelow dataBytes (a + 1) ++
    m.readBelow dataBytes a

/-- Stores a byte unless its offset is at or above DATA_BYTES (20_memory.md R54). -/
def Memory.writeBelow (m : Memory) (dataBytes a : Nat) (v : Byte) : Memory :=
  if a < dataBytes then m.write a v else m

/-- A host write to the DATA window: the four bytes of the word, little-endian, each only below DATA_BYTES
(20_memory.md R54, R55). -/
def Memory.writeWord (m : Memory) (dataBytes a : Nat) (v : Word) : Memory :=
  let m1 := m.writeBelow dataBytes a (v.extractLsb' 0 8)
  let m2 := m1.writeBelow dataBytes (a + 1) (v.extractLsb' 8 8)
  let m3 := m2.writeBelow dataBytes (a + 2) (v.extractLsb' 16 8)
  m3.writeBelow dataBytes (a + 3) (v.extractLsb' 24 8)

/-! ### Errors and the command lifecycle (60_exceptions.md R116 to R119) -/

/-- The code of an error in ERRCODE (60_exceptions.md R119). -/
def ErrorKind.code : ErrorKind → BitVec 4
  | .illegalCmd => 0x1
  | .emptyInput => 0x2
  | .emptyQueue => 0x3
  | .queueFull => 0x4
  | .seqOverflow => 0x5
  | .freqOverflow => 0x6
  | .noTree => 0x7
  | .range => 0x8
  | .overlap => 0x9
  | .outOverflow => 0xA
  | .unknownSymbol => 0xB
  | .truncated => 0xC
  | .invalidCode => 0xD
  | .aborted => 0xE

/-- Acceptance of command word w (60_exceptions.md R116); its completion is not observed yet (20_memory.md R62). -/
def State.accept (s : State) (w : Word) : State :=
  { s with
    regs.cmd := w
    regs.busy := true
    regs.done := false
    regs.err := false
    regs.errcode := 0
    regs.res0 := 0
    regs.res1 := 0
    regs.res2 := 0
    regs.treeValid := s.regs.treeValid && w != 0x00000003
    env.observed := false }

/-- Successful completion, `finish` (60_exceptions.md R117). -/
def State.finish (s : State) : State :=
  { s with regs.busy := false, regs.done := true }

/-- TAKING AN ERROR, `raise E()` (60_exceptions.md R118): ERRCODE, ERR, DONE, not BUSY. The progress values that a
command's rule names are written first, by `withRes`. -/
def State.raise (s : State) (e : ErrorKind) : State :=
  { s with regs.errcode := e.code, regs.err := true, regs.done := true, regs.busy := false }

/-- RES0 set to a count; a result register that a command does not name is left as acceptance set it
(10_state.md R25). -/
def State.withRes0 (s : State) (r0 : Nat) : State :=
  { s with regs.res0 := BitVec.ofNat 32 r0 }

/-- RES0 and RES1 set to counts. -/
def State.withRes01 (s : State) (r0 r1 : Nat) : State :=
  { s with regs.res0 := BitVec.ofNat 32 r0, regs.res1 := BitVec.ofNat 32 r1 }

/-- RES0, RES1 and RES2 set to counts; each fits its register (43_bitstream_codec.md R106). -/
def State.withRes (s : State) (r0 r1 r2 : Nat) : State :=
  { s with
    regs.res0 := BitVec.ofNat 32 r0
    regs.res1 := BitVec.ofNat 32 r1
    regs.res2 := BitVec.ofNat 32 r2 }

end Sys2Proof.Machine
end

