-- ==== Sys2Proof/Machine/Operands.lean ====
section
/-! DEFINITION. The operands of the commands, all taken from ARG0..ARG3 (30_encoding.md R72), and the buffer checks in
unbounded arithmetic (20_memory.md R60, 43_bitstream_codec.md R105). -/

namespace Sys2Proof.Machine

/-- SRC = ARG0, a byte offset in DATA (30_encoding.md R72). -/
def Regs.src (r : Regs) : Nat := r.arg0.toNat

/-- LEN = ARG1, a byte count (30_encoding.md R72). -/
def Regs.len (r : Regs) : Nat := r.arg1.toNat

/-- DST = ARG2, a byte offset in DATA (30_encoding.md R72). -/
def Regs.dst (r : Regs) : Nat := r.arg2.toNat

/-- DST_CAP = ARG3, a byte count (30_encoding.md R72). -/
def Regs.cap (r : Regs) : Nat := r.arg3.toNat

/-- KEY = ARG0, all 32 bits (30_encoding.md R72). -/
def Regs.key (r : Regs) : Word := r.arg0

/-- TAG = ARG1[8:0]; bits 31:9 are ignored (30_encoding.md R72). -/
def Regs.tag (r : Regs) : NodeIdx := r.arg1.extractLsb' 0 9

/-- The buffer [offset, offset + length) lies inside the DATA RAM (20_memory.md R60). -/
def fits (dataBytes offset length : Nat) : Bool := offset + length ≤ dataBytes

/-- The byte ranges [a, a + la) and [b, b + lb) share a byte (43_bitstream_codec.md R105). -/
def overlap (a la b lb : Nat) : Bool := 0 < la && 0 < lb && a < b + lb && b < a + la

/-- The checks ENCODE and DECODE make before any DATA access, in their order: NO_TREE, RANGE, OVERLAP
(43_bitstream_codec.md R105). -/
def State.bufferError (s : State) : Option ErrorKind :=
  let r := s.regs
  if r.treeValid = false then some .noTree
  else if !(fits s.dataBytes r.src r.len) || !(fits s.dataBytes r.dst r.cap) then some .range
  else if overlap r.src r.len r.dst r.cap then some .overlap
  else none

end Sys2Proof.Machine
end

