-- ==== Sys2Proof/Machine/Flags.lean ====
section
/-! DEFINITION. The status and control bits: their word views, the write-1-to-clear rule, busy protection and the
interrupt output (10_state.md R20, R22, R23, R26, R40). -/

namespace Sys2Proof.Machine

/-- The interrupt output, equal to STATUS.IRQ (10_state.md R40): IRQ_EN and DONE. -/
def Regs.irq (r : Regs) : Bool := r.irqEn && r.done

/-- STATUS as read (10_state.md R22): BUSY, DONE, ERR, TREE_VALID, WR_BUSY, IRQ in bits 0 to 5, zeros above. -/
def Regs.statusWord (r : Regs) : Word :=
  0#26 ++ BitVec.ofBool r.irq ++ BitVec.ofBool r.wrBusy ++ BitVec.ofBool r.treeValid ++ BitVec.ofBool r.err ++
    BitVec.ofBool r.done ++ BitVec.ofBool r.busy

/-- CTRL as read: IRQ_EN in bit 0; ABORT and SRST read 0 (10_state.md R20). -/
def Regs.ctrlWord (r : Regs) : Word := 0#31 ++ BitVec.ofBool r.irqEn

/-- ERRCODE as read: the code in bits 3:0 (10_state.md R23). -/
def Regs.errcodeWord (r : Regs) : Word := 0#28 ++ r.errcode

/-- A host write to STATUS: 1 in bit 1, 2 or 4 clears DONE, ERR or WR_BUSY; every other written bit is ignored
(10_state.md R22). -/
def Regs.clearStatus (r : Regs) (v : Word) : Regs :=
  { r with
    done := r.done && !v.getLsbD 1
    err := r.err && !v.getLsbD 2
    wrBusy := r.wrBusy && !v.getLsbD 4 }

/-- A busy-protected write while BUSY = 1 changes nothing but WR_BUSY (10_state.md R26). -/
def State.dropWrite (s : State) : State := { s with regs.wrBusy := true }

end Sys2Proof.Machine
end

