-- ==== Sys2Proof/Machine/Codec.lean ====
section
/-! DEFINITION. The bitstream codec: ENCODE (43_bitstream_codec.md R105 to R108) and DECODE (R109 to R112). -/

namespace Sys2Proof.Machine

/-! ### ENCODE -/

/-- The code of a symbol, first bit first: CODE_BITS[s][0..CODE_LEN[s]-1] (10_state.md R35). -/
def Rams.code (r : Rams) (s : Byte) : List Bool :=
  (List.range (r.codeLen.entry s).toNat).map (r.codeBits.entry s).getLsbD

/-- ENCODE's working values: DATA, the accumulator and its fill count, the bytes written and the bits appended
(43_bitstream_codec.md R106). -/
structure Packer where
  data : Memory
  acc : Byte
  nacc : Nat
  nout : Nat
  nbits : Nat
deriving DecidableEq, Repr

/-- Writes the accumulator as the next output byte, or reports that the buffer is full (43_bitstream_codec.md R106). -/
def Packer.flush (p : Packer) (dst cap : Nat) : Except Packer Packer :=
  if cap ≤ p.nout then .error p
  else .ok { p with data := p.data.write (dst + p.nout) p.acc, acc := 0, nacc := 0, nout := p.nout + 1 }

/-- Appends one code bit, most significant bit of the byte first; the eighth writes the byte (43_bitstream_codec.md
R106, 20_memory.md R56). -/
def Packer.pushBit (p : Packer) (dst cap : Nat) (b : Bool) : Except Packer Packer :=
  let q := { p with acc := BitVec.ofNat 8 (2 * p.acc.toNat + b.toNat), nacc := p.nacc + 1, nbits := p.nbits + 1 }
  if q.nacc = 8 then q.flush dst cap else .ok q

/-- Appends the bits of one code in order. -/
def Packer.pushBits (p : Packer) (dst cap : Nat) : List Bool → Except Packer Packer
  | [] => .ok p
  | b :: rest =>
    match p.pushBit dst cap b with
    | .ok q => q.pushBits dst cap rest
    | .error q => .error q

/-- How the encoder stopped: the working values, RES2, and the error if there is one. -/
structure PackEnd where
  packer : Packer
  consumed : Nat
  error : Option ErrorKind
deriving DecidableEq, Repr

/-- The padding step: a partly filled byte is filled with 0 bits and written (43_bitstream_codec.md R107). -/
def Packer.pad (p : Packer) (dst cap len : Nat) : PackEnd :=
  if p.nacc = 0 then ⟨p, len, none⟩
  else
    match { p with acc := BitVec.ofNat 8 (p.acc.toNat * 2 ^ (8 - p.nacc)) }.flush dst cap with
    | .ok q => ⟨q, len, none⟩
    | .error q => ⟨q, len, some .outOverflow⟩

/-- ENCODE's loop over the input bytes `src + i`, for the `todo` bytes still to encode, then the padding step
(43_bitstream_codec.md R106). -/
def packBytes (ram : Rams) (src dst cap : Nat) : Nat → Nat → Packer → PackEnd
  | 0, i, p => p.pad dst cap i
  | todo + 1, i, p =>
    match ram.code (p.data.read (src + i)) with
    | [] => ⟨p, i, some .unknownSymbol⟩
    | code =>
      match p.pushBits dst cap code with
      | .ok q => packBytes ram src dst cap todo (i + 1) q
      | .error q => ⟨q, i, some .outOverflow⟩

/-- ENCODE (43_bitstream_codec.md R106): RES0 bytes written, RES1 code bits appended, RES2 input bytes encoded in
full, on success and on the errors of the loop. -/
def execEncode (s : State) : Result :=
  .next
    (match s.bufferError with
     | some e => s.raise e
     | none =>
      let r := s.regs
      let z := packBytes s.ram r.src r.dst r.cap r.len 0 ⟨s.ram.data, 0, 0, 0, 0⟩
      let t := { s with ram.data := z.packer.data }.withRes z.packer.nout z.packer.nbits z.consumed
      match z.error with
      | some e => t.raise e
      | none => t.finish)

/-! ### DECODE -/

/-- DECODE's working values: DATA, the cursor, the symbols written and the bits consumed (43_bitstream_codec.md R109). -/
structure Walker where
  data : Memory
  cur : NodeIdx
  nsym : Nat
  nbits : Nat
deriving DecidableEq, Repr

/-- Input stream bit t of the buffer at src: bit 7 - (t % 8) of byte t / 8 (20_memory.md R56). -/
def Memory.streamBit (m : Memory) (src t : Nat) : Bool := (m.read (src + t / 8)).getLsbD (7 - t % 8)

/-- Writes the next output symbol. -/
def Walker.emit (w : Walker) (dst : Nat) (symbol : Byte) : Walker :=
  { w with data := w.data.write (dst + w.nsym) symbol, nsym := w.nsym + 1 }

/-- DECODE's loop, for the `todo` input bits not read yet: it stops at TREE_TOTAL symbols (43_bitstream_codec.md R111),
raises TRUNCATED when the bits run out (R109) and, for a lone symbol, INVALID_CODE on a 1 bit (R112). -/
def walkBits (node : Nodes) (r : Regs) : Nat → Walker → Walker × Option ErrorKind
  | 0, w => if w.nsym < r.treeTotal.toNat then (w, some .truncated) else (w, none)
  | todo + 1, w =>
    if w.nsym < r.treeTotal.toNat then
      let bit := w.data.streamBit r.src w.nbits
      let w1 := { w with nbits := w.nbits + 1 }
      if r.treeNleaf = 1 then
        if bit then (w1, some .invalidCode)
        else walkBits node r todo (w1.emit r.dst (node.entry r.treeRoot).symbol)
      else
        let cur := if bit then (node.entry w.cur).right else (node.entry w.cur).left
        if (node.entry cur).isLeaf then
          walkBits node r todo { w1.emit r.dst (node.entry cur).symbol with cur := r.treeRoot }
        else walkBits node r todo { w1 with cur := cur }
    else (w, none)

/-- DECODE (43_bitstream_codec.md R109): OUT_OVERFLOW before any write when TREE_TOTAL > CAP; RES0 symbols written, RES1
input bits consumed, on success and on the errors of the loop. -/
def execDecode (s : State) : Result :=
  .next
    (match s.bufferError with
     | some e => s.raise e
     | none =>
      let r := s.regs
      if r.cap < r.treeTotal.toNat then s.raise .outOverflow
      else
        let z := walkBits s.ram.node r (8 * r.len) ⟨s.ram.data, r.treeRoot, 0, 0⟩
        let t := { s with ram.data := z.1.data }.withRes01 z.1.nsym z.1.nbits
        match z.2 with
        | some e => t.raise e
        | none => t.finish)

end Sys2Proof.Machine
end

