-- ==== Sys2Proof/Machine/FreqTable.lean ====
section
/-! DEFINITION. NOP (41_tree_builder.md R89) and the frequency table commands FREQ_CLEAR (R90) and FREQ_COUNT (R91). -/

namespace Sys2Proof.Machine

/-- NOP (41_tree_builder.md R89): it only completes. -/
def execNop (s : State) : Result := .next s.finish

/-- FREQ_CLEAR (41_tree_builder.md R90): every FREQ entry becomes 0. -/
def execFreqClear (s : State) : Result :=
  .next { s with ram.freq := Vector.replicate 256 0 }.finish

/-- The loop of FREQ_COUNT over the bytes at `src + i`, for the `todo` bytes still to count: the table, and the index
of the byte whose entry is full, if one is met (41_tree_builder.md R91). -/
def countBytes (data : Memory) (src : Nat) : Nat → Nat → SymTable Word → SymTable Word × Option Nat
  | 0, _, freq => (freq, none)
  | todo + 1, i, freq =>
    let b := data.read (src + i)
    if freq.entry b = 0xFFFFFFFF then (freq, some i)
    else countBytes data src todo (i + 1) (freq.store b (freq.entry b + 1))

/-- FREQ_COUNT (41_tree_builder.md R91): RANGE before any change; FREQ_OVERFLOW keeps the counts made so far and
reports their number in RES0. -/
def execFreqCount (s : State) : Result :=
  .next
    (if !(fits s.dataBytes s.regs.src s.regs.len) then s.raise .range
     else
      match countBytes s.ram.data s.regs.src s.regs.len 0 s.ram.freq with
      | (freq, none) => ({ s with ram.freq := freq }.withRes0 s.regs.len).finish
      | (freq, some i) => ({ s with ram.freq := freq }.withRes0 i).raise .freqOverflow)

end Sys2Proof.Machine
end

