-- ==== Sys2Proof/Machine/PriorityQueue.lean ====
section
/-! DEFINITION. The binary min-heap (40_priority_queue.md R78 to R84) and the commands PQ_INIT, PQ_INSERT and
PQ_EXTRACT (R85 to R87). -/

namespace Sys2Proof.Machine

/-- The queue: the HEAP RAM with PQ_SIZE and PQ_SEQ as numbers (40_priority_queue.md R78). -/
structure Queue where
  heap : Heap
  size : Nat
  seq : Nat
deriving DecidableEq, Repr

/-- The order of entries: (KEY, SEQ) lexicographically (40_priority_queue.md R79). -/
def HeapEntry.less (a b : HeapEntry) : Bool :=
  a.key.toNat < b.key.toNat || (a.key == b.key && a.seq.toNat < b.seq.toNat)

/-- The sift-up loop of pq_insert from position i, in at most `fuel` swaps (40_priority_queue.md R82). -/
def Heap.siftUp : Nat → Heap → Nat → Heap
  | 0, h, _ => h
  | fuel + 1, h, i =>
    if 1 < i ∧ (h.slot i).less (h.slot (i / 2)) then Heap.siftUp fuel (h.swap i (i / 2)) (i / 2) else h

/-- The position among i and its children inside the heap that holds the least entry, as pq_extract chooses it
(40_priority_queue.md R83). -/
def Heap.smallest (h : Heap) (size i : Nat) : Nat :=
  let s := if 2 * i ≤ size ∧ (h.slot (2 * i)).less (h.slot i) then 2 * i else i
  if 2 * i + 1 ≤ size ∧ (h.slot (2 * i + 1)).less (h.slot s) then 2 * i + 1 else s

/-- The sift-down loop of pq_extract from position i, in at most `fuel` swaps (40_priority_queue.md R83). -/
def Heap.siftDown : Nat → Heap → Nat → Nat → Heap
  | 0, h, _, _ => h
  | fuel + 1, h, size, i =>
    let s := h.smallest size i
    if s = i then h else Heap.siftDown fuel (h.swap i s) size s

/-- pq_init (40_priority_queue.md R81): HEAP contents are not changed. -/
def Queue.init (q : Queue) : Queue := { q with size := 0, seq := 0 }

/-- pq_insert (40_priority_queue.md R82): append, then sift up. The returned SEQ is `q.seq`. -/
def Queue.insert (q : Queue) (key : Word) (tag : NodeIdx) : Queue :=
  let size := q.size + 1
  let appended := q.heap.setSlot size ⟨key, BitVec.ofNat 32 q.seq, tag⟩
  { heap := Heap.siftUp size appended size, size := size, seq := q.seq + 1 }

/-- The entry pq_extract returns: HEAP[1] (40_priority_queue.md R83). -/
def Queue.top (q : Queue) : HeapEntry := q.heap.slot 1

/-- pq_extract (40_priority_queue.md R83): swap the root with the last entry, shrink, sift down. -/
def Queue.pop (q : Queue) : Queue :=
  let size := q.size - 1
  { q with heap := Heap.siftDown size (q.heap.swap 1 q.size) size 1, size := size }

/-- The queue the registers and the HEAP RAM hold. -/
def State.queue (s : State) : Queue := ⟨s.ram.heap, s.regs.pqSize.toNat, s.regs.pqSeq.toNat⟩

/-- Stores a queue back into the HEAP RAM, PQ_SIZE and PQ_SEQ. -/
def State.withQueue (s : State) (q : Queue) : State :=
  { s with
    regs.pqSize := BitVec.ofNat 9 q.size
    regs.pqSeq := BitVec.ofNat 32 q.seq
    ram.heap := q.heap }

/-- PQ_INIT (40_priority_queue.md R85). -/
def execPqInit (s : State) : Result := .next (s.withQueue s.queue.init).finish

/-- PQ_INSERT (40_priority_queue.md R86): QUEUE_FULL, then SEQ_OVERFLOW; RES0 is the SEQ given to the entry. -/
def execPqInsert (s : State) : Result :=
  let q := s.queue
  .next
    (if q.size = 256 then s.raise .queueFull
     else if q.seq = 0xFFFFFFFF then s.raise .seqOverflow
     else ((s.withQueue (q.insert s.regs.key s.regs.tag)).withRes0 q.seq).finish)

/-- PQ_EXTRACT (40_priority_queue.md R87): RES0, RES1, RES2 are the entry's KEY, TAG and SEQ. -/
def execPqExtract (s : State) : Result :=
  let q := s.queue
  .next
    (if q.size = 0 then s.raise .emptyQueue
     else ((s.withQueue q.pop).withRes q.top.key.toNat q.top.tag.toNat q.top.seq.toNat).finish)

end Sys2Proof.Machine
end

