-- ==== Sys2Proof/Machine/TreeBuilder.lean ====
section
/-! DEFINITION. BUILD: phases LOAD (41_tree_builder.md R93), MERGE (R95) and CODEGEN (42_code_table.md R100, R101), its
errors (R94) and its completion (R96). -/

namespace Sys2Proof.Machine

/-- What LOAD and MERGE work on: the queue, the NODE RAM, the next free node index and the sum of the loaded
frequencies (unbounded). -/
structure Forest where
  queue : Queue
  node : Nodes
  next : Nat
  total : Nat
deriving DecidableEq, Repr

/-- The leaf of a symbol (10_state.md R32): both children are the null index 0x1FF. -/
def NodeEntry.leaf (symbol : Byte) (freq : Word) : NodeEntry := ⟨true, symbol, freq, 0x1FF, 0x1FF⟩

/-- An internal node (10_state.md R32). -/
def NodeEntry.internal (freq : Word) (left right : NodeIdx) : NodeEntry := ⟨false, 0, freq, left, right⟩

/-- LOAD's body for symbol s with f = FREQ[s]: a leaf for a non-zero frequency (41_tree_builder.md R93). -/
def Forest.loadSymbol (t : Forest) (s : Byte) (f : Word) : Forest :=
  if f = 0 then t
  else
    { queue := t.queue.insert f (BitVec.ofNat 9 t.next)
      node := t.node.store (BitVec.ofNat 9 t.next) (NodeEntry.leaf s f)
      next := t.next + 1
      total := t.total + f.toNat }

/-- BUILD phase LOAD (41_tree_builder.md R93): pq_init, then one leaf for each symbol of the alphabet, ascending. -/
def Forest.load (q : Queue) (node : Nodes) (freq : SymTable Word) : Forest :=
  freq.pairs.foldl (fun t p => t.loadSymbol p.1 p.2) ⟨q.init, node, 0, 0⟩

/-- MERGE's loop body: the first entry extracted is LEFT, the second RIGHT (41_tree_builder.md R95). -/
def Forest.mergeOnce (t : Forest) : Forest :=
  let x := t.queue.top
  let q1 := t.queue.pop
  let y := q1.top
  let q2 := q1.pop
  let f := x.key + y.key
  { t with
    queue := q2.insert f (BitVec.ofNat 9 t.next)
    node := t.node.store (BitVec.ofNat 9 t.next) (NodeEntry.internal f x.tag y.tag)
    next := t.next + 1 }

/-- BUILD phase MERGE (41_tree_builder.md R95): while more than one entry is left, at most `fuel` times. -/
def Forest.merge : Nat → Forest → Forest
  | 0, t => t
  | fuel + 1, t => if 1 < t.queue.size then Forest.merge fuel t.mergeOnce else t

/-- The code table while CODEGEN writes it (42_code_table.md R100). -/
structure CodeTable where
  len : SymTable (BitVec 8)
  bits : SymTable CodeBits
  maxlen : Nat
deriving DecidableEq, Repr

/-- A path as code bits: bit j of the code is step j from the root, 0 beyond the path (10_state.md R35). -/
def pathNat : List Bool → Nat
  | [] => 0
  | b :: rest => b.toNat + 2 * pathNat rest

/-- Records path p as the code of symbol s (42_code_table.md R100). -/
def CodeTable.record (c : CodeTable) (s : Byte) (p : List Bool) : CodeTable :=
  { len := c.len.store s (BitVec.ofNat 8 p.length)
    bits := c.bits.store s (BitVec.ofNat 255 (pathNat p))
    maxlen := max c.maxlen p.length }

/-- visit(i, p) of CODEGEN: LEFT appends 0, RIGHT appends 1 (42_code_table.md R100). The recursion goes down at most
`fuel` levels; a tree of 256 leaves has at most 256 (42_code_table.md R104). -/
def visit (node : Nodes) : Nat → NodeIdx → List Bool → CodeTable → CodeTable
  | 0, _, _, c => c
  | fuel + 1, i, p, c =>
    let n := node.entry i
    if n.isLeaf then c.record n.symbol p
    else visit node fuel n.right (p ++ [true]) (visit node fuel n.left (p ++ [false]) c)

/-- BUILD phase CODEGEN: the table is cleared first; a lone symbol gets the one-bit code "0" (42_code_table.md R100,
R101). -/
def codegen (node : Nodes) (nleaf : Nat) (root : NodeIdx) : CodeTable :=
  let cleared : CodeTable := ⟨Vector.replicate 256 0, Vector.replicate 256 0, 0⟩
  if nleaf = 1 then cleared.record (node.entry root).symbol [false]
  else visit node 256 root [] cleared

/-- Stores what LOAD and MERGE wrote: HEAP, PQ_SIZE, PQ_SEQ and NODE. -/
def State.withForest (s : State) (t : Forest) : State :=
  { s.withQueue t.queue with ram.node := t.node }

/-- Stores the code table (42_code_table.md R100). -/
def State.withCodes (s : State) (c : CodeTable) : State :=
  { s with ram.codeLen := c.len, ram.codeBits := c.bits }

/-- BUILD's final writes (41_tree_builder.md R96). -/
def State.withTree (s : State) (nleaf next total maxlen : Nat) (root : NodeIdx) : State :=
  { s with
    regs.treeNleaf := BitVec.ofNat 9 nleaf
    regs.treeRoot := root
    regs.treeTotal := BitVec.ofNat 32 total
    regs.nodeCount := BitVec.ofNat 10 next
    regs.treeMaxlen := BitVec.ofNat 8 maxlen
    regs.treeValid := true }

/-- BUILD (41_tree_builder.md R92): LOAD, then EMPTY_INPUT or FREQ_OVERFLOW (R94), else MERGE, the extraction of the
root, CODEGEN and the completion (R96). TREE_VALID was cleared at acceptance (60_exceptions.md R116). -/
def execBuild (s : State) : Result :=
  let loaded := Forest.load s.queue s.ram.node s.ram.freq
  let nleaf := loaded.next
  .next
    (if nleaf = 0 then (s.withForest loaded).raise .emptyInput
     else if 0xFFFFFFFF < loaded.total then (s.withForest loaded).raise .freqOverflow
     else
      let merged := Forest.merge nleaf loaded
      let root := merged.queue.top.tag
      let forest := { merged with queue := merged.queue.pop }
      let codes := codegen forest.node nleaf root
      (((s.withForest forest).withCodes codes).withTree nleaf forest.next forest.total codes.maxlen root).finish)

end Sys2Proof.Machine
end

