-- ==== Sys2Proof/Machine/Dispatch.lean ====
section
/-! DEFINITION. One arm for each command: the engine's execution of an accepted command, from acceptance to completion
(00_scope.md R9). -/

namespace Sys2Proof.Machine

/-- What the engine does with an accepted command. -/
def exec (i : Instr) (s : State) : Host.Outcome State Fault Refusal :=
  match i with
  | .nop => Sys2Proof.Machine.execNop s
  | .freqClear => Sys2Proof.Machine.execFreqClear s
  | .freqCount => Sys2Proof.Machine.execFreqCount s
  | .build => Sys2Proof.Machine.execBuild s
  | .encode => Sys2Proof.Machine.execEncode s
  | .decode => Sys2Proof.Machine.execDecode s
  | .pqInit => Sys2Proof.Machine.execPqInit s
  | .pqInsert => Sys2Proof.Machine.execPqInsert s
  | .pqExtract => Sys2Proof.Machine.execPqExtract s

end Sys2Proof.Machine
end

