-- ==== Sys2Proof/Machine/Reset.lean ====
section
/-! DEFINITION. What ends a command from outside: the ABORT outcome (60_exceptions.md R127), the soft reset
(70_reset_and_hazards.md R134) and the power-on / reset input (R133). The values they leave unspecified are free
values. -/

namespace Sys2Proof.Machine

/-- FREQ with every entry unspecified. -/
def freeFreq (k : Nat) : SymTable Word := Vector.ofFn fun s => Config.free k (.freq s) 32

/-- NODE with every entry unspecified. -/
def freeNodes (k : Nat) : Nodes :=
  Vector.ofFn fun i =>
    { isLeaf := (Config.free k (.nodeIsLeaf i) 1).getLsbD 0
      symbol := Config.free k (.nodeSymbol i) 8
      freq := Config.free k (.nodeFreq i) 32
      left := Config.free k (.nodeLeft i) 9
      right := Config.free k (.nodeRight i) 9 }

/-- HEAP with every slot unspecified. -/
def freeHeap (k : Nat) : Heap :=
  Vector.ofFn fun i =>
    { key := Config.free k (.heapKey (i + 1)) 32
      seq := Config.free k (.heapSeq (i + 1)) 32
      tag := Config.free k (.heapTag (i + 1)) 9 }

/-- CODE_LEN with every entry unspecified. -/
def freeCodeLen (k : Nat) : SymTable (BitVec 8) := Vector.ofFn fun s => Config.free k (.codeLen s) 8

/-- CODE_BITS with every entry unspecified. -/
def freeCodeBits (k : Nat) : SymTable CodeBits := Vector.ofFn fun s => Config.free k (.codeBits s) 255

/-- DATA with the `n` bytes from offset `a` unspecified. -/
def freeData (k : Nat) (m : Memory) (a n : Nat) : Memory :=
  m.fill a (fun i => Config.free k (.data (a + i)) 8) n

/-- PQ_SIZE <- 0 and PQ_SEQ <- 0, the definite values of 60_exceptions.md R127. -/
def State.clearQueueRegs (s : State) : State := { s with regs.pqSize := 0, regs.pqSeq := 0 }

/-- ENCODE, DECODE: DATA[DST .. DST+CAP-1] becomes unspecified if the buffer checks would pass, else nothing
(60_exceptions.md R127). -/
def State.spoilOutput (s : State) (k : Nat) : State :=
  match s.bufferError with
  | some _ => s
  | none => { s with ram.data := freeData k s.ram.data s.regs.dst s.regs.cap }

/-- The state a stopped command may write becomes unspecified, per command (60_exceptions.md R127); `c` is the command
in CMD, none for an illegal word, and `k` the draw number. -/
def State.spoil (s : State) (c : Option Instr) (k : Nat) : State :=
  match c with
  | none => s
  | some .nop => s
  | some .freqClear => { s with ram.freq := freeFreq k }
  | some .freqCount => { s with ram.freq := freeFreq k }
  | some .build =>
    { s.clearQueueRegs with
      ram.node := freeNodes k
      ram.heap := freeHeap k
      ram.codeLen := freeCodeLen k
      ram.codeBits := freeCodeBits k
      regs.treeNleaf := Config.free k .treeNleaf 9
      regs.treeRoot := Config.free k .treeRoot 9
      regs.treeTotal := Config.free k .treeTotal 32
      regs.treeMaxlen := Config.free k .treeMaxlen 8
      regs.nodeCount := Config.free k .nodeCount 10 }
  | some .encode => s.spoilOutput k
  | some .decode => s.spoilOutput k
  | some .pqInit => s.clearQueueRegs
  | some .pqInsert => { s.clearQueueRegs with ram.heap := freeHeap k }
  | some .pqExtract => { s.clearQueueRegs with ram.heap := freeHeap k }

/-- One more free value has been drawn. -/
def State.drawn (s : State) : State := { s with env.draws := s.env.draws + 1 }

/-- The abort takes effect (60_exceptions.md R127): ABORTED is taken with RES0..RES2 and the command's write set
unspecified. -/
def State.abort (s : State) : State :=
  let k := s.env.draws
  let t := s.spoil (command? s.regs.cmd) k
  { t with
    regs.res0 := Config.free k (.res 0) 32
    regs.res1 := Config.free k (.res 1) 32
    regs.res2 := Config.free k (.res 2) 32 }.raise .aborted

/-- Soft reset (70_reset_and_hazards.md R134): the write set of a running command becomes unspecified, every register
takes its reset value, and no completion is reported, so that there is none to observe (log entry 16). -/
def State.softReset (s : State) : State :=
  let t := if s.regs.busy then (s.spoil (command? s.regs.cmd) s.env.draws).drawn else s
  { t with regs := Regs.reset, env.observed := true }

/-- The power-on / reset input (70_reset_and_hazards.md R133): every register takes its reset value and every RAM entry
is unspecified; no completion is left to observe (log entry 16). -/
def State.powerOnReset (s : State) : State :=
  let k := s.env.draws
  { s with
    regs := Regs.reset
    ram :=
      { freq := freeFreq k
        node := freeNodes k
        heap := freeHeap k
        codeLen := freeCodeLen k
        codeBits := freeCodeBits k
        data := freeData k s.ram.data 0 s.dataBytes }
    env.observed := true }.drawn

end Sys2Proof.Machine
end

