-- ==== Sys2Proof/Machine/Bus.lean ====
section
/-! DEFINITION. The host bus (20_memory.md R50 to R60): the address map, reads, writes, and the two kinds of atomic
event of a run: the engine's execution of the accepted command and the host's next transaction (R61). -/

namespace Sys2Proof.Machine

/-- The registers of the register block (10_state.md R18). -/
inductive BusReg where
  | id
  | version
  | ctrl
  | cmd
  | status
  | errcode
  | arg0
  | arg1
  | arg2
  | arg3
  | res0
  | res1
  | res2
  | treeNleaf
  | treeRoot
  | treeTotal
  | treeMaxlen
  | nodeCount
  | pqSize
  | pqSeq
deriving DecidableEq, Repr

/-- What a host address reaches (20_memory.md R52). -/
inductive Target where
  | reg (r : BusReg)
  | freq (s : Byte)
  | node (i : NodeIdx) (word : Nat)
  | heap (p word : Nat)
  | codeLen (s : Byte)
  | codeBits (s : Byte) (word : Nat)
  | data (a : Nat)
  | unmapped
deriving DecidableEq, Repr

/-- The identification constants (10_state.md R19). -/
def idValue : Word := 0x48554646
def versionValue : Word := 0x00010000

/-- The register at a byte offset of the register block; 0x050 to 0x0FC are reserved (10_state.md R18, R29). -/
def busReg? (offset : Nat) : Option BusReg :=
  match offset with
  | 0x000 => some .id
  | 0x004 => some .version
  | 0x008 => some .ctrl
  | 0x00C => some .cmd
  | 0x010 => some .status
  | 0x014 => some .errcode
  | 0x018 => some .arg0
  | 0x01C => some .arg1
  | 0x020 => some .arg2
  | 0x024 => some .arg3
  | 0x028 => some .res0
  | 0x02C => some .res1
  | 0x030 => some .res2
  | 0x034 => some .treeNleaf
  | 0x038 => some .treeRoot
  | 0x03C => some .treeTotal
  | 0x040 => some .treeMaxlen
  | 0x044 => some .nodeCount
  | 0x048 => some .pqSize
  | 0x04C => some .pqSeq
  | _ => none

/-- The address map (20_memory.md R52); address bits 1:0 are ignored (R53). A reserved register offset reads 0 and
ignores writes, as an unmapped address does (10_state.md R29, 20_memory.md R54). -/
def target (addr : BusAddr) : Target :=
  let a := addr.toNat - addr.toNat % 4
  if a < 0x00100 then (match busReg? a with | some r => .reg r | none => .unmapped)
  else if a < 0x00400 then .unmapped
  else if a < 0x00800 then .freq (BitVec.ofNat 8 ((a - 0x00400) / 4))
  else if a < 0x01000 then .unmapped
  else if a < 0x02000 then .node (BitVec.ofNat 9 ((a - 0x01000) / 8)) ((a - 0x01000) % 8 / 4)
  else if a < 0x03000 then .heap ((a - 0x02000) / 16 + 1) ((a - 0x02000) % 16 / 4)
  else if a < 0x03400 then .codeLen (BitVec.ofNat 8 ((a - 0x03000) / 4))
  else if a < 0x04000 then .unmapped
  else if a < 0x06000 then .codeBits (BitVec.ofNat 8 ((a - 0x04000) / 32)) ((a - 0x04000) % 32 / 4)
  else if a < 0x10000 then .unmapped
  else .data (a - 0x10000)

/-- The value of a register as read (10_state.md R18 to R28). -/
def Regs.read (r : Regs) : BusReg → Word
  | .id => idValue
  | .version => versionValue
  | .ctrl => r.ctrlWord
  | .cmd => r.cmd
  | .status => r.statusWord
  | .errcode => r.errcodeWord
  | .arg0 => r.arg0
  | .arg1 => r.arg1
  | .arg2 => r.arg2
  | .arg3 => r.arg3
  | .res0 => r.res0
  | .res1 => r.res1
  | .res2 => r.res2
  | .treeNleaf => r.treeNleaf.setWidth 32
  | .treeRoot => r.treeRoot.setWidth 32
  | .treeTotal => r.treeTotal
  | .treeMaxlen => r.treeMaxlen.setWidth 32
  | .nodeCount => r.nodeCount.setWidth 32
  | .pqSize => r.pqSize.setWidth 32
  | .pqSeq => r.pqSeq

/-- Word 0 or word 1 of a NODE entry (10_state.md R32). -/
def NodeEntry.word (n : NodeEntry) : Nat → Word
  | 0 => n.freq
  | _ => BitVec.ofBool n.isLeaf ++ 0#5 ++ n.left ++ n.right ++ n.symbol

/-- Word k of a HEAP slot; word 3 reads 0 (10_state.md R33). -/
def HeapEntry.word (e : HeapEntry) : Nat → Word
  | 0 => e.key
  | 1 => e.seq
  | 2 => e.tag.setWidth 32
  | _ => 0

/-- A list of bits read as a binary number, first bit most significant. -/
def bitsMsbFirst (bits : List Bool) : Nat := bits.foldl (fun n b => 2 * n + b.toNat) 0

/-- Word k of a symbol's code bits: word bit 31 - m is code bit 32k + m (10_state.md R35). -/
def codeBitsWord (c : CodeBits) (k : Nat) : Word :=
  BitVec.ofNat 32 (bitsMsbFirst ((List.range 32).map fun m => c.getLsbD (32 * k + m)))

/-- The word at a target while the block is idle (20_memory.md R52 to R55). -/
def State.peek (s : State) : Target → Word
  | .reg r => s.regs.read r
  | .freq b => s.ram.freq.entry b
  | .node i w => (s.ram.node.entry i).word w
  | .heap p w => (s.ram.heap.slot p).word w
  | .codeLen b => (s.ram.codeLen.entry b).setWidth 32
  | .codeBits b w => codeBitsWord (s.ram.codeBits.entry b) w
  | .data a => s.ram.data.readWord s.dataBytes a
  | .unmapped => 0

/-- The command-controlled state: RES0..RES2, the tree and PQ registers and every RAM window (10_state.md R39). -/
def Target.commandControlled : Target → Bool
  | .reg .res0 | .reg .res1 | .reg .res2 => true
  | .reg .treeNleaf | .reg .treeRoot | .reg .treeTotal | .reg .treeMaxlen | .reg .nodeCount => true
  | .reg .pqSize | .reg .pqSeq => true
  | .reg _ => false
  | .freq _ | .node _ _ | .heap _ _ | .codeLen _ | .codeBits _ _ | .data _ => true
  | .unmapped => false

/-- The bits of a DATA byte that have storage: all below DATA_BYTES, none at or above it (20_memory.md R54). -/
def dataByteBits (dataBytes a : Nat) : Byte := if a < dataBytes then 0xFF else 0

/-- The bits with storage of a word that can read as unspecified. The others are 0 in every read, BUSY or not: the unused
upper bits of the tree and PQ registers and of ERRCODE (10_state.md R23, R27, R29), the NODE slot of index 511 (R32), HEAP
word 3 (R33), CODE_BITS bit 255 (R35), and DATA bytes at or above DATA_BYTES (20_memory.md R54);
93_implementation_defined.md section 3 lists them as "stuck" (log entry 3). -/
def Target.storedBits (dataBytes : Nat) : Target → Word
  | .reg .treeNleaf | .reg .treeRoot | .reg .pqSize => 0x000001FF
  | .reg .treeMaxlen => 0x000000FF
  | .reg .errcode => 0x0000000F
  | .reg .nodeCount => 0x000003FF
  | .node i _ => if i = 0x1FF then 0 else 0xFFFFFFFF
  | .heap _ w => if w = 3 then 0 else 0xFFFFFFFF
  | .codeBits _ w => if w = 7 then 0xFFFFFFFE else 0xFFFFFFFF
  | .data a =>
    dataByteBits dataBytes (a + 3) ++ dataByteBits dataBytes (a + 2) ++ dataByteBits dataBytes (a + 1) ++
      dataByteBits dataBytes a
  | .reg _ | .freq _ | .codeLen _ | .unmapped => 0xFFFFFFFF

/-- Whether a read of a target returns an unspecified value: command-controlled state from the acceptance of a command
until the host has observed its completion (10_state.md R39, 20_memory.md R62), and ERRCODE, which is exact while
BUSY = 1 (R39), between the completion and its observation (70_reset_and_hazards.md R139; log entry 16). -/
def State.readsFree (s : State) : Target → Bool
  | .reg .errcode => !s.regs.busy && !s.env.observed
  | t => t.commandControlled && (s.regs.busy || !s.env.observed)

/-- The word HostRead(addr) returns (20_memory.md R51): exact, or a free value in the bits that have storage. -/
def State.readData (s : State) (addr : BusAddr) : Word :=
  if s.readsFree (target addr) then
    Config.free s.env.draws .busRead 32 &&& (target addr).storedBits s.dataBytes
  else s.peek (target addr)

/-- A performed transaction is recorded (30_encoding.md R77). -/
def State.record (s : State) (r : Record) : State := { s with env.records := s.env.records ++ [r] }

/-- Whether a read observes the completion: a read of STATUS that returns BUSY = 0 or DONE = 1 (20_memory.md R62). -/
def State.observes (s : State) (addr : BusAddr) : Bool :=
  target addr == .reg .status && (!s.regs.busy || s.regs.done)

/-- The completion of the last accepted command is observed, if `b`. -/
def State.observe (s : State) (b : Bool) : State := { s with env.observed := s.env.observed || b }

/-- HostRead(addr) (20_memory.md R51): no block state changes; the transaction is recorded, a free value is counted as
drawn, and a completion the word shows is observed (R62). -/
def State.hostRead (s : State) (addr : BusAddr) : State :=
  let t := (s.record ⟨.read, addr, s.readData addr⟩).observe (s.observes addr)
  if s.readsFree (target addr) then t.drawn else t

/-- One engine event: the execution of the command in CMD, to completion (20_memory.md R61); an illegal word completes
with ILLEGAL_CMD (60_exceptions.md R120). -/
def State.engineStep (s : State) : Result :=
  match decodeWord s.regs.cmd with
  | .ok i => exec i s
  | .error _ => .next (s.raise .illegalCmd)

/-- A host write to CTRL (10_state.md R20): SRST first; else IRQ_EN, and an ABORT of a running command, which takes
effect or finds the command at its end (60_exceptions.md R126). -/
def State.writeCtrl (s : State) (v : Word) : Result :=
  if v.getLsbD 2 then .next s.softReset
  else
    let t := { s with regs.irqEn := v.getLsbD 0 }
    if v.getLsbD 1 && s.regs.busy then
      if Config.abortTakesEffect s.env.draws then .next t.abort.drawn else t.drawn.engineStep
    else .next t

/-- A busy-protected write: while BUSY it is dropped and sets WR_BUSY, at every address of CMD, ARG0..ARG3 and the FREQ
and DATA windows, DATA words at or above DATA_BYTES included (10_state.md R26, 60_exceptions.md R132; log entry 11). -/
def State.protectedWrite (s : State) (write : State) : Result :=
  .next (if s.regs.busy then s.dropWrite else write)

/-- HostWrite(addr, v) at its target (10_state.md R18 to R29, 20_memory.md R52 to R55): read-only registers, read-only
windows and unmapped addresses ignore it. -/
def State.writeTarget (s : State) (v : Word) : Target → Result
  | .reg .ctrl => s.writeCtrl v
  | .reg .cmd => s.protectedWrite (s.accept v)
  | .reg .status => .next { s with regs := s.regs.clearStatus v }
  | .reg .arg0 => s.protectedWrite { s with regs.arg0 := v }
  | .reg .arg1 => s.protectedWrite { s with regs.arg1 := v }
  | .reg .arg2 => s.protectedWrite { s with regs.arg2 := v }
  | .reg .arg3 => s.protectedWrite { s with regs.arg3 := v }
  | .reg _ => .next s
  | .freq b => s.protectedWrite { s with ram.freq := s.ram.freq.store b v }
  | .data a => s.protectedWrite { s with ram.data := s.ram.data.writeWord s.dataBytes a v }
  | .node _ _ | .heap _ _ | .codeLen _ | .codeBits _ _ | .unmapped => .next s

/-- HostWrite(addr, v) (20_memory.md R51), recorded. -/
def State.hostWrite (s : State) (addr : BusAddr) (v : Word) : Result :=
  (s.record ⟨.write, addr, v⟩).writeTarget v (target addr)

/-- The outside program once its head is done. -/
def State.withProgram (s : State) (p : List Input) : State := { s with env.program := p }

/-- One event of the outside: the next statement of the host's program (30_encoding.md R74), where POLL is one read that
is repeated until its condition holds, or the reset input. With nothing to do the block waits
(70_reset_and_hazards.md R136). -/
def State.hostStep (s : State) : Result :=
  match s.env.program with
  | [] => .next s
  | .wr addr v :: rest => (s.withProgram rest).hostWrite addr v
  | .rd addr :: rest => .next ((s.hostRead addr).withProgram rest)
  | .poll addr mask v :: rest =>
    .next (if s.readData addr &&& mask = v then (s.hostRead addr).withProgram rest else s.hostRead addr)
  | .powerOn :: rest => .next (s.withProgram rest).powerOnReset

/-- Who moves next: the engine can move only while a command runs; while it runs `turns` says, and the engine moves when
`turns` is used up or the outside has nothing to do (70_reset_and_hazards.md R144: finitely many host transactions,
then the completion). -/
def State.mover (s : State) : Agent :=
  if s.regs.busy then
    match s.env.turns, s.env.program with
    | .host :: _, _ :: _ => .host
    | _, _ => .engine
  else .host

/-- A turn of the schedule is used up by an event while a command runs. -/
def State.useTurn (s : State) : State :=
  if s.regs.busy then { s with env.turns := s.env.turns.tail } else s

end Sys2Proof.Machine
end

