-- ==== Sys2Proof/Machine/HostProgram.lean ====
section
/-! DEFINITION. The host assembly notation: address symbols (30_encoding.md R75), the expansions of the
pseudo-instructions (R76), and the transaction records of a program (R77). -/

namespace Sys2Proof.Machine.HostProgram

/-! ### Address symbols (30_encoding.md R75) -/

def aID : BusAddr := 0x00000
def aVERSION : BusAddr := 0x00004
def aCTRL : BusAddr := 0x00008
def aCMD : BusAddr := 0x0000C
def aSTATUS : BusAddr := 0x00010
def aERRCODE : BusAddr := 0x00014
def aARG0 : BusAddr := 0x00018
def aARG1 : BusAddr := 0x0001C
def aARG2 : BusAddr := 0x00020
def aARG3 : BusAddr := 0x00024
def aRES0 : BusAddr := 0x00028
def aRES1 : BusAddr := 0x0002C
def aRES2 : BusAddr := 0x00030
def aTREE_NLEAF : BusAddr := 0x00034
def aTREE_ROOT : BusAddr := 0x00038
def aTREE_TOTAL : BusAddr := 0x0003C
def aTREE_MAXLEN : BusAddr := 0x00040
def aNODE_COUNT : BusAddr := 0x00044
def aPQ_SIZE : BusAddr := 0x00048
def aPQ_SEQ : BusAddr := 0x0004C
def aFREQ : BusAddr := 0x00400
def aNODE : BusAddr := 0x01000
def aHEAP : BusAddr := 0x02000
def aCODE_LEN : BusAddr := 0x03000
def aCODE_BITS : BusAddr := 0x04000
def aDATA : BusAddr := 0x10000

/-! ### Pseudo-instructions (30_encoding.md R76) -/

/-- WAIT: poll until DONE = 1. -/
def wait : List Input := [.poll aSTATUS 0x00000002 0x00000002]

/-- IDLE: poll until BUSY = 0. -/
def idle : List Input := [.poll aSTATUS 0x00000001 0x00000000]

/-- RUN <M>. -/
def run (m : Instr) : List Input := .wr aCMD (encode m) :: wait

/-- RUN <M> a0. -/
def run1 (m : Instr) (a0 : Word) : List Input := .wr aARG0 a0 :: run m

/-- RUN <M> a0, a1. -/
def run2 (m : Instr) (a0 a1 : Word) : List Input := .wr aARG0 a0 :: .wr aARG1 a1 :: run m

/-- RUN <M> a0, a1, a2, a3. -/
def run4 (m : Instr) (a0 a1 a2 a3 : Word) : List Input :=
  .wr aARG0 a0 :: .wr aARG1 a1 :: .wr aARG2 a2 :: .wr aARG3 a3 :: run m

/-- CLRST: clears DONE, ERR and WR_BUSY. -/
def clrst : List Input := [.wr aSTATUS 0x00000016]

/-- ABORT: also writes IRQ_EN = 0. -/
def abort : List Input := [.wr aCTRL 0x00000002]

/-- ABORT.I: keeps IRQ_EN = 1. -/
def abortI : List Input := [.wr aCTRL 0x00000003]

/-- SRST. -/
def srst : List Input := [.wr aCTRL 0x00000004]

/-- IRQON. -/
def irqOn : List Input := [.wr aCTRL 0x00000001]

/-- IRQOFF. -/
def irqOff : List Input := [.wr aCTRL 0x00000000]

/-! ### Encoding of a program (30_encoding.md R77) -/

/-- The record of a statement: direction, address and, for WR, the written word (a read's word is known only when it
is performed; `Env.records` holds it then). The reset input is no statement. -/
def statementRecord : Input → Option (Dir × BusAddr × Option Word)
  | .wr addr v => some (.write, addr, some v)
  | .rd addr => some (.read, addr, none)
  | .poll addr _ _ => some (.read, addr, none)
  | .powerOn => none

/-- A program's encoding: its statements' records in order. -/
def encoding (p : List Input) : List (Dir × BusAddr × Option Word) := p.filterMap statementRecord

end Sys2Proof.Machine.HostProgram
end

