-- ==== Sys2Proof/Machine/Step.lean ====
section
/-! DEFINITION. One step: one atomic event (20_memory.md R61), by the agent whose turn it is. -/

namespace Sys2Proof.Machine

/-- One atomic event of the run: the engine's execution of the accepted command, or the host's next transaction. -/
def step (s : State) : Host.Outcome State Fault Refusal :=
  match s.mover with
  | .engine => s.useTurn.engineStep
  | .host => s.useTurn.hostStep

/-- The command word `w` where the engine takes its next command: accepted into CMD (60_exceptions.md R116), with the
engine to move next, so that the very next step executes it. It stands for a host write of `w` to CMD (log entry 6). -/
def State.withFetchWord (s : State) (nbits w : Nat) : State :=
  { s.accept (BitVec.ofNat 32 (w % 2 ^ nbits)) with env.turns := .engine :: s.env.turns }

end Sys2Proof.Machine
end

