-- ==== Sys2Proof/Safety.lean ====
section
/-! DEFINITION. What the claims speak of: the invariants the spec states for the whole machine (10_state.md R22, R38,
40_priority_queue.md R80), and the bit streams the codec rules speak of (43_bitstream_codec.md R108, R113). -/

namespace Sys2Proof.Machine

/-! ### The command lifecycle (10_state.md R22, 60_exceptions.md R116) -/

/-- While a command runs, DONE, ERR, ERRCODE and RES0..RES2 are as its acceptance left them, TREE_VALID is 0 if it is a
BUILD, and its completion has not been observed. -/
def State.lifecycleOk (s : State) : Prop :=
  s.regs.busy = true →
    s.regs.done = false ∧ s.regs.err = false ∧ s.regs.errcode = 0 ∧
      s.regs.res0 = 0 ∧ s.regs.res1 = 0 ∧ s.regs.res2 = 0 ∧
      (s.regs.cmd = 0x00000003 → s.regs.treeValid = false) ∧ s.env.observed = false

/-! ### The DATA RAM -/

/-- DATA is in its one canonical form and lists no offset at or above DATA_BYTES. -/
def State.memoryOk (s : State) : Prop :=
  s.ram.data.wf = true ∧ ∀ c ∈ s.ram.data, c.1 < s.dataBytes

/-! ### The heap (40_priority_queue.md R78 to R80) -/

/-- The entries of the queue, HEAP[1..PQ_SIZE], in position order. -/
def Queue.live (q : Queue) : List HeapEntry := (List.range q.size).map fun i => q.heap.slot (i + 1)

/-- The queue fits its RAM; no entry is less than its parent (40_priority_queue.md R80); the SEQ values are distinct and
all below PQ_SEQ (R79). -/
def Queue.ok (q : Queue) : Prop :=
  q.size ≤ 256 ∧
  (∀ i, 2 ≤ i → i ≤ q.size → (q.heap.slot i).less (q.heap.slot (i / 2)) = false) ∧
  (∀ i j, 1 ≤ i → i < j → j ≤ q.size → (q.heap.slot i).seq ≠ (q.heap.slot j).seq) ∧
  (∀ i, 1 ≤ i → i ≤ q.size → (q.heap.slot i).seq.toNat < q.seq)

/-- HEAP `k` is `h` after the sift-up of entry `e` from position `n` (40_priority_queue.md R82): with the ancestors
n, n/2, n/4, ..., the entries greater than `e` move one position down, `e` stands after `m` of them, and no other slot is
written. -/
def Heap.siftedUp (h k : Heap) (n : Nat) (e : HeapEntry) : Prop :=
  ∃ m : Nat,
    (∀ j < m, 1 < n / 2 ^ j ∧ e.less (h.slot (n / 2 ^ (j + 1))) = true ∧
      k.slot (n / 2 ^ j) = h.slot (n / 2 ^ (j + 1))) ∧
    (n / 2 ^ m = 1 ∨ e.less (h.slot (n / 2 ^ (m + 1))) = false) ∧
    k.slot (n / 2 ^ m) = e ∧
    ∀ p, (∀ j ≤ m, p ≠ n / 2 ^ j) → k.slot p = h.slot p

/-- In a heap of `n` entries, `c` is the child of position `p` that pq_extract swaps entry `x` with: the smaller child, if
it is less than `x` (40_priority_queue.md R83). -/
def Heap.swapsWith (h : Heap) (n : Nat) (x : HeapEntry) (p c : Nat) : Prop :=
  (c = 2 * p ∨ c = 2 * p + 1) ∧ c ≤ n ∧ (h.slot c).less x = true ∧
  (c = 2 * p → 2 * p + 1 ≤ n → (h.slot (2 * p + 1)).less (h.slot (2 * p)) = false) ∧
  (c = 2 * p + 1 → (h.slot (2 * p)).less x = true → (h.slot (2 * p + 1)).less (h.slot (2 * p)) = true)

/-- Positions i to n of HEAP `k` are those of `h` after the sift-down of entry `x` from position `i`
(40_priority_queue.md R83): along a path of smaller children each entry moves one position up, `x` stands at the end of
the path, and no other slot is written. -/
def Heap.siftedDown (h k : Heap) (n i : Nat) (x : HeapEntry) : Prop :=
  ∃ (m : Nat) (path : Nat → Nat), path 0 = i ∧
    (∀ j < m, h.swapsWith n x (path j) (path (j + 1)) ∧ k.slot (path j) = h.slot (path (j + 1))) ∧
    (∀ c, c = 2 * path m ∨ c = 2 * path m + 1 → c ≤ n → (h.slot c).less x = false) ∧
    k.slot (path m) = x ∧
    ∀ p, 1 ≤ p → p ≤ n → (∀ j ≤ m, p ≠ path j) → k.slot p = h.slot p

/-! ### The tree (10_state.md R38) -/

/-- Following branch bits from node i, 0 = LEFT and 1 = RIGHT; a leaf has no branches. -/
def Nodes.follow (n : Nodes) : NodeIdx → List Bool → Option NodeIdx
  | i, [] => some i
  | i, b :: rest =>
    if (n.entry i).isLeaf then none
    else n.follow (if b then (n.entry i).right else (n.entry i).left) rest

/-- Node number i of the NODE RAM, for the ranges of 10_state.md R38. -/
def Rams.nodeNo (r : Rams) (i : Nat) : NodeEntry := r.node.entry (BitVec.ofNat 9 i)

/-- The leaves and internal nodes of a tree of n leaves (10_state.md R38 items 1 and 2). -/
abbrev Rams.treeShape (r : Rams) (n : Nat) : Prop :=
  (∀ i < n, (r.nodeNo i).isLeaf = true ∧ (r.nodeNo i).left = 0x1FF ∧ (r.nodeNo i).right = 0x1FF) ∧
  (∀ i < n, ∀ j < i, (r.nodeNo j).symbol.toNat < (r.nodeNo i).symbol.toNat) ∧
  (∀ i < 2 * n - 1, n ≤ i →
    (r.nodeNo i).isLeaf = false ∧ (r.nodeNo i).symbol = 0 ∧
    (r.nodeNo i).left ≠ (r.nodeNo i).right ∧
    (r.nodeNo i).left.toNat < i ∧ (r.nodeNo i).right.toNat < i ∧
    (r.nodeNo i).freq.toNat =
      (r.node.entry (r.nodeNo i).left).freq.toNat + (r.node.entry (r.nodeNo i).right).freq.toNat) ∧
  (∀ j < 2 * n - 2,
    (List.range (2 * n - 1)).countP
      (fun i => n ≤ i && ((r.nodeNo i).left.toNat == j || (r.nodeNo i).right.toNat == j)) = 1)

/-- The code table of a tree of n leaves with root number root (10_state.md R38 items 4 and 5, R35). -/
abbrev Rams.codesShape (r : Rams) (n root : Nat) : Prop :=
  (∀ s ∈ allSymbols, (r.codeLen.entry s ≠ 0 ↔ ∃ i < n, (r.nodeNo i).symbol = s) ∧
    (r.codeBits.entry s).toNat < 2 ^ (r.codeLen.entry s).toNat) ∧
  (n = 1 → r.code (r.nodeNo 0).symbol = [false]) ∧
  (2 ≤ n → ∀ i < n, r.node.follow (BitVec.ofNat 9 root) (r.code (r.nodeNo i).symbol) = some (BitVec.ofNat 9 i)) ∧
  (∀ i < n, ∀ j < n, i ≠ j →
    (r.code (r.nodeNo i).symbol).isPrefixOf (r.code (r.nodeNo j).symbol) = false)

/-- The tree registers of a tree of n leaves (10_state.md R27, R38 items 1, 3 and 5). -/
abbrev State.treeRegsShape (s : State) (n : Nat) : Prop :=
  s.regs.nodeCount.toNat = 2 * n - 1 ∧ s.regs.treeRoot.toNat = 2 * n - 2 ∧
  (s.ram.nodeNo (2 * n - 2)).freq = s.regs.treeTotal ∧
  s.regs.treeTotal.toNat = ((List.range n).map fun i => (s.ram.nodeNo i).freq.toNat).sum ∧
  1 ≤ s.regs.treeTotal.toNat ∧
  (∀ i < n, (s.ram.codeLen.entry (s.ram.nodeNo i).symbol).toNat ≤ s.regs.treeMaxlen.toNat) ∧
  (∃ i < n, s.ram.codeLen.entry (s.ram.nodeNo i).symbol = s.regs.treeMaxlen)

/-- The tree, the code table and the tree registers agree (10_state.md R38, where n = TREE_NLEAF). -/
abbrev State.treeOk (s : State) : Prop :=
  1 ≤ s.regs.treeNleaf.toNat ∧ s.regs.treeNleaf.toNat ≤ 256 ∧
  s.treeRegsShape s.regs.treeNleaf.toNat ∧
  s.ram.treeShape s.regs.treeNleaf.toNat ∧
  s.ram.codesShape s.regs.treeNleaf.toNat (2 * s.regs.treeNleaf.toNat - 2)

/-- TREE_VALID = 1 implies the tree invariant (10_state.md R38). -/
def State.treeInv (s : State) : Prop := s.regs.treeValid = true → s.treeOk

/-! ### Buffers and bit streams -/

/-- The `n` bytes of DATA from offset `a`. -/
def Memory.bytes (m : Memory) (a n : Nat) : List Byte := (List.range n).map fun i => m.read (a + i)

/-- The concatenation of the codes of `input`, in order (43_bitstream_codec.md R108). -/
def Rams.stream (r : Rams) (input : List Byte) : List Bool := input.flatMap r.code

/-- The input buffer of FREQ_COUNT, ENCODE and DECODE. -/
def State.input (s : State) : List Byte := s.ram.data.bytes s.regs.src s.regs.len

/-! ### The frequency table as BUILD sees it (41_tree_builder.md R93) -/

/-- The alphabet: the symbols with a non-zero FREQ entry, ascending. -/
def Rams.alphabet (r : Rams) : List Byte := allSymbols.filter fun s => r.freq.entry s != 0

/-- The sum of the FREQ entries, unbounded. -/
def Rams.freqSum (r : Rams) : Nat := (allSymbols.map fun s => (r.freq.entry s).toNat).sum

/-- NODE[0..n-1] are the leaves of the alphabet of `before`, ascending, and NODE[m..510] are as `before`
(41_tree_builder.md R93, R96). -/
def Rams.leavesFrom (r before : Rams) (m : Nat) : Prop :=
  (∀ (k : Nat) (h : k < before.alphabet.length),
    r.nodeNo k = ⟨true, before.alphabet[k], before.freq.entry before.alphabet[k], 0x1FF, 0x1FF⟩) ∧
  (∀ k, m ≤ k → k < 511 → r.nodeNo k = before.nodeNo k)

/-- The queue entries LOAD makes: (FREQ, k, k) for the k-th symbol of the alphabet (41_tree_builder.md R93). -/
def Rams.leafEntries (r : Rams) : List HeapEntry :=
  r.alphabet.zipIdx.map fun p => ⟨r.freq.entry p.1, BitVec.ofNat 32 p.2, BitVec.ofNat 9 p.2⟩

/-! ### The write set of a stopped command (60_exceptions.md R127) -/

/-- The RAMs of `t` agree with those of `s` outside what command `c` may write (60_exceptions.md R127); `c` is none for
an illegal word. -/
def State.ramAgreesOutside (s t : State) (c : Option Instr) : Prop :=
  (c ≠ some .freqClear → c ≠ some .freqCount → t.ram.freq = s.ram.freq) ∧
  (c ≠ some .build →
    t.ram.node = s.ram.node ∧ t.ram.codeLen = s.ram.codeLen ∧ t.ram.codeBits = s.ram.codeBits) ∧
  (c ≠ some .build → c ≠ some .pqInsert → c ≠ some .pqExtract → t.ram.heap = s.ram.heap) ∧
  (s.bufferError ≠ none ∨ (c ≠ some .encode ∧ c ≠ some .decode) → t.ram.data = s.ram.data) ∧
  (∀ a, a < s.regs.dst ∨ s.regs.dst + s.regs.cap ≤ a → t.ram.data.read a = s.ram.data.read a)

/-! ### What a host transaction does to the environment -/

/-- The state once the host's transaction is taken off the program and recorded, its turn used up, and nothing else
changed. -/
def State.afterHost (s : State) (rest : List Input) (r : Record) : State :=
  { s.useTurn with env.program := rest, env.records := s.env.records ++ [r] }

/-- The host moves next and its next transaction is `x`. -/
def State.hostNext (s : State) (x : Input) (rest : List Input) : Prop :=
  s.mover = .host ∧ s.env.program = x :: rest

end Sys2Proof.Machine
end

