-- ==== Sys2Proof/Certificates/Slice0/Obligations.lean ====
section
/-! DEFINITION. The statements for the provers: the encoding, the step, the host bus, every command (result and frame),
ABORT and reset, and the invariants and whole-machine rules of the spec. -/

open Sys2Proof Sys2Proof.Machine

/-! ### Encoding (30_encoding.md) -/

/-- 30_encoding.md R69, R70: decoding the word of a command gives the command. -/
def Obligations.DecodeOfEncodeIsTheCommand : Prop :=
  ∀ i : Instr, decodeWord (encode i) = .ok i

/-- 30_encoding.md R69, R71: a word is a valid command only when it is exactly a word of the opcode map; every word with
RSVD != 0 and every word with OP in 0x9..0xF is illegal. -/
def Obligations.ValidWordsAreExactlyTheTable : Prop :=
  (∀ (w : Word) (i : Instr), decodeWord w = .ok i ↔
    (w = 0x0 ∧ i = .nop) ∨ (w = 0x1 ∧ i = .freqClear) ∨ (w = 0x2 ∧ i = .freqCount) ∨ (w = 0x3 ∧ i = .build) ∨
    (w = 0x4 ∧ i = .encode) ∨ (w = 0x5 ∧ i = .decode) ∨ (w = 0x6 ∧ i = .pqInit) ∨ (w = 0x7 ∧ i = .pqInsert) ∨
    (w = 0x8 ∧ i = .pqExtract)) ∧
  (∀ w : Word, w.extractLsb 31 4 ≠ 0 → decodeWord w = .error .reservedBits) ∧
  (∀ w : Word, w.extractLsb 31 4 = 0 → 9 ≤ (w.extractLsb 3 0).toNat → decodeWord w = .error .reservedOpcode)

/-- 30_encoding.md R69: the words of the opcode table, written out, stand for the commands of their rows. -/
def Obligations.OpcodeTableWordsDecode : Prop :=
  decodeTableWord 32 0x00000000 = some .nop ∧ decodeTableWord 32 0x00000001 = some .freqClear ∧
  decodeTableWord 32 0x00000002 = some .freqCount ∧ decodeTableWord 32 0x00000003 = some .build ∧
  decodeTableWord 32 0x00000004 = some .encode ∧ decodeTableWord 32 0x00000005 = some .decode ∧
  decodeTableWord 32 0x00000006 = some .pqInit ∧ decodeTableWord 32 0x00000007 = some .pqInsert ∧
  decodeTableWord 32 0x00000008 = some .pqExtract ∧ decodeTableWord 32 0x00000009 = none ∧
  decodeTableWord 32 0x80000003 = none

/-! ### The step (20_memory.md R61, 60_exceptions.md R116 to R120) -/

/-- 20_memory.md R61: when the engine moves, a step is the execution of the command in CMD, with the turn used up; and
the word that `withFetchWord` places is what the very next step executes, in the state its acceptance leaves. (The turns
of the schedule and `withFetchWord` are the model's, log entries 5 and 6.) -/
def Obligations.EngineStepExecutesTheCommandInCmd : Prop :=
  (∀ (s : State) (i : Instr), s.mover = .engine → decodeWord s.regs.cmd = .ok i → step s = exec i s.useTurn) ∧
  (∀ (s : State) (w : Nat) (i : Instr), decodeTableWord 32 w = some i →
    step (s.withFetchWord 32 w) = exec i (s.accept (BitVec.ofNat 32 w)))

/-- 60_exceptions.md R120: an illegal word completes with ILLEGAL_CMD and changes no other state. -/
def Obligations.IllegalWordCompletesWithIllegalCmd : Prop :=
  ∀ s : State, s.mover = .engine → 9 ≤ s.regs.cmd.toNat →
    step s = .next { s.useTurn with
      regs := { s.regs with errcode := 0x1, err := true, done := true, busy := false } }

/-- Nothing stops the block: every step answers a next state. That the block has no fault and no refusal is log entry 14
(DEDUCED: an error ends the command and the machine goes on, 60_exceptions.md R115; every command terminates,
70_reset_and_hazards.md R144, R145; no host access faults, 20_memory.md R53, R54). -/
def Obligations.EveryStepAnswersNext : Prop :=
  ∀ s : State, ∃ t, step s = .next t

/-- 60_exceptions.md R131: with BUSY = 0 and no host transaction, the block holds all its state. -/
def Obligations.IdleBlockHoldsItsState : Prop :=
  ∀ s : State, s.regs.busy = false → s.env.program = [] → step s = .next s

/-- 60_exceptions.md R116: a write of w to CMD while BUSY = 0 is an acceptance. Its completion is not observed yet
(20_memory.md R62; env.observed, log entry 16). -/
def Obligations.CmdWriteWhileIdleIsAcceptance : Prop :=
  ∀ (s : State) (addr : BusAddr) (w : Word) (rest : List Input),
    s.hostNext (.wr addr w) rest → addr.toNat / 4 = 3 → s.regs.busy = false →
    step s = .next { s.afterHost rest ⟨.write, addr, w⟩ with
      regs := { s.regs with
        cmd := w, busy := true, done := false, err := false, errcode := 0, res0 := 0, res1 := 0, res2 := 0
        treeValid := if w = 0x00000003 then false else s.regs.treeValid }
      env := { (s.afterHost rest ⟨.write, addr, w⟩).env with observed := false } }

/-! ### Host writes (10_state.md R18 to R31, 20_memory.md R52 to R55) -/

/-- 10_state.md R26: while BUSY = 1 a write to CMD, ARG0..ARG3, FREQ or any address of the DATA window changes nothing but
WR_BUSY. (That this holds for DATA words wholly at or above DATA_BYTES is log entry 11, DEDUCED: R26 against
20_memory.md R54.) -/
def Obligations.BusyProtectedWriteOnlySetsWrBusy : Prop :=
  ∀ (s : State) (addr : BusAddr) (v : Word) (rest : List Input),
    s.hostNext (.wr addr v) rest → s.regs.busy = true →
    ((0x0000C ≤ addr.toNat ∧ addr.toNat < 0x00010) ∨ (0x00018 ≤ addr.toNat ∧ addr.toNat < 0x00028) ∨
     (0x00400 ≤ addr.toNat ∧ addr.toNat < 0x00800) ∨
     0x10000 ≤ addr.toNat) →
    step s = .next { s.afterHost rest ⟨.write, addr, v⟩ with regs := { s.regs with wrBusy := true } }

/-- 10_state.md R26, R29, 20_memory.md R54: writes to read-only registers, reserved offsets, read-only windows and
unmapped addresses are ignored, whether or not BUSY is set. -/
def Obligations.ReadOnlyAndUnmappedWritesAreIgnored : Prop :=
  ∀ (s : State) (addr : BusAddr) (v : Word) (rest : List Input),
    s.hostNext (.wr addr v) rest →
    (addr.toNat < 0x00008 ∨ (0x00014 ≤ addr.toNat ∧ addr.toNat < 0x00018) ∨
     (0x00028 ≤ addr.toNat ∧ addr.toNat < 0x00400) ∨ (0x00800 ≤ addr.toNat ∧ addr.toNat < 0x10000)) →
    step s = .next (s.afterHost rest ⟨.write, addr, v⟩)

/-- 10_state.md R22: writing 1 to bits 1, 2 or 4 of STATUS clears DONE, ERR or WR_BUSY; all other bits are ignored;
the write is never busy-protected. -/
def Obligations.StatusWriteClearsOnlyW1CBits : Prop :=
  ∀ (s : State) (addr : BusAddr) (v : Word) (rest : List Input),
    s.hostNext (.wr addr v) rest → addr.toNat / 4 = 4 →
    step s = .next { s.afterHost rest ⟨.write, addr, v⟩ with
      regs := { s.regs with
        done := if v.getLsbD 1 then false else s.regs.done
        err := if v.getLsbD 2 then false else s.regs.err
        wrBusy := if v.getLsbD 4 then false else s.regs.wrBusy } }

/-- 10_state.md R20: a write to CTRL with SRST = 0 that requests no abort (bit 1 = 0, or BUSY = 0) only updates IRQ_EN
from bit 0, whether or not a command runs. -/
def Obligations.CtrlWriteUpdatesIrqEnOnly : Prop :=
  ∀ (s : State) (addr : BusAddr) (v : Word) (rest : List Input),
    s.hostNext (.wr addr v) rest → addr.toNat / 4 = 2 → v.getLsbD 2 = false →
    (v.getLsbD 1 = false ∨ s.regs.busy = false) →
    step s = .next { s.afterHost rest ⟨.write, addr, v⟩ with regs := { s.regs with irqEn := v.getLsbD 0 } }

/-- 10_state.md R24: while BUSY = 0 a write to ARG0..ARG3 stores the whole word there and changes nothing else. -/
def Obligations.ArgWritesStoreTheWord : Prop :=
  ∀ (s : State) (addr : BusAddr) (v : Word) (rest : List Input),
    s.hostNext (.wr addr v) rest → s.regs.busy = false →
    (addr.toNat / 4 = 6 →
      step s = .next { s.afterHost rest ⟨.write, addr, v⟩ with regs := { s.regs with arg0 := v } }) ∧
    (addr.toNat / 4 = 7 →
      step s = .next { s.afterHost rest ⟨.write, addr, v⟩ with regs := { s.regs with arg1 := v } }) ∧
    (addr.toNat / 4 = 8 →
      step s = .next { s.afterHost rest ⟨.write, addr, v⟩ with regs := { s.regs with arg2 := v } }) ∧
    (addr.toNat / 4 = 9 →
      step s = .next { s.afterHost rest ⟨.write, addr, v⟩ with regs := { s.regs with arg3 := v } })

/-- 10_state.md R31, 20_memory.md R53: while BUSY = 0 a write to any of the four byte addresses of the word at
0x00400 + 4*b stores the word in FREQ[b] and changes nothing else; a read of any of them returns FREQ[b] once no
completion is left to observe (20_memory.md R62, 70_reset_and_hazards.md R139). -/
def Obligations.FreqWindowReadsAndWritesEntries : Prop :=
  ∀ (s : State) (b : Byte) (addr : BusAddr) (v : Word) (rest : List Input), s.regs.busy = false →
    addr.toNat / 4 = 0x00100 + b.toNat →
    (s.env.observed = true → s.readData addr = s.ram.freq.entry b) ∧
    (s.hostNext (.wr addr v) rest →
      ∃ freq : SymTable Word,
        step s = .next { s.afterHost rest ⟨.write, addr, v⟩ with ram := { s.ram with freq := freq } } ∧
        ∀ c : Byte, freq.entry c = if c = b then v else s.ram.freq.entry c)

/-- 20_memory.md R53 to R55: the DATA window is little-endian: byte j of the word at 0x10000 + 4k, at any of its four byte
addresses, is DATA byte 4k + j (read once no completion is left to observe, 20_memory.md R62; written while BUSY = 0). A
byte at or above DATA_BYTES reads as 0 at any time (before the observation see log entry 3) and ignores the write; no
other byte changes. -/
def Obligations.DataWindowIsLittleEndian : Prop :=
  ∀ (s : State) (k : Nat) (addr : BusAddr) (v : Word) (rest : List Input), addr.toNat / 4 = 0x04000 + k →
    (∀ j < 4, s.dataBytes ≤ 4 * k + j → (s.readData addr).extractLsb' (8 * j) 8 = 0) ∧
    (s.regs.busy = false →
      (s.env.observed = true → ∀ j < 4, (s.readData addr).extractLsb' (8 * j) 8 =
        if 4 * k + j < s.dataBytes then s.ram.data.read (4 * k + j) else 0) ∧
      (s.hostNext (.wr addr v) rest →
        ∃ data : Memory,
          step s = .next { s.afterHost rest ⟨.write, addr, v⟩ with ram := { s.ram with data := data } } ∧
          (∀ j < 4, data.read (4 * k + j) =
            if 4 * k + j < s.dataBytes then v.extractLsb' (8 * j) 8 else s.ram.data.read (4 * k + j)) ∧
          (∀ a, a < 4 * k ∨ 4 * k + 4 ≤ a → data.read a = s.ram.data.read a)))

/-! ### Host reads (10_state.md R18 to R40, 20_memory.md R51 to R54) -/

/-- 20_memory.md R51: a read returns its word to the host and has no side effect on any register, RAM or parameter,
busy or not. A completion counts as observed (R62; env.observed, log entry 16) after a read of STATUS that returns
BUSY = 0 or DONE = 1, and no other read changes that. -/
def Obligations.ReadsHaveNoSideEffect : Prop :=
  ∀ (s : State) (addr : BusAddr) (rest : List Input), s.hostNext (.rd addr) rest →
    ∃ t, step s = .next t ∧ t.dataBytes = s.dataBytes ∧ t.regs = s.regs ∧ t.ram = s.ram ∧
      t.env.program = rest ∧ t.env.records = s.env.records ++ [⟨.read, addr, s.readData addr⟩] ∧
      (addr.toNat / 4 = 4 → s.regs.busy = false ∨ s.regs.done = true → t.env.observed = true) ∧
      (addr.toNat / 4 ≠ 4 ∨ (s.regs.busy = true ∧ s.regs.done = false) → t.env.observed = s.env.observed)

/-- 30_encoding.md R74: POLL is one read, and it is done exactly when (data & mask) = value. As a read it observes a
completion (20_memory.md R62, log entry 16). -/
def Obligations.PollRepeatsUntilItsConditionHolds : Prop :=
  ∀ (s : State) (addr : BusAddr) (mask v : Word) (rest : List Input), s.hostNext (.poll addr mask v) rest →
    ∃ t, step s = .next t ∧ t.dataBytes = s.dataBytes ∧ t.regs = s.regs ∧ t.ram = s.ram ∧
      t.env.records = s.env.records ++ [⟨.read, addr, s.readData addr⟩] ∧
      (s.readData addr &&& mask = v → t.env.program = rest) ∧
      (s.readData addr &&& mask ≠ v → t.env.program = s.env.program) ∧
      (addr.toNat / 4 = 4 → s.regs.busy = false ∨ s.regs.done = true → t.env.observed = true) ∧
      (addr.toNat / 4 ≠ 4 ∨ (s.regs.busy = true ∧ s.regs.done = false) → t.env.observed = s.env.observed)

/-- 10_state.md R18 to R28, R39, R40: ID, VERSION, CTRL, CMD, STATUS and ARG0..ARG3 read their values at any time;
STATUS.IRQ is IRQ_EN and DONE, and the reserved bits read 0. ERRCODE reads its value while BUSY = 1 and once no completion
is left to observe (70_reset_and_hazards.md R139); the result, tree and queue registers read their values, zeros above,
once BUSY = 0 and no completion is left to observe (20_memory.md R62). The unused upper bits read 0 at any time (log
entry 3). The four byte addresses of a word read the same, in every window (20_memory.md R53). -/
def Obligations.RegistersReadTheirValues : Prop :=
  ∀ s : State,
    s.readData 0x00000 = 0x48554646 ∧ s.readData 0x00004 = 0x00010000 ∧
    s.readData 0x00008 = (BitVec.ofBool s.regs.irqEn).setWidth 32 ∧
    s.readData 0x0000C = s.regs.cmd ∧
    (s.regs.busy = true ∨ s.env.observed = true → s.readData 0x00014 = s.regs.errcode.setWidth 32) ∧
    (∀ k, 4 ≤ k → (s.readData 0x00014).getLsbD k = false) ∧
    s.readData 0x00018 = s.regs.arg0 ∧ s.readData 0x0001C = s.regs.arg1 ∧
    s.readData 0x00020 = s.regs.arg2 ∧ s.readData 0x00024 = s.regs.arg3 ∧
    (s.readData 0x00010).getLsbD 0 = s.regs.busy ∧ (s.readData 0x00010).getLsbD 1 = s.regs.done ∧
    (s.readData 0x00010).getLsbD 2 = s.regs.err ∧ (s.readData 0x00010).getLsbD 3 = s.regs.treeValid ∧
    (s.readData 0x00010).getLsbD 4 = s.regs.wrBusy ∧
    (s.readData 0x00010).getLsbD 5 = (s.regs.irqEn && s.regs.done) ∧
    (∀ k, 6 ≤ k → (s.readData 0x00010).getLsbD k = false) ∧
    (∀ addr : BusAddr, s.readData addr = s.readData (addr &&& 0x1FFFC)) ∧
    (∀ k, 9 ≤ k → (s.readData 0x00034).getLsbD k = false ∧ (s.readData 0x00038).getLsbD k = false ∧
      (s.readData 0x00048).getLsbD k = false) ∧
    (∀ k, 8 ≤ k → (s.readData 0x00040).getLsbD k = false) ∧
    (∀ k, 10 ≤ k → (s.readData 0x00044).getLsbD k = false) ∧
    (s.regs.busy = false → s.env.observed = true →
      s.readData 0x00028 = s.regs.res0 ∧ s.readData 0x0002C = s.regs.res1 ∧ s.readData 0x00030 = s.regs.res2 ∧
      s.readData 0x00034 = s.regs.treeNleaf.setWidth 32 ∧ s.readData 0x00038 = s.regs.treeRoot.setWidth 32 ∧
      s.readData 0x0003C = s.regs.treeTotal ∧ s.readData 0x00040 = s.regs.treeMaxlen.setWidth 32 ∧
      s.readData 0x00044 = s.regs.nodeCount.setWidth 32 ∧ s.readData 0x00048 = s.regs.pqSize.setWidth 32 ∧
      s.readData 0x0004C = s.regs.pqSeq)

/-- 20_memory.md R54, 10_state.md R29: an unmapped address and a reserved register offset read 0, busy or not. -/
def Obligations.UnmappedReadsAreZero : Prop :=
  ∀ (s : State) (addr : BusAddr),
    ((0x00050 ≤ addr.toNat ∧ addr.toNat < 0x00400) ∨ (0x00800 ≤ addr.toNat ∧ addr.toNat < 0x01000) ∨
     (0x03400 ≤ addr.toNat ∧ addr.toNat < 0x04000) ∨ (0x06000 ≤ addr.toNat ∧ addr.toNat < 0x10000)) →
    s.readData addr = 0

/-- 10_state.md R32, 20_memory.md R53: the two words of NODE entry i, at any of their byte addresses, once BUSY = 0 and no
completion is left to observe (R62); the slot of index 511 reads 0 at any time (before the observation see log
entry 3). -/
def Obligations.NodeWindowLayout : Prop :=
  ∀ (s : State) (addr : BusAddr),
    (s.regs.busy = false → s.env.observed = true → ∀ i, i < 511 →
      (addr.toNat / 4 = 0x00400 + 2 * i → s.readData addr = (s.ram.nodeNo i).freq) ∧
      (addr.toNat / 4 = 0x00400 + 2 * i + 1 →
        (s.readData addr).getLsbD 31 = (s.ram.nodeNo i).isLeaf ∧
        (s.readData addr).extractLsb 30 26 = 0 ∧
        (s.readData addr).extractLsb 25 17 = (s.ram.nodeNo i).left ∧
        (s.readData addr).extractLsb 16 8 = (s.ram.nodeNo i).right ∧
        (s.readData addr).extractLsb 7 0 = (s.ram.nodeNo i).symbol)) ∧
    (0x01FF8 ≤ addr.toNat → addr.toNat < 0x02000 → s.readData addr = 0)

/-- 10_state.md R33, 20_memory.md R53: the words of HEAP slot p, at 0x02000 + 16*(p-1) + 4*k, at any of their byte
addresses, once BUSY = 0 and no completion is left to observe (R62); word 3 reads 0 at any time (before the observation
see log entry 3). -/
def Obligations.HeapWindowLayout : Prop :=
  ∀ (s : State) (p : Nat) (addr : BusAddr), 1 ≤ p → p ≤ 256 →
    (s.regs.busy = false → s.env.observed = true →
      (addr.toNat / 4 = 0x00800 + 4 * (p - 1) → s.readData addr = (s.ram.heap.slot p).key) ∧
      (addr.toNat / 4 = 0x00800 + 4 * (p - 1) + 1 → s.readData addr = (s.ram.heap.slot p).seq) ∧
      (addr.toNat / 4 = 0x00800 + 4 * (p - 1) + 2 → s.readData addr = (s.ram.heap.slot p).tag.setWidth 32)) ∧
    (addr.toNat / 4 = 0x00800 + 4 * (p - 1) + 3 → s.readData addr = 0)

/-- 10_state.md R34, R35, 20_memory.md R53: the CODE_LEN word of symbol b; word k of its code bits holds code bit 32k + m
in bit 31 - m, once BUSY = 0 and no completion is left to observe (R62); the bit beyond the 255 bits reads 0 at any time
(before the observation see log entry 3); at any of their byte addresses. -/
def Obligations.CodeWindowsLayout : Prop :=
  ∀ (s : State) (b : Byte) (addr : BusAddr),
    (s.regs.busy = false → s.env.observed = true →
      (addr.toNat / 4 = 0x00C00 + b.toNat → s.readData addr = (s.ram.codeLen.entry b).setWidth 32) ∧
      ∀ k m, k < 8 → m < 32 → addr.toNat / 4 = 0x01000 + 8 * b.toNat + k →
        (s.readData addr).getLsbD (31 - m) = (s.ram.codeBits.entry b).getLsbD (32 * k + m)) ∧
    (addr.toNat / 4 = 0x01000 + 8 * b.toNat + 7 → (s.readData addr).getLsbD 0 = false)

/-! ### NOP and the frequency table (41_tree_builder.md R89 to R91) -/

/-- 41_tree_builder.md R89: NOP only completes. -/
def Obligations.NopOnlyCompletes : Prop :=
  ∀ s : State, exec .nop s = .next { s with regs := { s.regs with busy := false, done := true } }

/-- 41_tree_builder.md R90: FREQ_CLEAR sets all 256 FREQ entries to 0, completes, and changes nothing else. -/
def Obligations.FreqClearZeroesEveryEntry : Prop :=
  ∀ s : State, ∃ freq : SymTable Word,
    exec .freqClear s = .next { s with
      regs := { s.regs with busy := false, done := true }, ram := { s.ram with freq := freq } } ∧
    ∀ b : Byte, freq.entry b = 0

/-- 41_tree_builder.md R91: when the buffer fits and no entry overflows, FREQ_COUNT adds to each entry the number of times
its symbol occurs in the buffer, RES0 = LEN, and nothing else changes. -/
def Obligations.FreqCountAddsOccurrences : Prop :=
  ∀ s : State, s.regs.src + s.regs.len ≤ s.dataBytes →
    (∀ b : Byte, (s.ram.freq.entry b).toNat + s.input.count b ≤ 0xFFFFFFFF) →
    ∃ freq : SymTable Word,
      exec .freqCount s = .next { s with
        regs := { s.regs with busy := false, done := true, res0 := s.regs.arg1 }
        ram := { s.ram with freq := freq } } ∧
      ∀ b : Byte, (freq.entry b).toNat = (s.ram.freq.entry b).toNat + s.input.count b

/-- 41_tree_builder.md R91: FREQ_COUNT's errors. RANGE before any change; FREQ_OVERFLOW at the first byte whose entry is
full, with the counts of the i bytes before it kept and RES0 = i. -/
def Obligations.FreqCountErrors : Prop :=
  ∀ s : State,
    (s.dataBytes < s.regs.src + s.regs.len →
      exec .freqCount s = .next { s with
        regs := { s.regs with errcode := 0x8, err := true, done := true, busy := false } }) ∧
    (∀ i, s.regs.src + s.regs.len ≤ s.dataBytes → i < s.regs.len →
      (∀ b : Byte, (s.ram.freq.entry b).toNat + (s.ram.data.bytes s.regs.src i).count b ≤ 0xFFFFFFFF) →
      (s.ram.freq.entry (s.ram.data.read (s.regs.src + i))).toNat +
        (s.ram.data.bytes s.regs.src i).count (s.ram.data.read (s.regs.src + i)) = 0xFFFFFFFF →
      ∃ freq : SymTable Word,
        exec .freqCount s = .next { s with
          regs := { s.regs with
            res0 := BitVec.ofNat 32 i, errcode := 0x6, err := true, done := true, busy := false }
          ram := { s.ram with freq := freq } } ∧
        ∀ b : Byte, (freq.entry b).toNat =
          (s.ram.freq.entry b).toNat + (s.ram.data.bytes s.regs.src i).count b)

/-! ### The priority queue (40_priority_queue.md) -/

/-- 40_priority_queue.md R85: PQ_INIT sets PQ_SIZE and PQ_SEQ to 0, completes, and changes nothing else, HEAP included. -/
def Obligations.PqInitEmptiesTheQueue : Prop :=
  ∀ s : State, exec .pqInit s = .next { s with
    regs := { s.regs with pqSize := 0, pqSeq := 0, busy := false, done := true } }

/-- 40_priority_queue.md R86: PQ_INSERT with room adds the entry (ARG0, PQ_SEQ, ARG1[8:0]) to the queue, counts PQ_SIZE
and PQ_SEQ up, and returns the SEQ in RES0. The entry stands where the sift-up of R82 puts it; no slot off the sift path
and nothing else changes. -/
def Obligations.PqInsertAddsTheEntry : Prop :=
  ∀ s : State, s.regs.pqSize.toNat < 256 → s.regs.pqSeq ≠ 0xFFFFFFFF →
    ∃ heap : Heap,
      exec .pqInsert s = .next { s with
        regs := { s.regs with
          pqSize := s.regs.pqSize + 1, pqSeq := s.regs.pqSeq + 1, res0 := s.regs.pqSeq
          busy := false, done := true }
        ram := { s.ram with heap := heap } } ∧
      (Queue.live ⟨heap, s.regs.pqSize.toNat + 1, 0⟩).Perm
        (⟨s.regs.arg0, s.regs.pqSeq, s.regs.arg1.extractLsb 8 0⟩ :: s.queue.live) ∧
      s.ram.heap.siftedUp heap (s.regs.pqSize.toNat + 1)
        ⟨s.regs.arg0, s.regs.pqSeq, s.regs.arg1.extractLsb 8 0⟩ ∧
      ∀ p, s.regs.pqSize.toNat + 1 < p → heap.slot p = s.ram.heap.slot p

/-- 40_priority_queue.md R86, R87: PQ_INSERT's errors, QUEUE_FULL first, and PQ_EXTRACT's EMPTY_QUEUE change nothing but
the completion registers. -/
def Obligations.QueueErrors : Prop :=
  ∀ s : State,
    (s.regs.pqSize = 256 → exec .pqInsert s = .next { s with
      regs := { s.regs with errcode := 0x4, err := true, done := true, busy := false } }) ∧
    (s.regs.pqSize ≠ 256 → s.regs.pqSeq = 0xFFFFFFFF → exec .pqInsert s = .next { s with
      regs := { s.regs with errcode := 0x5, err := true, done := true, busy := false } }) ∧
    (s.regs.pqSize = 0 → exec .pqExtract s = .next { s with
      regs := { s.regs with errcode := 0x3, err := true, done := true, busy := false } })

/-- 40_priority_queue.md R87, R83: PQ_EXTRACT on a non-empty queue returns HEAP[1] in RES0..RES2, takes that one entry out
of the queue and leaves it in the old last position. The entry of that position is sifted down from the root as R83 says;
no slot off the sift path and nothing else changes. -/
def Obligations.PqExtractRemovesTheRoot : Prop :=
  ∀ s : State, 1 ≤ s.regs.pqSize.toNat → s.regs.pqSize.toNat ≤ 256 →
    ∃ heap : Heap,
      exec .pqExtract s = .next { s with
        regs := { s.regs with
          pqSize := s.regs.pqSize - 1
          res0 := (s.ram.heap.slot 1).key
          res1 := (s.ram.heap.slot 1).tag.setWidth 32
          res2 := (s.ram.heap.slot 1).seq
          busy := false, done := true }
        ram := { s.ram with heap := heap } } ∧
      (s.ram.heap.slot 1 :: Queue.live ⟨heap, s.regs.pqSize.toNat - 1, 0⟩).Perm s.queue.live ∧
      s.ram.heap.siftedDown heap (s.regs.pqSize.toNat - 1) 1 (s.ram.heap.slot s.regs.pqSize.toNat) ∧
      heap.slot s.regs.pqSize.toNat = s.ram.heap.slot 1 ∧
      ∀ p, s.regs.pqSize.toNat < p → heap.slot p = s.ram.heap.slot p

/-- 40_priority_queue.md R84, R79: with the heap invariant, the entry extracted is the least of the queue: no entry has a
smaller KEY, and at an equal KEY none has a smaller SEQ (insertion order). -/
def Obligations.ExtractReturnsTheLeastEntry : Prop :=
  ∀ q : Queue, q.ok → 1 ≤ q.size →
    q.top ∈ q.live ∧
    ∀ e ∈ q.live, q.top.key.toNat < e.key.toNat ∨ (q.top.key = e.key ∧ q.top.seq.toNat ≤ e.seq.toNat)

/-- 40_priority_queue.md R80: pq_insert and pq_extract keep the heap invariant. -/
def Obligations.HeapPrimitivesKeepTheHeapInvariant : Prop :=
  ∀ q : Queue, q.ok →
    (∀ (key : Word) (tag : NodeIdx), q.size < 256 → q.seq < 0xFFFFFFFF → (q.insert key tag).ok) ∧
    (1 ≤ q.size → q.pop.ok)

/-! ### BUILD (41_tree_builder.md R92 to R99, 42_code_table.md) -/

/-- 41_tree_builder.md R94: EMPTY_INPUT leaves PQ_SIZE = PQ_SEQ = 0 and NODE unchanged; FREQ_OVERFLOW leaves the n leaves
in NODE and their n entries in the queue, and no HEAP slot above n changes; in both cases the code table, the tree
registers and TREE_VALID keep the values acceptance left. -/
def Obligations.BuildErrors : Prop :=
  ∀ s : State,
    (s.ram.alphabet = [] → exec .build s = .next { s with
      regs := { s.regs with
        pqSize := 0, pqSeq := 0, errcode := 0x2, err := true, done := true, busy := false } }) ∧
    (0xFFFFFFFF < s.ram.freqSum →
      ∃ (node : Nodes) (heap : Heap),
        exec .build s = .next { s with
          regs := { s.regs with
            pqSize := BitVec.ofNat 9 s.ram.alphabet.length, pqSeq := BitVec.ofNat 32 s.ram.alphabet.length
            errcode := 0x6, err := true, done := true, busy := false }
          ram := { s.ram with node := node, heap := heap } } ∧
        ({ s.ram with node := node }).leavesFrom s.ram s.ram.alphabet.length ∧
        (Queue.live ⟨heap, s.ram.alphabet.length, 0⟩).Perm s.ram.leafEntries ∧
        ∀ p, s.ram.alphabet.length < p → heap.slot p = s.ram.heap.slot p)

/-- 41_tree_builder.md R93, R96: BUILD of an alphabet of n >= 1 symbols whose frequencies sum to at most 0xFFFFFFFF
completes: the tree registers, TREE_VALID, an empty queue with PQ_SEQ = 2n-1, the leaves in NODE[0..n-1], NODE at and
above 2n-1 and HEAP above slot n untouched, and nothing else changed but NODE, HEAP and the code table. -/
def Obligations.BuildCompletes : Prop :=
  ∀ s : State, s.ram.alphabet ≠ [] → s.ram.freqSum ≤ 0xFFFFFFFF →
    ∃ (node : Nodes) (heap : Heap) (codeLen : SymTable (BitVec 8)) (codeBits : SymTable CodeBits) (maxlen : BitVec 8),
      exec .build s = .next { s with
        regs := { s.regs with
          treeNleaf := BitVec.ofNat 9 s.ram.alphabet.length
          treeRoot := BitVec.ofNat 9 (2 * s.ram.alphabet.length - 2)
          treeTotal := BitVec.ofNat 32 s.ram.freqSum
          nodeCount := BitVec.ofNat 10 (2 * s.ram.alphabet.length - 1)
          treeMaxlen := maxlen
          pqSize := 0, pqSeq := BitVec.ofNat 32 (2 * s.ram.alphabet.length - 1)
          treeValid := true, busy := false, done := true }
        ram := { s.ram with node := node, heap := heap, codeLen := codeLen, codeBits := codeBits } } ∧
      ({ s.ram with node := node }).leavesFrom s.ram (2 * s.ram.alphabet.length - 1) ∧
      ∀ p, s.ram.alphabet.length < p → heap.slot p = s.ram.heap.slot p

/-- 10_state.md R38: the state a successful BUILD leaves meets the tree invariant. -/
def Obligations.BuildEstablishesTheTreeInvariant : Prop :=
  ∀ s t : State, s.ram.alphabet ≠ [] → s.ram.freqSum ≤ 0xFFFFFFFF → exec .build s = .next t → t.treeOk

/-- 41_tree_builder.md R95: a merge takes the two least entries x, y of the queue, x first, makes the next node the
internal node of frequency x.KEY + y.KEY with x LEFT and y RIGHT, and inserts it with the next SEQ. -/
def Obligations.MergeJoinsTheTwoLeastEntries : Prop :=
  ∀ t : Forest, t.queue.ok → 2 ≤ t.queue.size →
    ∃ (x y : HeapEntry) (others : List HeapEntry),
      t.queue.live.Perm (x :: y :: others) ∧
      x.less y = true ∧ (∀ e ∈ others, y.less e = true) ∧
      t.mergeOnce.node = t.node.store (BitVec.ofNat 9 t.next) ⟨false, 0, x.key + y.key, x.tag, y.tag⟩ ∧
      t.mergeOnce.queue.live.Perm
        (⟨x.key + y.key, BitVec.ofNat 32 t.queue.seq, BitVec.ofNat 9 t.next⟩ :: others) ∧
      t.mergeOnce.next = t.next + 1 ∧ t.mergeOnce.total = t.total

/-- 42_code_table.md R102: after a successful BUILD of n symbols, exactly the symbols with FREQ != 0 have a code; the codes
are prefix-free; for n >= 2 the sum of 2^-CODE_LEN is 1 (here times 2^255); TREE_MAXLEN is the longest length, between 1
and n-1, and 1 for n = 1. -/
def Obligations.CodeTableProperties : Prop :=
  ∀ s t : State, s.ram.alphabet ≠ [] → s.ram.freqSum ≤ 0xFFFFFFFF → exec .build s = .next t →
    (∀ b : Byte, t.ram.codeLen.entry b ≠ 0 ↔ s.ram.freq.entry b ≠ 0) ∧
    (2 ≤ s.ram.alphabet.length → ∀ b : Byte, s.ram.freq.entry b ≠ 0 →
      ∃ k, ∃ h : k < s.ram.alphabet.length, s.ram.alphabet[k] = b ∧
        t.ram.node.follow t.regs.treeRoot (t.ram.code b) = some (BitVec.ofNat 9 k)) ∧
    (∀ b c : Byte, s.ram.freq.entry b ≠ 0 → s.ram.freq.entry c ≠ 0 → t.ram.code b <+: t.ram.code c → b = c) ∧
    (2 ≤ s.ram.alphabet.length →
      (s.ram.alphabet.map fun b => 2 ^ (255 - (t.ram.codeLen.entry b).toNat)).sum = 2 ^ 255) ∧
    (∀ b : Byte, (t.ram.codeLen.entry b).toNat ≤ t.regs.treeMaxlen.toNat) ∧
    (∃ b : Byte, t.ram.codeLen.entry b = t.regs.treeMaxlen) ∧
    (2 ≤ s.ram.alphabet.length →
      1 ≤ t.regs.treeMaxlen.toNat ∧ t.regs.treeMaxlen.toNat ≤ s.ram.alphabet.length - 1) ∧
    (s.ram.alphabet.length = 1 → t.regs.treeMaxlen = 1)

/-- 41_tree_builder.md R98: what BUILD writes is a function of the 256 FREQ values alone: PQ_SIZE, PQ_SEQ, the n HEAP
slots and the n leaves, also for a BUILD that ends in an error; the whole tree, the tree registers and the code table for
one that succeeds. -/
def Obligations.BuildIsAFunctionOfFreq : Prop :=
  ∀ s1 s2 t1 t2 : State, s1.ram.freq = s2.ram.freq → exec .build s1 = .next t1 → exec .build s2 = .next t2 →
    t1.regs.pqSize = t2.regs.pqSize ∧ t1.regs.pqSeq = t2.regs.pqSeq ∧
    (∀ p, 1 ≤ p → p ≤ s1.ram.alphabet.length → t1.ram.heap.slot p = t2.ram.heap.slot p) ∧
    (∀ k < s1.ram.alphabet.length, t1.ram.nodeNo k = t2.ram.nodeNo k) ∧
    (s1.ram.alphabet ≠ [] → s1.ram.freqSum ≤ 0xFFFFFFFF →
      (∀ k < t1.regs.nodeCount.toNat, t1.ram.nodeNo k = t2.ram.nodeNo k) ∧
      t1.regs.treeNleaf = t2.regs.treeNleaf ∧ t1.regs.treeRoot = t2.regs.treeRoot ∧
      t1.regs.treeTotal = t2.regs.treeTotal ∧ t1.regs.treeMaxlen = t2.regs.treeMaxlen ∧
      t1.regs.nodeCount = t2.regs.nodeCount ∧
      t1.ram.codeLen = t2.ram.codeLen ∧ t1.ram.codeBits = t2.ram.codeBits)

/-! ### ENCODE and DECODE (43_bitstream_codec.md) -/

/-- 43_bitstream_codec.md R105: the checks common to ENCODE and DECODE, in order NO_TREE, RANGE, OVERLAP; on each nothing
changes but the completion registers. -/
def Obligations.CodecBufferChecks : Prop :=
  ∀ (s : State) (i : Instr), i = .encode ∨ i = .decode →
    (s.regs.treeValid = false →
      exec i s = .next { s with regs := { s.regs with errcode := 0x7, err := true, done := true, busy := false } }) ∧
    (s.regs.treeValid = true →
      (s.dataBytes < s.regs.arg0.toNat + s.regs.arg1.toNat ∨ s.dataBytes < s.regs.arg2.toNat + s.regs.arg3.toNat) →
      exec i s = .next { s with regs := { s.regs with errcode := 0x8, err := true, done := true, busy := false } }) ∧
    (s.regs.treeValid = true →
      s.regs.arg0.toNat + s.regs.arg1.toNat ≤ s.dataBytes → s.regs.arg2.toNat + s.regs.arg3.toNat ≤ s.dataBytes →
      (∃ a, s.regs.arg0.toNat ≤ a ∧ a < s.regs.arg0.toNat + s.regs.arg1.toNat ∧
        s.regs.arg2.toNat ≤ a ∧ a < s.regs.arg2.toNat + s.regs.arg3.toNat) →
      exec i s = .next { s with regs := { s.regs with errcode := 0x9, err := true, done := true, busy := false } })

/-- 43_bitstream_codec.md R106 to R108: when the buffer checks pass, every input byte has a code and the packed stream
fits CAP, ENCODE completes; output stream bit t is bit t of the concatenated codes, 0 in the padding; RES0, RES1, RES2 are
the bytes written, the code bits and LEN; no other DATA byte and nothing else changes. -/
def Obligations.EncodePacksTheCodeStream : Prop :=
  ∀ s : State, s.bufferError = none → (∀ b ∈ s.input, s.ram.codeLen.entry b ≠ 0) →
    ((s.ram.stream s.input).length + 7) / 8 ≤ s.regs.cap →
    ∃ data : Memory,
      exec .encode s = .next { s with
        regs := { s.regs with
          res0 := BitVec.ofNat 32 (((s.ram.stream s.input).length + 7) / 8)
          res1 := BitVec.ofNat 32 (s.ram.stream s.input).length
          res2 := s.regs.arg1
          busy := false, done := true }
        ram := { s.ram with data := data } } ∧
      (∀ t < 8 * (((s.ram.stream s.input).length + 7) / 8),
        data.streamBit s.regs.dst t = (s.ram.stream s.input).getD t false) ∧
      (∀ a, a < s.regs.dst ∨ s.regs.dst + ((s.ram.stream s.input).length + 7) / 8 ≤ a →
        data.read a = s.ram.data.read a)

/-- 43_bitstream_codec.md R106: UNKNOWN_SYMBOL at the first input byte i without a code, when the whole bytes of the stream
so far fit CAP: they stay written, the partly filled byte is discarded, RES0, RES1, RES2 = whole bytes, bits, i. -/
def Obligations.EncodeStopsAtAnUnknownSymbol : Prop :=
  ∀ (s : State) (i : Nat), s.bufferError = none → i < s.regs.len →
    (∀ b ∈ s.ram.data.bytes s.regs.src i, s.ram.codeLen.entry b ≠ 0) →
    s.ram.codeLen.entry (s.ram.data.read (s.regs.src + i)) = 0 →
    (s.ram.stream (s.ram.data.bytes s.regs.src i)).length / 8 ≤ s.regs.cap →
    ∃ data : Memory,
      exec .encode s = .next { s with
        regs := { s.regs with
          res0 := BitVec.ofNat 32 ((s.ram.stream (s.ram.data.bytes s.regs.src i)).length / 8)
          res1 := BitVec.ofNat 32 (s.ram.stream (s.ram.data.bytes s.regs.src i)).length
          res2 := BitVec.ofNat 32 i
          errcode := 0xB, err := true, done := true, busy := false }
        ram := { s.ram with data := data } } ∧
      (∀ t < 8 * ((s.ram.stream (s.ram.data.bytes s.regs.src i)).length / 8),
        data.streamBit s.regs.dst t = (s.ram.stream (s.ram.data.bytes s.regs.src i)).getD t false) ∧
      (∀ a, a < s.regs.dst ∨ s.regs.dst + (s.ram.stream (s.ram.data.bytes s.regs.src i)).length / 8 ≤ a →
        data.read a = s.ram.data.read a)

/-- 43_bitstream_codec.md R106: OUT_OVERFLOW. A byte completed inside the code of input byte i at index CAP ends the command
with RES = (CAP, 8*(CAP+1), i); a padding byte at index CAP ends it with RES = (CAP, bits, LEN); the CAP bytes before it
stay written and no other byte changes. -/
def Obligations.EncodeOutOverflow : Prop :=
  ∀ s : State, s.bufferError = none →
    (∀ i, i < s.regs.len →
      (∀ b ∈ s.ram.data.bytes s.regs.src (i + 1), s.ram.codeLen.entry b ≠ 0) →
      (s.ram.stream (s.ram.data.bytes s.regs.src i)).length < 8 * (s.regs.cap + 1) →
      8 * (s.regs.cap + 1) ≤ (s.ram.stream (s.ram.data.bytes s.regs.src (i + 1))).length →
      ∃ data : Memory,
        exec .encode s = .next { s with
          regs := { s.regs with
            res0 := s.regs.arg3, res1 := BitVec.ofNat 32 (8 * (s.regs.cap + 1)), res2 := BitVec.ofNat 32 i
            errcode := 0xA, err := true, done := true, busy := false }
          ram := { s.ram with data := data } } ∧
        (∀ t < 8 * s.regs.cap, data.streamBit s.regs.dst t = (s.ram.stream s.input).getD t false) ∧
        (∀ a, a < s.regs.dst ∨ s.regs.dst + s.regs.cap ≤ a → data.read a = s.ram.data.read a)) ∧
    ((∀ b ∈ s.input, s.ram.codeLen.entry b ≠ 0) →
      8 * s.regs.cap < (s.ram.stream s.input).length → (s.ram.stream s.input).length < 8 * (s.regs.cap + 1) →
      ∃ data : Memory,
        exec .encode s = .next { s with
          regs := { s.regs with
            res0 := s.regs.arg3, res1 := BitVec.ofNat 32 (s.ram.stream s.input).length, res2 := s.regs.arg1
            errcode := 0xA, err := true, done := true, busy := false }
          ram := { s.ram with data := data } } ∧
        (∀ t < 8 * s.regs.cap, data.streamBit s.regs.dst t = (s.ram.stream s.input).getD t false) ∧
        (∀ a, a < s.regs.dst ∨ s.regs.dst + s.regs.cap ≤ a → data.read a = s.ram.data.read a))

/-- 43_bitstream_codec.md R109 to R111: with a valid tree, input bits that begin with the codes of TREE_TOTAL symbols make
DECODE write those symbols, RES0 = TREE_TOTAL, RES1 = the bits of their codes; bits after them are ignored, RES2 and
everything else is unchanged. -/
def Obligations.DecodeWritesTheSymbolsOfACodeStream : Prop :=
  ∀ (s : State) (symbols : List Byte), s.treeOk → s.bufferError = none →
    s.regs.treeTotal.toNat ≤ s.regs.cap → symbols.length = s.regs.treeTotal.toNat →
    (∀ b ∈ symbols, s.ram.codeLen.entry b ≠ 0) →
    (s.ram.stream symbols).length ≤ 8 * s.regs.len →
    (∀ t < (s.ram.stream symbols).length,
      s.ram.data.streamBit s.regs.src t = (s.ram.stream symbols).getD t false) →
    ∃ data : Memory,
      exec .decode s = .next { s with
        regs := { s.regs with
          res0 := s.regs.treeTotal, res1 := BitVec.ofNat 32 (s.ram.stream symbols).length
          busy := false, done := true }
        ram := { s.ram with data := data } } ∧
      data.bytes s.regs.dst s.regs.treeTotal.toNat = symbols ∧
      (∀ a, a < s.regs.dst ∨ s.regs.dst + s.regs.treeTotal.toNat ≤ a → data.read a = s.ram.data.read a)

/-- 43_bitstream_codec.md R109: DECODE raises OUT_OVERFLOW when TREE_TOTAL > CAP and then writes nothing. -/
def Obligations.DecodeOutOverflow : Prop :=
  ∀ s : State, s.bufferError = none → s.regs.cap < s.regs.treeTotal.toNat →
    exec .decode s = .next { s with regs := { s.regs with errcode := 0xA, err := true, done := true, busy := false } }

/-- 43_bitstream_codec.md R109, R110: with a valid tree, input bits that are the codes of fewer than TREE_TOTAL symbols and
then a proper initial part q of a code end in TRUNCATED; those symbols stay written, RES0 counts them and RES1 = 8*LEN.
With n >= 2 EVERY input is such a stream or begins with the codes of TREE_TOTAL symbols: past the checks DECODE completes
or ends in TRUNCATED, whatever the input bits are. -/
def Obligations.DecodeTruncated : Prop :=
  (∀ (s : State) (symbols : List Byte) (q : List Bool) (c : Byte), s.treeOk → s.bufferError = none →
    s.regs.treeTotal.toNat ≤ s.regs.cap → symbols.length < s.regs.treeTotal.toNat →
    (∀ b ∈ symbols, s.ram.codeLen.entry b ≠ 0) →
    s.ram.codeLen.entry c ≠ 0 → q <+: s.ram.code c → q ≠ s.ram.code c →
    (s.ram.stream symbols ++ q).length = 8 * s.regs.len →
    (∀ t < 8 * s.regs.len, s.ram.data.streamBit s.regs.src t = (s.ram.stream symbols ++ q).getD t false) →
    ∃ data : Memory,
      exec .decode s = .next { s with
        regs := { s.regs with
          res0 := BitVec.ofNat 32 symbols.length, res1 := BitVec.ofNat 32 (8 * s.regs.len)
          errcode := 0xC, err := true, done := true, busy := false }
        ram := { s.ram with data := data } } ∧
      data.bytes s.regs.dst symbols.length = symbols ∧
      (∀ a, a < s.regs.dst ∨ s.regs.dst + symbols.length ≤ a → data.read a = s.ram.data.read a)) ∧
  (∀ s : State, s.treeOk → 2 ≤ s.regs.treeNleaf.toNat → s.bufferError = none →
    s.regs.treeTotal.toNat ≤ s.regs.cap →
    ∃ (symbols : List Byte) (data : Memory),
      (∀ b ∈ symbols, s.ram.codeLen.entry b ≠ 0) ∧
      (∀ t < (s.ram.stream symbols).length,
        s.ram.data.streamBit s.regs.src t = (s.ram.stream symbols).getD t false) ∧
      data.bytes s.regs.dst symbols.length = symbols ∧
      (∀ a, a < s.regs.dst ∨ s.regs.dst + symbols.length ≤ a → data.read a = s.ram.data.read a) ∧
      ((symbols.length = s.regs.treeTotal.toNat ∧ (s.ram.stream symbols).length ≤ 8 * s.regs.len ∧
        exec .decode s = .next { s with
          regs := { s.regs with
            res0 := s.regs.treeTotal, res1 := BitVec.ofNat 32 (s.ram.stream symbols).length
            busy := false, done := true }
          ram := { s.ram with data := data } }) ∨
       (symbols.length < s.regs.treeTotal.toNat ∧
        (∃ (q : List Bool) (c : Byte), s.ram.codeLen.entry c ≠ 0 ∧ q <+: s.ram.code c ∧ q ≠ s.ram.code c ∧
          (s.ram.stream symbols ++ q).length = 8 * s.regs.len ∧
          ∀ t < 8 * s.regs.len, s.ram.data.streamBit s.regs.src t = (s.ram.stream symbols ++ q).getD t false) ∧
        exec .decode s = .next { s with
          regs := { s.regs with
            res0 := BitVec.ofNat 32 symbols.length, res1 := BitVec.ofNat 32 (8 * s.regs.len)
            errcode := 0xC, err := true, done := true, busy := false }
          ram := { s.ram with data := data } })))

/-- 43_bitstream_codec.md R112: when TREE_NLEAF = 1 every 0 bit writes the lone symbol, and a 1 bit raises INVALID_CODE with
RES0 = the symbols written and RES1 = the bits consumed; TRUNCATED when 0 bits run out first. -/
def Obligations.SingletonDecode : Prop :=
  ∀ s : State, s.bufferError = none → s.regs.treeNleaf = 1 → s.regs.treeTotal.toNat ≤ s.regs.cap →
    (s.regs.treeTotal.toNat ≤ 8 * s.regs.len →
      (∀ t < s.regs.treeTotal.toNat, s.ram.data.streamBit s.regs.src t = false) →
      ∃ data : Memory,
        exec .decode s = .next { s with
          regs := { s.regs with res0 := s.regs.treeTotal, res1 := s.regs.treeTotal, busy := false, done := true }
          ram := { s.ram with data := data } } ∧
        data.bytes s.regs.dst s.regs.treeTotal.toNat =
          List.replicate s.regs.treeTotal.toNat (s.ram.node.entry s.regs.treeRoot).symbol ∧
        (∀ a, a < s.regs.dst ∨ s.regs.dst + s.regs.treeTotal.toNat ≤ a → data.read a = s.ram.data.read a)) ∧
    (∀ k, k < s.regs.treeTotal.toNat → k < 8 * s.regs.len →
      (∀ t < k, s.ram.data.streamBit s.regs.src t = false) → s.ram.data.streamBit s.regs.src k = true →
      ∃ data : Memory,
        exec .decode s = .next { s with
          regs := { s.regs with
            res0 := BitVec.ofNat 32 k, res1 := BitVec.ofNat 32 (k + 1)
            errcode := 0xD, err := true, done := true, busy := false }
          ram := { s.ram with data := data } } ∧
        data.bytes s.regs.dst k = List.replicate k (s.ram.node.entry s.regs.treeRoot).symbol ∧
        (∀ a, a < s.regs.dst ∨ s.regs.dst + k ≤ a → data.read a = s.ram.data.read a)) ∧
    (8 * s.regs.len < s.regs.treeTotal.toNat →
      (∀ t < 8 * s.regs.len, s.ram.data.streamBit s.regs.src t = false) →
      ∃ data : Memory,
        exec .decode s = .next { s with
          regs := { s.regs with
            res0 := BitVec.ofNat 32 (8 * s.regs.len), res1 := BitVec.ofNat 32 (8 * s.regs.len)
            errcode := 0xC, err := true, done := true, busy := false }
          ram := { s.ram with data := data } } ∧
        data.bytes s.regs.dst (8 * s.regs.len) =
          List.replicate (8 * s.regs.len) (s.ram.node.entry s.regs.treeRoot).symbol ∧
        (∀ a, a < s.regs.dst ∨ s.regs.dst + 8 * s.regs.len ≤ a → data.read a = s.ram.data.read a))

/-- 43_bitstream_codec.md R113: after a BUILD on the occurrence counts of S (from s to b), ENCODE of S into a buffer of
sufficient capacity (from u to e) and then DECODE of its RES0 output bytes into a buffer of capacity at least the length
of S (from v to d) both succeed; the DECODE writes exactly S and consumes exactly the RES1 bits the ENCODE reported.
Between the commands the host may write any register it can, and before the ENCODE any DATA. -/
def Obligations.DecodeOfEncodeRestoresTheInput : Prop :=
  ∀ (s b u e v d : State) (S : List Byte),
    1 ≤ S.length → (∀ c : Byte, (s.ram.freq.entry c).toNat = S.count c) →
    exec .build s = .next b →
    u.ram.node = b.ram.node → u.ram.codeLen = b.ram.codeLen → u.ram.codeBits = b.ram.codeBits →
    u.regs.treeNleaf = b.regs.treeNleaf → u.regs.treeRoot = b.regs.treeRoot →
    u.regs.treeTotal = b.regs.treeTotal → u.regs.err = false →
    u.input = S → u.bufferError = none → ((u.ram.stream S).length + 7) / 8 ≤ u.regs.cap →
    exec .encode u = .next e →
    v.ram = e.ram →
    v.regs.treeNleaf = b.regs.treeNleaf → v.regs.treeRoot = b.regs.treeRoot →
    v.regs.treeTotal = b.regs.treeTotal → v.regs.err = false →
    v.regs.arg0 = u.regs.arg2 → v.regs.arg1 = e.regs.res0 → S.length ≤ v.regs.cap → v.bufferError = none →
    exec .decode v = .next d →
    e.regs.err = false ∧ d.regs.err = false ∧
    d.ram.data.bytes v.regs.dst S.length = S ∧
    d.regs.res0 = BitVec.ofNat 32 S.length ∧ d.regs.res1 = e.regs.res1

/-- 43_bitstream_codec.md R114: when FREQ holds the counts of the input, a successful ENCODE with the code table of the
state reports RES1 = the sum over all symbols of FREQ * CODE_LEN. -/
def Obligations.EncodedBitsAreFrequencyTimesLength : Prop :=
  ∀ s t : State, s.bufferError = none → (∀ b ∈ s.input, s.ram.codeLen.entry b ≠ 0) →
    ((s.ram.stream s.input).length + 7) / 8 ≤ s.regs.cap →
    (∀ c : Byte, (s.ram.freq.entry c).toNat = s.input.count c) →
    exec .encode s = .next t →
    t.regs.res1 = BitVec.ofNat 32
      (allSymbols.map fun c => (s.ram.freq.entry c).toNat * (s.ram.codeLen.entry c).toNat).sum

/-! ### ABORT and reset (60_exceptions.md R126, R127, 70_reset_and_hazards.md R133 to R135) -/

/-- 60_exceptions.md R126, R127: an ABORT written while BUSY = 1 has one of two outcomes: the command completes exactly as
its rule says, or it ends with ABORTED, RES0..RES2 and its write set unspecified, PQ_SIZE and PQ_SEQ 0 for the commands
that use the queue, and everything else unchanged. IRQ_EN takes bit 0 in both. (That the completion of the first outcome
comes in the step of the write is the model's, log entry 4.) -/
def Obligations.AbortHasTwoOutcomes : Prop :=
  ∀ (s : State) (addr : BusAddr) (v : Word) (rest : List Input),
    s.hostNext (.wr addr v) rest → addr.toNat / 4 = 2 → v.getLsbD 2 = false → v.getLsbD 1 = true →
    s.regs.busy = true →
    (∃ u : State, u.dataBytes = s.dataBytes ∧ u.ram = s.ram ∧ u.regs = { s.regs with irqEn := v.getLsbD 0 } ∧
      u.env.program = rest ∧ u.env.records = s.env.records ++ [⟨.write, addr, v⟩] ∧
      ((∃ i, decodeWord s.regs.cmd = .ok i ∧ step s = exec i u) ∨
       (9 ≤ s.regs.cmd.toNat ∧ step s = .next { u with
          regs := { u.regs with errcode := 0x1, err := true, done := true, busy := false } }))) ∨
    (∃ t : State, step s = .next t ∧ t.dataBytes = s.dataBytes ∧
      t.env.program = rest ∧ t.env.records = s.env.records ++ [⟨.write, addr, v⟩] ∧
      s.ramAgreesOutside t (command? s.regs.cmd) ∧
      (command? s.regs.cmd ≠ some .build →
        t.regs.treeNleaf = s.regs.treeNleaf ∧ t.regs.treeRoot = s.regs.treeRoot ∧
        t.regs.treeTotal = s.regs.treeTotal ∧ t.regs.treeMaxlen = s.regs.treeMaxlen ∧
        t.regs.nodeCount = s.regs.nodeCount) ∧
      (command? s.regs.cmd ∈ [some .build, some .pqInit, some .pqInsert, some .pqExtract] →
        t.regs.pqSize = 0 ∧ t.regs.pqSeq = 0) ∧
      (command? s.regs.cmd ∉ [some .build, some .pqInit, some .pqInsert, some .pqExtract] →
        t.regs.pqSize = s.regs.pqSize ∧ t.regs.pqSeq = s.regs.pqSeq) ∧
      t.regs.busy = false ∧ t.regs.done = true ∧ t.regs.err = true ∧ t.regs.errcode = 0xE ∧
      t.regs.irqEn = v.getLsbD 0 ∧ t.regs.treeValid = s.regs.treeValid ∧ t.regs.wrBusy = s.regs.wrBusy ∧
      t.regs.cmd = s.regs.cmd ∧ t.regs.arg0 = s.regs.arg0 ∧ t.regs.arg1 = s.regs.arg1 ∧
      t.regs.arg2 = s.regs.arg2 ∧ t.regs.arg3 = s.regs.arg3)

/-- 70_reset_and_hazards.md R134: a write to CTRL with bit 2 = 1 resets every register at once, whatever bits 0 and 1 hold;
it changes no RAM while BUSY = 0, and while BUSY = 1 no RAM outside the stopped command's write set. -/
def Obligations.SoftResetResetsEveryRegister : Prop :=
  ∀ (s : State) (addr : BusAddr) (v : Word) (rest : List Input),
    s.hostNext (.wr addr v) rest → addr.toNat / 4 = 2 → v.getLsbD 2 = true →
    ∃ t : State, step s = .next t ∧ t.regs = Regs.reset ∧ t.dataBytes = s.dataBytes ∧
      t.env.program = rest ∧ t.env.records = s.env.records ++ [⟨.write, addr, v⟩] ∧
      (s.regs.busy = false → t.ram = s.ram) ∧
      (s.regs.busy = true → s.ramAgreesOutside t (command? s.regs.cmd))

/-- 70_reset_and_hazards.md R133, R135: after power-on, for ANY contents of the RAMs, and after the reset input, every
register holds the value of R135's table. -/
def Obligations.PowerOnResetValues : Prop :=
  (∀ (n : Nat) (ram : Rams), (State.powerOn n ram).ram = ram ∧ (State.powerOn n ram).dataBytes = n) ∧
  (∀ t : State,
    ((∃ n ram, t = State.powerOn n ram) ∨ (∃ s rest, s.hostNext .powerOn rest ∧ step s = .next t)) →
    t.regs.irqEn = false ∧ t.regs.cmd = 0 ∧ t.regs.busy = false ∧ t.regs.done = false ∧ t.regs.err = false ∧
    t.regs.treeValid = false ∧ t.regs.wrBusy = false ∧ t.regs.errcode = 0 ∧
    t.regs.arg0 = 0 ∧ t.regs.arg1 = 0 ∧ t.regs.arg2 = 0 ∧ t.regs.arg3 = 0 ∧
    t.regs.res0 = 0 ∧ t.regs.res1 = 0 ∧ t.regs.res2 = 0 ∧
    t.regs.treeNleaf = 0 ∧ t.regs.treeRoot = 0 ∧ t.regs.treeTotal = 0 ∧ t.regs.treeMaxlen = 0 ∧
    t.regs.nodeCount = 0 ∧ t.regs.pqSize = 0 ∧ t.regs.pqSeq = 0)

/-! ### Whole-machine rules and invariants -/

/-- 10_state.md R24, 60_exceptions.md R123: no command changes CMD, ARG0..ARG3, IRQ_EN, WR_BUSY, DATA_BYTES or anything
outside the block, and every command ends with BUSY = 0 and DONE = 1. -/
def Obligations.CommandsKeepOperandsAndControl : Prop :=
  ∀ (i : Instr) (s t : State), exec i s = .next t →
    t.regs.cmd = s.regs.cmd ∧ t.regs.arg0 = s.regs.arg0 ∧ t.regs.arg1 = s.regs.arg1 ∧
    t.regs.arg2 = s.regs.arg2 ∧ t.regs.arg3 = s.regs.arg3 ∧ t.regs.irqEn = s.regs.irqEn ∧
    t.regs.wrBusy = s.regs.wrBusy ∧ t.dataBytes = s.dataBytes ∧ t.env = s.env ∧
    t.regs.busy = false ∧ t.regs.done = true

/-- 41_tree_builder.md R99: only BUILD (its acceptance, its run, an ABORT of it) and a reset change NODE, the code table,
the tree registers or TREE_VALID; the acceptance of BUILD only clears TREE_VALID. -/
def Obligations.TreeIsASnapshot : Prop :=
  ∀ s t : State, step s = .next t →
    (s.mover = .engine → s.regs.cmd ≠ 0x00000003) →
    (∀ rest, ¬ s.hostNext .powerOn rest) →
    (∀ addr v rest, s.hostNext (.wr addr v) rest → addr.toNat / 4 = 2 →
      v.getLsbD 2 = false ∧ (v.getLsbD 1 = false ∨ s.regs.busy = false ∨ s.regs.cmd ≠ 0x00000003)) →
    t.ram.node = s.ram.node ∧ t.ram.codeLen = s.ram.codeLen ∧ t.ram.codeBits = s.ram.codeBits ∧
    t.regs.treeNleaf = s.regs.treeNleaf ∧ t.regs.treeRoot = s.regs.treeRoot ∧
    t.regs.treeTotal = s.regs.treeTotal ∧ t.regs.treeMaxlen = s.regs.treeMaxlen ∧
    t.regs.nodeCount = s.regs.nodeCount ∧
    (t.regs.treeValid = s.regs.treeValid ∨
      (∃ addr rest, s.hostNext (.wr addr 0x00000003) rest ∧ addr.toNat / 4 = 3 ∧ s.regs.busy = false ∧
        t.regs.treeValid = false))

/-- 10_state.md R23, 60_exceptions.md R119: ERRCODE is never 0xF. -/
def Obligations.ErrcodeIsNeverF : Prop :=
  ∀ s t : State, s.regs.errcode ≠ 0xF → step s = .next t → t.regs.errcode ≠ 0xF

/-- 10_state.md R22: every step keeps BUSY = 1 implies DONE = 0 and ERR = 0, and what acceptance cleared. -/
def Obligations.StepKeepsTheLifecycleInvariant : Prop :=
  ∀ s t : State, s.lifecycleOk → step s = .next t → t.lifecycleOk

/-- Every step keeps DATA in its canonical form and below DATA_BYTES (20_memory.md R60: an engine offset never leaves the
DATA RAM; R54: a host write above it is ignored). The canonical form is the model's own (log entry 9). -/
def Obligations.StepKeepsDataInsideItsRam : Prop :=
  ∀ s t : State, s.memoryOk → step s = .next t → t.memoryOk

/-- 40_priority_queue.md R80: every step keeps the heap invariant. -/
def Obligations.StepKeepsTheHeapInvariant : Prop :=
  ∀ s t : State, s.queue.ok → step s = .next t → t.queue.ok

/-- 10_state.md R38: every step keeps the tree invariant: whenever TREE_VALID = 1 the tree, the code table and the tree
registers agree. -/
def Obligations.StepKeepsTheTreeInvariant : Prop :=
  ∀ s t : State, s.lifecycleOk → s.treeInv → step s = .next t → t.treeInv

/-- The invariants hold after power-on: the lifecycle, heap and tree invariants for any contents of the RAMs, and the form
of DATA for the blank RAMs of State.reset (the model's choice, log entry 1). -/
def Obligations.ResetMeetsTheInvariants : Prop :=
  (∀ n ram, (State.powerOn n ram).lifecycleOk ∧ (State.powerOn n ram).queue.ok ∧ (State.powerOn n ram).treeInv) ∧
  State.reset.memoryOk

/-- 70_reset_and_hazards.md R144: WAIT (POLL STATUS until DONE = 1) after an acceptance, of a command or of an illegal
word, ends under every schedule: with k host turns before the first engine turn or the end of the schedule, k + 2 steps
run the command to its completion and end the WAIT, with the registers and RAMs the engine's event leaves and the
completion observed, so that every later read is exact (20_memory.md R62). (The schedule as a list of turns is the
model's, log entry 5.) -/
def Obligations.WaitEndsUnderEverySchedule : Prop :=
  ∀ (s u : State) (k : Nat) (later : List Agent) (rest : List Input), s.lifecycleOk → s.regs.busy = true →
    s.engineStep = .next u → s.env.program = HostProgram.wait ++ rest →
    s.env.turns = List.replicate k .host ++ later → later.head? ≠ some .host →
    ∃ t, Sys2Proof.core.run (k + 2) s = .next t ∧ t.regs = u.regs ∧ t.ram = u.ram ∧ t.env.program = rest ∧
      t.env.observed = true
end

