-- ==== Sys2Proof/Laws/State.lean ====
section
/-! SUPPORT. What each named update of the state leaves in each field of the state, true by rfl, so that no proof unfolds
a record update. -/

namespace Sys2Proof.Machine

/-! ### accept -/

@[simp] theorem accept_dataBytes (s : State) (w : Word) : (s.accept w).dataBytes = s.dataBytes := rfl
@[simp] theorem accept_regs (s : State) (w : Word) :
    (s.accept w).regs = { s.regs with
        cmd := w, busy := true, done := false, err := false, errcode := 0, res0 := 0, res1 := 0, res2 := 0
        treeValid := s.regs.treeValid && w != 0x00000003 } := rfl
@[simp] theorem accept_ram (s : State) (w : Word) : (s.accept w).ram = s.ram := rfl
@[simp] theorem accept_env (s : State) (w : Word) : (s.accept w).env = { s.env with observed := false } := rfl

/-! ### finish -/

@[simp] theorem finish_dataBytes (s : State) : s.finish.dataBytes = s.dataBytes := rfl
@[simp] theorem finish_regs (s : State) :
    s.finish.regs = { s.regs with busy := false, done := true } := rfl
@[simp] theorem finish_ram (s : State) : s.finish.ram = s.ram := rfl
@[simp] theorem finish_env (s : State) : s.finish.env = s.env := rfl

/-! ### raise -/

@[simp] theorem raise_dataBytes (s : State) (e : ErrorKind) : (s.raise e).dataBytes = s.dataBytes := rfl
@[simp] theorem raise_regs (s : State) (e : ErrorKind) :
    (s.raise e).regs = { s.regs with errcode := e.code, err := true, done := true, busy := false } := rfl
@[simp] theorem raise_ram (s : State) (e : ErrorKind) : (s.raise e).ram = s.ram := rfl
@[simp] theorem raise_env (s : State) (e : ErrorKind) : (s.raise e).env = s.env := rfl

/-! ### withRes0 -/

@[simp] theorem withRes0_dataBytes (s : State) (a : Nat) : (s.withRes0 a).dataBytes = s.dataBytes := rfl
@[simp] theorem withRes0_regs (s : State) (a : Nat) :
    (s.withRes0 a).regs = { s.regs with res0 := BitVec.ofNat 32 a } := rfl
@[simp] theorem withRes0_ram (s : State) (a : Nat) : (s.withRes0 a).ram = s.ram := rfl
@[simp] theorem withRes0_env (s : State) (a : Nat) : (s.withRes0 a).env = s.env := rfl

/-! ### withRes01 -/

@[simp] theorem withRes01_dataBytes (s : State) (a b : Nat) : (s.withRes01 a b).dataBytes = s.dataBytes := rfl
@[simp] theorem withRes01_regs (s : State) (a b : Nat) :
    (s.withRes01 a b).regs = { s.regs with res0 := BitVec.ofNat 32 a, res1 := BitVec.ofNat 32 b } := rfl
@[simp] theorem withRes01_ram (s : State) (a b : Nat) : (s.withRes01 a b).ram = s.ram := rfl
@[simp] theorem withRes01_env (s : State) (a b : Nat) : (s.withRes01 a b).env = s.env := rfl

/-! ### withRes -/

@[simp] theorem withRes_dataBytes (s : State) (a b c : Nat) : (s.withRes a b c).dataBytes = s.dataBytes := rfl
@[simp] theorem withRes_regs (s : State) (a b c : Nat) :
    (s.withRes a b c).regs = { s.regs with
        res0 := BitVec.ofNat 32 a, res1 := BitVec.ofNat 32 b, res2 := BitVec.ofNat 32 c } := rfl
@[simp] theorem withRes_ram (s : State) (a b c : Nat) : (s.withRes a b c).ram = s.ram := rfl
@[simp] theorem withRes_env (s : State) (a b c : Nat) : (s.withRes a b c).env = s.env := rfl

/-! ### withQueue -/

@[simp] theorem withQueue_dataBytes (s : State) (q : Queue) : (s.withQueue q).dataBytes = s.dataBytes := rfl
@[simp] theorem withQueue_regs (s : State) (q : Queue) :
    (s.withQueue q).regs = { s.regs with pqSize := BitVec.ofNat 9 q.size, pqSeq := BitVec.ofNat 32 q.seq } := rfl
@[simp] theorem withQueue_ram (s : State) (q : Queue) : (s.withQueue q).ram = { s.ram with heap := q.heap } := rfl
@[simp] theorem withQueue_env (s : State) (q : Queue) : (s.withQueue q).env = s.env := rfl

/-! ### withForest -/

@[simp] theorem withForest_dataBytes (s : State) (t : Forest) : (s.withForest t).dataBytes = s.dataBytes := rfl
@[simp] theorem withForest_regs (s : State) (t : Forest) :
    (s.withForest t).regs = { s.regs with
        pqSize := BitVec.ofNat 9 t.queue.size, pqSeq := BitVec.ofNat 32 t.queue.seq } := rfl
@[simp] theorem withForest_ram (s : State) (t : Forest) : (s.withForest t).ram = { s.ram with heap := t.queue.heap, node := t.node } := rfl
@[simp] theorem withForest_env (s : State) (t : Forest) : (s.withForest t).env = s.env := rfl

/-! ### withCodes -/

@[simp] theorem withCodes_dataBytes (s : State) (c : CodeTable) : (s.withCodes c).dataBytes = s.dataBytes := rfl
@[simp] theorem withCodes_regs (s : State) (c : CodeTable) :
    (s.withCodes c).regs = s.regs := rfl
@[simp] theorem withCodes_ram (s : State) (c : CodeTable) : (s.withCodes c).ram = { s.ram with codeLen := c.len, codeBits := c.bits } := rfl
@[simp] theorem withCodes_env (s : State) (c : CodeTable) : (s.withCodes c).env = s.env := rfl

/-! ### withTree -/

@[simp] theorem withTree_dataBytes (s : State) (n k t m : Nat) (r : NodeIdx) : (s.withTree n k t m r).dataBytes = s.dataBytes := rfl
@[simp] theorem withTree_regs (s : State) (n k t m : Nat) (r : NodeIdx) :
    (s.withTree n k t m r).regs = { s.regs with
        treeNleaf := BitVec.ofNat 9 n, treeRoot := r, treeTotal := BitVec.ofNat 32 t
        nodeCount := BitVec.ofNat 10 k, treeMaxlen := BitVec.ofNat 8 m, treeValid := true } := rfl
@[simp] theorem withTree_ram (s : State) (n k t m : Nat) (r : NodeIdx) : (s.withTree n k t m r).ram = s.ram := rfl
@[simp] theorem withTree_env (s : State) (n k t m : Nat) (r : NodeIdx) : (s.withTree n k t m r).env = s.env := rfl

/-! ### dropWrite -/

@[simp] theorem dropWrite_dataBytes (s : State) : s.dropWrite.dataBytes = s.dataBytes := rfl
@[simp] theorem dropWrite_regs (s : State) :
    s.dropWrite.regs = { s.regs with wrBusy := true } := rfl
@[simp] theorem dropWrite_ram (s : State) : s.dropWrite.ram = s.ram := rfl
@[simp] theorem dropWrite_env (s : State) : s.dropWrite.env = s.env := rfl

/-! ### clearQueueRegs -/

@[simp] theorem clearQueueRegs_dataBytes (s : State) : s.clearQueueRegs.dataBytes = s.dataBytes := rfl
@[simp] theorem clearQueueRegs_regs (s : State) :
    s.clearQueueRegs.regs = { s.regs with pqSize := 0, pqSeq := 0 } := rfl
@[simp] theorem clearQueueRegs_ram (s : State) : s.clearQueueRegs.ram = s.ram := rfl
@[simp] theorem clearQueueRegs_env (s : State) : s.clearQueueRegs.env = s.env := rfl

/-! ### drawn -/

@[simp] theorem drawn_dataBytes (s : State) : s.drawn.dataBytes = s.dataBytes := rfl
@[simp] theorem drawn_regs (s : State) :
    s.drawn.regs = s.regs := rfl
@[simp] theorem drawn_ram (s : State) : s.drawn.ram = s.ram := rfl
@[simp] theorem drawn_env (s : State) : s.drawn.env = { s.env with draws := s.env.draws + 1 } := rfl

/-! ### record -/

@[simp] theorem record_dataBytes (s : State) (r : Record) : (s.record r).dataBytes = s.dataBytes := rfl
@[simp] theorem record_regs (s : State) (r : Record) :
    (s.record r).regs = s.regs := rfl
@[simp] theorem record_ram (s : State) (r : Record) : (s.record r).ram = s.ram := rfl
@[simp] theorem record_env (s : State) (r : Record) : (s.record r).env = { s.env with records := s.env.records ++ [r] } := rfl

/-! ### observe -/

@[simp] theorem observe_dataBytes (s : State) (b : Bool) : (s.observe b).dataBytes = s.dataBytes := rfl
@[simp] theorem observe_regs (s : State) (b : Bool) : (s.observe b).regs = s.regs := rfl
@[simp] theorem observe_ram (s : State) (b : Bool) : (s.observe b).ram = s.ram := rfl
@[simp] theorem observe_env (s : State) (b : Bool) :
    (s.observe b).env = { s.env with observed := s.env.observed || b } := rfl

/-! ### withProgram -/

@[simp] theorem withProgram_dataBytes (s : State) (p : List Input) : (s.withProgram p).dataBytes = s.dataBytes := rfl
@[simp] theorem withProgram_regs (s : State) (p : List Input) :
    (s.withProgram p).regs = s.regs := rfl
@[simp] theorem withProgram_ram (s : State) (p : List Input) : (s.withProgram p).ram = s.ram := rfl
@[simp] theorem withProgram_env (s : State) (p : List Input) : (s.withProgram p).env = { s.env with program := p } := rfl

/-! ### useTurn and afterHost -/

@[simp] theorem useTurn_dataBytes (s : State) : s.useTurn.dataBytes = s.dataBytes := by
  unfold State.useTurn; split <;> rfl
@[simp] theorem useTurn_regs (s : State) : s.useTurn.regs = s.regs := by
  unfold State.useTurn; split <;> rfl
@[simp] theorem useTurn_ram (s : State) : s.useTurn.ram = s.ram := by
  unfold State.useTurn; split <;> rfl
@[simp] theorem useTurn_program (s : State) : s.useTurn.env.program = s.env.program := by
  unfold State.useTurn; split <;> rfl
@[simp] theorem useTurn_records (s : State) : s.useTurn.env.records = s.env.records := by
  unfold State.useTurn; split <;> rfl
@[simp] theorem useTurn_draws (s : State) : s.useTurn.env.draws = s.env.draws := by
  unfold State.useTurn; split <;> rfl
@[simp] theorem useTurn_observed (s : State) : s.useTurn.env.observed = s.env.observed := by
  unfold State.useTurn; split <;> rfl

/-- Taking a transaction off the program and recording it is what `afterHost` says. -/
theorem record_withProgram (s : State) (rest : List Input) (r : Record) :
    (s.useTurn.withProgram rest).record r = s.afterHost rest r := by
  simp [State.afterHost, State.record, State.withProgram]

@[simp] theorem afterHost_dataBytes (s : State) (p : List Input) (r : Record) :
    (s.afterHost p r).dataBytes = s.dataBytes := by simp [State.afterHost]
@[simp] theorem afterHost_regs (s : State) (p : List Input) (r : Record) :
    (s.afterHost p r).regs = s.regs := by simp [State.afterHost]
@[simp] theorem afterHost_ram (s : State) (p : List Input) (r : Record) :
    (s.afterHost p r).ram = s.ram := by simp [State.afterHost]
@[simp] theorem afterHost_program (s : State) (p : List Input) (r : Record) :
    (s.afterHost p r).env.program = p := rfl
@[simp] theorem afterHost_records (s : State) (p : List Input) (r : Record) :
    (s.afterHost p r).env.records = s.env.records ++ [r] := rfl
@[simp] theorem afterHost_draws (s : State) (p : List Input) (r : Record) :
    (s.afterHost p r).env.draws = s.env.draws := by simp [State.afterHost]
@[simp] theorem afterHost_observed (s : State) (p : List Input) (r : Record) :
    (s.afterHost p r).env.observed = s.env.observed := by simp [State.afterHost]

/-! ### The queue view -/

@[simp] theorem queue_heap (s : State) : s.queue.heap = s.ram.heap := rfl
@[simp] theorem queue_size (s : State) : s.queue.size = s.regs.pqSize.toNat := rfl
@[simp] theorem queue_seq (s : State) : s.queue.seq = s.regs.pqSeq.toNat := rfl

end Sys2Proof.Machine
end

