-- ==== Sys2Proof/Laws/Memory.lean ====
section
/-! SUPPORT. The DATA RAM: a read after a write, for every list; and the canonical form, which every operation keeps. -/

namespace Sys2Proof.Machine

/-! ### Reading after writing -/

theorem read_nil (a : Nat) : Memory.read [] a = 0 := rfl

theorem read_cons (c : Host.Cell) (m : Memory) (a : Nat) :
    Memory.read (c :: m) a = if c.1 = a then c.2 else Memory.read m a := by
  obtain ⟨k, x⟩ := c
  by_cases h : k = a
  · subst h; simp [Memory.read, List.lookup]
  · have : (a == k) = false := by simpa using fun e => h e.symm
    simp [Memory.read, List.lookup, this, h]

theorem read_filter_ne (m : Memory) (a b : Nat) :
    Memory.read (m.filter (fun c => c.1 != a)) b = if b = a then 0 else m.read b := by
  induction m with
  | nil => simp [read_nil]
  | cons c m ih =>
    by_cases h : c.1 = a
    · rw [List.filter_cons_of_neg (by simp [h]), ih, read_cons]
      split
      · rfl
      · rw [if_neg]; omega
    · rw [List.filter_cons_of_pos (by simp [h]), read_cons, read_cons, ih]
      split
      · rw [if_neg]; omega
      · rfl

theorem read_insertCell (c : Host.Cell) (m : Memory) (b : Nat) (h : ∀ d ∈ m, d.1 ≠ c.1) :
    Memory.read (Memory.insertCell c m) b = if b = c.1 then c.2 else m.read b := by
  induction m with
  | nil => simp [Memory.insertCell, read_cons, read_nil, eq_comm]
  | cons d m ih =>
    have hd : d.1 ≠ c.1 := h d (by simp)
    have hm := ih fun e he => h e (by simp [he])
    unfold Memory.insertCell
    split
    · rw [read_cons]; simp [eq_comm]
    · rw [read_cons, hm, read_cons]
      split <;> split <;> first | rfl | omega

/-- A read after a write: the byte written at its offset, the old byte everywhere else. -/
@[simp] theorem read_write (m : Memory) (a b : Nat) (v : Byte) :
    (m.write a v).read b = if b = a then v else m.read b := by
  unfold Memory.write
  by_cases hv : v = 0
  · simp [hv, read_filter_ne]
  · simp only [hv, if_false]
    rw [read_insertCell _ _ _ (by simp), read_filter_ne]
    split <;> simp_all

/-- A fill writes its own range and nothing else. -/
theorem read_fill (m : Memory) (a : Nat) (f : Nat → Byte) (n b : Nat) :
    (m.fill a f n).read b = if a ≤ b ∧ b < a + n then f (b - a) else m.read b := by
  induction n with
  | zero => rw [if_neg (by omega)]; rfl
  | succ n ih =>
    simp only [Memory.fill, read_write, ih]
    by_cases h : b = a + n
    · subst h; simp
    · simp only [h, if_false]
      by_cases h2 : a ≤ b ∧ b < a + n
      · rw [if_pos h2, if_pos (by omega)]
      · rw [if_neg h2, if_neg (by omega)]

/-- A host write stores byte j of the word at offset a + j, where that is below DATA_BYTES, and nothing else
(20_memory.md R54, R55). -/
theorem read_writeWord (m : Memory) (n a : Nat) (v : Word) (b : Nat) :
    (m.writeWord n a v).read b =
      if a ≤ b ∧ b < a + 4 ∧ b < n then v.extractLsb' (8 * (b - a)) 8 else m.read b := by
  have h (m : Memory) (x : Nat) (w : Byte) :
      (m.writeBelow n x w).read b = if b = x ∧ b < n then w else m.read b := by
    unfold Memory.writeBelow
    split
    · rw [read_write]
      by_cases hb : b = x
      · subst hb; simp [*]
      · simp [hb]
    · by_cases hb : b = x
      · subst hb; simp [*]
      · simp [hb]
  unfold Memory.writeWord
  simp only [h]
  by_cases hr : a ≤ b ∧ b < a + 4 ∧ b < n
  · rw [if_pos hr]
    obtain ⟨h1, h2, h3⟩ := hr
    obtain h | h | h | h : b = a ∨ b = a + 1 ∨ b = a + 2 ∨ b = a + 3 := by omega
    all_goals subst h; simp [h3]
  · rw [if_neg hr, if_neg (by omega), if_neg (by omega), if_neg (by omega), if_neg (by omega)]

/-! ### The canonical form -/

/-- The canonical form as two plain facts: offsets strictly rise, and no listed byte is 0. -/
theorem wf_iff (m : Memory) :
    m.wf = true ↔ m.Pairwise (fun c d => c.1 < d.1) ∧ ∀ c ∈ m, c.2 ≠ 0 := by
  induction m with
  | nil => simp [Memory.wf]
  | cons c m ih =>
    cases m with
    | nil => simp [Memory.wf]
    | cons d rest =>
      simp only [Memory.wf, Bool.and_eq_true, bne_iff_ne, ne_eq, decide_eq_true_eq]
      rw [ih]
      constructor
      · rintro ⟨⟨h1, h2⟩, h3, h4⟩
        refine ⟨List.pairwise_cons.2 ⟨?_, h3⟩, ?_⟩
        · intro e he
          rcases List.mem_cons.1 he with rfl | he
          · exact h2
          · exact Nat.lt_trans h2 ((List.pairwise_cons.1 h3).1 e he)
        · intro e he
          rcases List.mem_cons.1 he with rfl | he
          · exact h1
          · exact h4 e he
      · rintro ⟨h1, h2⟩
        have := List.pairwise_cons.1 h1
        exact ⟨⟨h2 c (by simp), this.1 d (by simp)⟩, this.2, fun e he => h2 e (by simp [he])⟩

theorem mem_insertCell (c e : Host.Cell) (m : Memory) : e ∈ Memory.insertCell c m ↔ e = c ∨ e ∈ m := by
  induction m with
  | nil => simp [Memory.insertCell]
  | cons d m ih =>
    unfold Memory.insertCell
    split
    · simp
    · simp [ih]; tauto

theorem insertCell_pairwise (c : Host.Cell) (m : Memory) (hm : m.Pairwise (fun c d => c.1 < d.1))
    (hc : ∀ d ∈ m, d.1 ≠ c.1) : (Memory.insertCell c m).Pairwise (fun c d => c.1 < d.1) := by
  induction m with
  | nil => simp [Memory.insertCell]
  | cons d m ih =>
    obtain ⟨h1, h2⟩ := List.pairwise_cons.1 hm
    have hd : d.1 ≠ c.1 := hc d (by simp)
    unfold Memory.insertCell
    split
    · next hlt =>
      refine List.pairwise_cons.2 ⟨?_, hm⟩
      intro e he
      rcases List.mem_cons.1 he with rfl | he
      · exact hlt
      · exact Nat.lt_trans hlt (h1 e he)
    · next hge =>
      refine List.pairwise_cons.2 ⟨?_, ih h2 fun e he => hc e (by simp [he])⟩
      intro e he
      rcases (mem_insertCell c e m).1 he with rfl | he
      · omega
      · exact h1 e he

/-- A write keeps the canonical form. -/
theorem wf_write (m : Memory) (a : Nat) (v : Byte) (h : m.wf = true) : (m.write a v).wf = true := by
  rw [wf_iff] at h ⊢
  unfold Memory.write
  have hp : (m.filter (fun c => c.1 != a)).Pairwise (fun c d => c.1 < d.1) := h.1.filter _
  have hz : ∀ c ∈ m.filter (fun c => c.1 != a), c.2 ≠ 0 := fun c hc => h.2 c (List.mem_filter.1 hc).1
  by_cases hv : v = 0
  · simp only [hv, if_true]; exact ⟨hp, hz⟩
  · simp only [hv, if_false]
    refine ⟨insertCell_pairwise _ _ hp (by simp), ?_⟩
    intro e he
    rcases (mem_insertCell _ _ _).1 he with rfl | he
    · exact hv
    · exact hz e he

/-- A cell listed after a write is the written one or was listed before. -/
theorem mem_write (m : Memory) (a : Nat) (v : Byte) (c : Host.Cell) (h : c ∈ m.write a v) : c.1 = a ∨ c ∈ m := by
  unfold Memory.write at h
  simp only at h
  split at h
  · exact .inr (List.mem_filter.1 h).1
  · rcases (mem_insertCell _ _ _).1 h with rfl | h
    · exact .inl rfl
    · exact .inr (List.mem_filter.1 h).1

/-- DATA in its canonical form with no offset at or above `n`. -/
def Memory.inRam (m : Memory) (n : Nat) : Prop := m.wf = true ∧ ∀ c ∈ m, c.1 < n

theorem inRam_write (m : Memory) (n a : Nat) (v : Byte) (h : m.inRam n) (ha : a < n) : (m.write a v).inRam n :=
  ⟨wf_write m a v h.1, fun c hc => (mem_write m a v c hc).elim (fun e => e ▸ ha) (h.2 c)⟩

theorem inRam_fill (m : Memory) (n a : Nat) (f : Nat → Byte) (k : Nat) (h : m.inRam n) (ha : a + k ≤ n) :
    (m.fill a f k).inRam n := by
  induction k with
  | zero => exact h
  | succ k ih => exact inRam_write _ _ _ _ (ih (by omega)) (by omega)

theorem inRam_writeBelow (m : Memory) (n a : Nat) (v : Byte) (h : m.inRam n) : (m.writeBelow n a v).inRam n := by
  unfold Memory.writeBelow
  split
  · exact inRam_write _ _ _ _ h ‹_›
  · exact h

theorem inRam_writeWord (m : Memory) (n a : Nat) (v : Word) (h : m.inRam n) : (m.writeWord n a v).inRam n :=
  inRam_writeBelow _ _ _ _ (inRam_writeBelow _ _ _ _ (inRam_writeBelow _ _ _ _ (inRam_writeBelow _ _ _ _ h)))

/-- The memory of State.reset is in the canonical form. -/
theorem reset_memory_wf : State.reset.ram.data.wf = true := rfl

end Sys2Proof.Machine
end

