-- ==== Sys2Proof/Laws/Tables.lean ====
section
/-! SUPPORT. The symbol tables, NODE and HEAP: reading after writing, and the list of all symbols. -/

namespace Sys2Proof.Machine

/-! ### Symbols -/

@[simp] theorem mem_allSymbols (b : Byte) : b ∈ allSymbols := by
  simp only [allSymbols, List.mem_map, List.mem_range]
  exact ⟨b.toNat, b.isLt, by simp⟩

theorem length_allSymbols : allSymbols.length = 256 := by simp [allSymbols]

theorem getElem_allSymbols (k : Nat) (h : k < allSymbols.length) : allSymbols[k] = BitVec.ofNat 8 k := by
  simp [allSymbols]

theorem nodup_allSymbols : allSymbols.Nodup := by
  refine List.Nodup.map_on ?_ List.nodup_range
  intro x hx y hy h
  have := congrArg BitVec.toNat h
  simp only [List.mem_range] at hx hy
  simpa [Nat.mod_eq_of_lt hx, Nat.mod_eq_of_lt hy] using this

/-! ### Symbol tables -/

@[simp] theorem entry_store {α : Type} (t : SymTable α) (b c : Byte) (x : α) :
    (t.store b x).entry c = if c = b then x else t.entry c := by
  unfold SymTable.store SymTable.entry
  rw [Vector.getElem_set]
  by_cases h : c = b
  · subst h; simp
  · rw [if_neg (fun e => h (BitVec.eq_of_toNat_eq e.symm)), if_neg h]

@[simp] theorem entry_replicate {α : Type} (x : α) (b : Byte) :
    SymTable.entry (Vector.replicate 256 x) b = x := by
  simp [SymTable.entry]

theorem symTable_ext {α : Type} {t u : SymTable α} (h : ∀ b, t.entry b = u.entry b) : t = u := by
  apply Vector.ext
  intro i hi
  have := h (BitVec.ofNat 8 i)
  simpa [SymTable.entry, Nat.mod_eq_of_lt hi] using this

/-- The pairs of a table are its symbols with their entries. -/
theorem pairs_eq_map {α : Type} (t : SymTable α) : t.pairs = allSymbols.map fun b => (b, t.entry b) := by
  apply List.ext_getElem
  · simp [SymTable.pairs, length_allSymbols]
  · intro i h1 h2
    have hi : i < 256 := by simpa [length_allSymbols] using h2
    simp [SymTable.pairs, getElem_allSymbols, SymTable.entry, Nat.mod_eq_of_lt hi]

/-! ### NODE -/

theorem nodes_entry_store (n : Nodes) (i j : NodeIdx) (x : NodeEntry) (hi : i.toNat < 511) :
    (n.store i x).entry j = if j = i then x else n.entry j := by
  unfold Nodes.store Nodes.entry
  rw [Vector.getElem?_setIfInBounds]
  by_cases h : j = i
  · subst h; simp [hi]
  · rw [if_neg (fun e => h (BitVec.eq_of_toNat_eq e.symm)), if_neg h]

/-! ### HEAP -/

theorem slot_setSlot (h : Heap) (p q : Nat) (e : HeapEntry) (hp : 1 ≤ p) (hp2 : p ≤ 256) :
    (h.setSlot p e).slot q = if q = p then e else h.slot q := by
  obtain ⟨i, rfl⟩ : ∃ i, p = i + 1 := ⟨p - 1, by omega⟩
  cases q with
  | zero => simp [Heap.slot]
  | succ j =>
    simp only [Heap.slot, Heap.setSlot, Vector.getElem?_setIfInBounds]
    by_cases hij : j = i
    · subst hij; simp [show j < 256 by omega]
    · rw [if_neg (fun e => hij e.symm), if_neg (by omega)]

/-- A swap exchanges two slots and leaves every other one. -/
theorem slot_swap (h : Heap) (p q r : Nat) (hp : 1 ≤ p) (hp2 : p ≤ 256) (hq : 1 ≤ q) (hq2 : q ≤ 256) :
    (h.swap p q).slot r = if r = q then h.slot p else if r = p then h.slot q else h.slot r := by
  unfold Heap.swap
  rw [slot_setSlot _ _ _ _ hq hq2, slot_setSlot _ _ _ _ hp hp2]

theorem heap_ext {h k : Heap} (hs : ∀ p, 1 ≤ p → p ≤ 256 → h.slot p = k.slot p) : h = k := by
  apply Vector.ext
  intro i hi
  have := hs (i + 1) (by omega) (by omega)
  simpa [Heap.slot, hi] using this

end Sys2Proof.Machine
end

