-- ==== Sys2Proof/Laws/Counting.lean ====
section
/-! SUPPORT. The loop of FREQ_COUNT: what the table holds when it ends, with and without a full entry
(41_tree_builder.md R91), and the bytes of a buffer as a list. -/

namespace Sys2Proof.Machine

theorem length_bytes (m : Memory) (a n : Nat) : (m.bytes a n).length = n := by simp [Memory.bytes]

theorem getElem_bytes (m : Memory) (a n i : Nat) (h : i < (m.bytes a n).length) :
    (m.bytes a n)[i] = m.read (a + i) := by simp [Memory.bytes]

/-- One more byte of a buffer stands at the end. -/
theorem bytes_succ (m : Memory) (a n : Nat) : m.bytes a (n + 1) = m.bytes a n ++ [m.read (a + n)] := by
  simp [Memory.bytes, List.range_succ]

/-- The first byte of a buffer stands at the head. -/
theorem bytes_succ' (m : Memory) (a n : Nat) : m.bytes a (n + 1) = m.read a :: m.bytes (a + 1) n := by
  simp only [Memory.bytes, List.range_succ_eq_map, List.map_cons, List.map_map, Nat.add_zero]
  congr 1
  apply List.map_congr_left
  intro i _
  rw [Function.comp_apply, Nat.succ_eq_add_one, show a + (i + 1) = a + 1 + i by omega]

/-- A loop that meets no full entry adds to each entry the number of occurrences of its symbol. -/
theorem countBytes_none (m : Memory) (src : Nat) : ∀ (todo i : Nat) (freq f : SymTable Word),
    countBytes m src todo i freq = (f, none) →
    ∀ b, (f.entry b).toNat = (freq.entry b).toNat + (m.bytes (src + i) todo).count b := by
  intro todo
  induction todo with
  | zero => intro i freq f h b; simp only [countBytes, Prod.mk.injEq] at h; simp [h.1, Memory.bytes]
  | succ todo ih =>
    intro i freq f h b
    simp only [countBytes] at h
    split at h
    · simp at h
    · next hne =>
      rw [ih _ _ _ h b, entry_store, bytes_succ', List.count_cons, show src + (i + 1) = src + i + 1 by omega]
      have hlt : (freq.entry (m.read (src + i))).toNat < 0xFFFFFFFF := by
        have h1 := (freq.entry (m.read (src + i))).isLt
        have h2 : (freq.entry (m.read (src + i))).toNat ≠ 0xFFFFFFFF := fun e =>
          hne (BitVec.eq_of_toNat_eq e)
        omega
      by_cases hb : b = m.read (src + i)
      · subst hb
        simp only [if_pos, BitVec.toNat_add, beq_self_eq_true]
        rw [Nat.mod_eq_of_lt (by simp; omega)]
        simp; omega
      · rw [if_neg hb, if_neg (by simpa using fun e => hb e.symm)]; omega

/-- A loop that meets a full entry stops at the first byte whose entry is full, with the bytes before it counted. -/
theorem countBytes_some (m : Memory) (src : Nat) : ∀ (todo i : Nat) (freq f : SymTable Word) (k : Nat),
    countBytes m src todo i freq = (f, some k) →
    i ≤ k ∧ k < i + todo ∧ f.entry (m.read (src + k)) = 0xFFFFFFFF ∧
      ∀ b, (f.entry b).toNat = (freq.entry b).toNat + (m.bytes (src + i) (k - i)).count b := by
  intro todo
  induction todo with
  | zero => intro i freq f k h; simp [countBytes] at h
  | succ todo ih =>
    intro i freq f k h
    simp only [countBytes] at h
    split at h
    · next hfull =>
      simp only [Prod.mk.injEq, Option.some.injEq] at h
      obtain ⟨rfl, rfl⟩ := h
      exact ⟨by omega, by omega, hfull, by simp [Memory.bytes]⟩
    · next hne =>
      obtain ⟨h1, h2, h3, h4⟩ := ih _ _ _ _ h
      refine ⟨by omega, by omega, h3, ?_⟩
      intro b
      rw [h4 b, entry_store, show k - i = (k - (i + 1)) + 1 by omega, bytes_succ', List.count_cons,
        show src + (i + 1) = src + i + 1 by omega]
      have hlt : (freq.entry (m.read (src + i))).toNat < 0xFFFFFFFF := by
        have h1 := (freq.entry (m.read (src + i))).isLt
        have h2 : (freq.entry (m.read (src + i))).toNat ≠ 0xFFFFFFFF := fun e =>
          hne (BitVec.eq_of_toNat_eq e)
        omega
      by_cases hb : b = m.read (src + i)
      · subst hb
        simp only [if_pos, BitVec.toNat_add, beq_self_eq_true]
        rw [Nat.mod_eq_of_lt (by simp; omega)]
        simp; omega
      · rw [if_neg hb, if_neg (by simpa using fun e => hb e.symm)]; omega

end Sys2Proof.Machine
end

