-- ==== Sys2Proof/Laws/PerInstr.lean ====
section
/-! SUPPORT. The per-instruction family Encoding: the command word of an instruction is a valid command word with RSVD = 0,
and its OP field alone names the instruction (30_encoding.md R68, R69). -/

namespace Sys2Proof.Laws.Encoding

/-- The instruction is well formed, its word is a valid command word, and the OP field of its word decodes to it. -/
def Statement : Instr → Prop := fun i =>
  i.wf = true ∧ Word.wfCommand (Sys2Proof.encode i) = true ∧ rsvdField (Sys2Proof.encode i) = 0 ∧
    decodeOp (opField (Sys2Proof.encode i)) = .ok i

theorem nop : Statement .nop := ⟨rfl, by decide, by decide, rfl⟩
theorem freqClear : Statement .freqClear := ⟨rfl, by decide, by decide, rfl⟩
theorem freqCount : Statement .freqCount := ⟨rfl, by decide, by decide, rfl⟩
theorem build : Statement .build := ⟨rfl, by decide, by decide, rfl⟩
theorem encode : Statement .encode := ⟨rfl, by decide, by decide, rfl⟩
theorem decode : Statement .decode := ⟨rfl, by decide, by decide, rfl⟩
theorem pqInit : Statement .pqInit := ⟨rfl, by decide, by decide, rfl⟩
theorem pqInsert : Statement .pqInsert := ⟨rfl, by decide, by decide, rfl⟩
theorem pqExtract : Statement .pqExtract := ⟨rfl, by decide, by decide, rfl⟩

end Sys2Proof.Laws.Encoding
end

