-- ==== Sys2Proof/Laws/Queue.lean ====
section
/-! SUPPORT. The priority queue: the order of entries, what a swap, the sift loops and the two primitives do to the
entries of the queue, to their positions and to the slots beyond it (40_priority_queue.md R79, R82, R83). -/

namespace Sys2Proof.Machine

/-! ### The order (40_priority_queue.md R79) -/

theorem less_iff (a b : HeapEntry) :
    a.less b = true ↔ a.key.toNat < b.key.toNat ∨ (a.key = b.key ∧ a.seq.toNat < b.seq.toNat) := by
  simp [HeapEntry.less]

theorem less_irrefl (a : HeapEntry) : a.less a = false := by simp [HeapEntry.less]

theorem less_trans {a b c : HeapEntry} (h1 : a.less b = true) (h2 : b.less c = true) : a.less c = true := by
  rw [less_iff] at *
  rcases h1 with h1 | ⟨h1, h1'⟩ <;> rcases h2 with h2 | ⟨h2, h2'⟩
  · left; omega
  · left; rw [← h2]; omega
  · left; rw [h1]; omega
  · right; exact ⟨h1.trans h2, by omega⟩

theorem less_asymm {a b : HeapEntry} (h : a.less b = true) : b.less a = false := by
  by_contra hb
  have := less_trans h (by simpa using hb)
  simp [less_irrefl] at this

/-- Two entries with different SEQ are comparable. -/
theorem less_total {a b : HeapEntry} (h : a.seq ≠ b.seq) : a.less b = true ∨ b.less a = true := by
  rw [less_iff, less_iff]
  have hs : a.seq.toNat ≠ b.seq.toNat := fun e => h (BitVec.eq_of_toNat_eq e)
  by_cases hk : a.key = b.key
  · rcases Nat.lt_or_gt_of_ne hs with hl | hl
    · exact .inl (.inr ⟨hk, hl⟩)
    · exact .inr (.inr ⟨hk.symm, hl⟩)
  · have hn : a.key.toNat ≠ b.key.toNat := fun e => hk (BitVec.eq_of_toNat_eq e)
    rcases Nat.lt_or_gt_of_ne hn with hl | hl
    · exact .inl (.inl hl)
    · exact .inr (.inl hl)

/-! ### The entries of a queue as a list -/

theorem length_live (q : Queue) : q.live.length = q.size := by simp [Queue.live]

theorem mem_live (q : Queue) (e : HeapEntry) : e ∈ q.live ↔ ∃ p, 1 ≤ p ∧ p ≤ q.size ∧ q.heap.slot p = e := by
  simp only [Queue.live, List.mem_map, List.mem_range]
  constructor
  · rintro ⟨i, hi, rfl⟩; exact ⟨i + 1, by omega, by omega, rfl⟩
  · rintro ⟨p, h1, h2, rfl⟩; exact ⟨p - 1, by omega, by rw [show p - 1 + 1 = p by omega]⟩

/-- The entries of a queue do not depend on its SEQ counter. -/
theorem live_seq (h : Heap) (n a b : Nat) : Queue.live ⟨h, n, a⟩ = Queue.live ⟨h, n, b⟩ := rfl

/-- One more position adds its entry at the end. -/
theorem live_succ (h : Heap) (n a : Nat) : Queue.live ⟨h, n + 1, a⟩ = Queue.live ⟨h, n, a⟩ ++ [h.slot (n + 1)] := by
  simp [Queue.live, List.range_succ]

/-- Heaps with the same entries in the positions of the queue make the same list. -/
theorem live_congr {h k : Heap} {n : Nat} (a b : Nat) (e : ∀ p, 1 ≤ p → p ≤ n → h.slot p = k.slot p) :
    Queue.live ⟨h, n, a⟩ = Queue.live ⟨k, n, b⟩ := by
  simp only [Queue.live]
  apply List.map_congr_left
  intro i hi
  rw [List.mem_range] at hi
  exact e _ (by omega) (by omega)

/-- A swap of two positions of the queue permutes its entries. -/
theorem live_swap_perm (h : Heap) (n a p q : Nat) (hn : n ≤ 256) (hp : 1 ≤ p) (hp2 : p ≤ n) (hq : 1 ≤ q)
    (hq2 : q ≤ n) : (Queue.live ⟨h.swap p q, n, a⟩).Perm (Queue.live ⟨h, n, a⟩) := by
  have e : Queue.live ⟨h.swap p q, n, a⟩ =
      ((List.range n).map (Equiv.swap (p - 1) (q - 1))).map fun i => h.slot (i + 1) := by
    simp only [Queue.live, List.map_map]
    apply List.map_congr_left
    intro i hi
    rw [slot_swap _ _ _ _ hp (by omega) hq (by omega), Function.comp_apply, Equiv.swap_apply_def]
    repeat' split
    all_goals first | rfl | omega | (congr 1; omega)
  rw [e]
  apply List.Perm.map
  apply (List.perm_ext_iff_of_nodup ?_ List.nodup_range).2
  · intro x
    simp only [List.mem_map, List.mem_range]
    constructor
    · rintro ⟨i, hi, rfl⟩
      rw [Equiv.swap_apply_def]
      split
      · omega
      · split <;> omega
    · intro hx
      refine ⟨Equiv.swap (p - 1) (q - 1) x, ?_, Equiv.swap_apply_self _ _ _⟩
      rw [Equiv.swap_apply_def]
      split
      · omega
      · split <;> omega
  · exact List.nodup_range.map (Equiv.injective _)

/-! ### The sift loops -/

/-- Sifting up from a position of the queue permutes the entries of the queue and leaves the slots beyond position i. -/
theorem siftUp_spec (fuel : Nat) : ∀ (h : Heap) (n a i : Nat), n ≤ 256 → i ≤ n →
    (Queue.live ⟨Heap.siftUp fuel h i, n, a⟩).Perm (Queue.live ⟨h, n, a⟩) ∧
      ∀ p, i < p → (Heap.siftUp fuel h i).slot p = h.slot p := by
  induction fuel with
  | zero => intro h n a i _ _; exact ⟨.refl _, fun _ _ => rfl⟩
  | succ fuel ih =>
    intro h n a i hn hi
    rw [Heap.siftUp]
    split
    · next hc =>
      obtain ⟨h1, h2⟩ := ih (h.swap i (i / 2)) n a (i / 2) hn (by omega)
      refine ⟨h1.trans (live_swap_perm _ _ _ _ _ hn (by omega) hi (by omega) (by omega)), ?_⟩
      intro p hp
      rw [h2 p (by omega), slot_swap _ _ _ _ (by omega) (by omega) (by omega) (by omega),
        if_neg (by omega), if_neg (by omega)]
    · exact ⟨.refl _, fun _ _ => rfl⟩

/-- The least of a position and its children is the position itself or a child inside the queue. -/
theorem smallest_cases (h : Heap) (n i : Nat) :
    h.smallest n i = i ∨ (h.smallest n i = 2 * i ∧ 2 * i ≤ n) ∨ (h.smallest n i = 2 * i + 1 ∧ 2 * i + 1 ≤ n) := by
  unfold Heap.smallest
  by_cases hl : 2 * i ≤ n ∧ (h.slot (2 * i)).less (h.slot i)
  · simp only [if_pos hl]
    split
    · next hc => exact .inr (.inr ⟨rfl, hc.1⟩)
    · exact .inr (.inl ⟨rfl, hl.1⟩)
  · simp only [if_neg hl]
    split
    · next hc => exact .inr (.inr ⟨rfl, hc.1⟩)
    · exact .inl rfl

/-- Sifting down in a queue of n entries permutes them and leaves the slots beyond. -/
theorem siftDown_spec (fuel : Nat) : ∀ (h : Heap) (n a i : Nat), n ≤ 256 → 1 ≤ i → i ≤ n →
    (Queue.live ⟨Heap.siftDown fuel h n i, n, a⟩).Perm (Queue.live ⟨h, n, a⟩) ∧
      ∀ p, n < p → (Heap.siftDown fuel h n i).slot p = h.slot p := by
  induction fuel with
  | zero => intro h n a i _ _ _; exact ⟨.refl _, fun _ _ => rfl⟩
  | succ fuel ih =>
    intro h n a i hn h1 h2
    simp only [Heap.siftDown]
    split
    · exact ⟨.refl _, fun _ _ => rfl⟩
    · next hc =>
      have hs : 1 ≤ h.smallest n i ∧ h.smallest n i ≤ n := by
        rcases smallest_cases h n i with e | ⟨e, _⟩ | ⟨e, _⟩ <;> omega
      obtain ⟨g1, g2⟩ := ih (h.swap i (h.smallest n i)) n a _ hn hs.1 hs.2
      refine ⟨g1.trans (live_swap_perm _ _ _ _ _ hn h1 h2 hs.1 hs.2), ?_⟩
      intro p hp
      rw [g2 p hp, slot_swap _ _ _ _ (by omega) (by omega) (by omega) (by omega),
        if_neg (by omega), if_neg (by omega)]

/-- The positions that a sift-up gives (40_priority_queue.md R82), with enough fuel. -/
theorem siftUp_path (fuel : Nat) : ∀ (h : Heap) (i : Nat), 1 ≤ i → i ≤ 256 → i ≤ fuel →
    h.siftedUp (Heap.siftUp fuel h i) i (h.slot i) := by
  induction fuel with
  | zero => intro h i h1 _ h3; omega
  | succ fuel ih =>
    intro h i h1 h2 h3
    simp only [Heap.siftUp]
    split
    · next hc =>
      obtain ⟨hi, hless⟩ := hc
      have hs (q : Nat) := slot_swap h i (i / 2) q h1 h2 (by omega) (by omega)
      have hdiv (j : Nat) : i / 2 / 2 ^ j = i / 2 ^ (j + 1) := by
        rw [Nat.div_div_eq_div_mul, Nat.pow_succ, Nat.mul_comm]
      have hle (j : Nat) : i / 2 ^ (j + 1) ≤ i / 2 := by rw [← hdiv]; exact Nat.div_le_self _ _
      have hlt (j : Nat) : i / 2 ^ (j + 2) < i / 2 := by
        rw [← hdiv]; exact Nat.div_lt_self (by omega) (Nat.one_lt_pow (by omega) (by omega))
      have e0 : (h.swap i (i / 2)).slot (i / 2) = h.slot i := by rw [hs, if_pos rfl]
      have low (j : Nat) : (h.swap i (i / 2)).slot (i / 2 ^ (j + 2)) = h.slot (i / 2 ^ (j + 2)) := by
        have := hlt j
        rw [hs, if_neg (by omega), if_neg (by omega)]
      obtain ⟨m, g1, g2, g3, g4⟩ := ih (h.swap i (i / 2)) (i / 2) (by omega) (by omega) (by omega)
      rw [e0] at g1 g2 g3
      simp only [hdiv] at g1 g2 g3 g4
      refine ⟨m + 1, ?_, ?_, g3, ?_⟩
      · intro j hj
        cases j with
        | zero =>
          simp only [Nat.pow_zero, Nat.div_one, Nat.zero_add, Nat.pow_one]
          refine ⟨hi, hless, ?_⟩
          rw [g4 i (fun j _ => by have := hle j; omega), hs, if_neg (by omega), if_pos rfl]
        | succ j =>
          obtain ⟨a, b, c⟩ := g1 j (by omega)
          rw [low] at b c
          exact ⟨a, b, c⟩
      · rcases g2 with g2 | g2
        · exact .inl g2
        · rw [low] at g2; exact .inr g2
      · intro p hp
        have hp0 : p ≠ i := by simpa using hp 0 (by omega)
        have hp1 : p ≠ i / 2 := by simpa using hp 1 (by omega)
        rw [g4 p (fun j hj => hp (j + 1) (by omega)), hs, if_neg hp1, if_neg hp0]
    · next hc =>
      refine ⟨0, fun j hj => absurd hj (by omega), ?_, by simp, fun p _ => rfl⟩
      simp only [Nat.pow_zero, Nat.div_one, Nat.zero_add, Nat.pow_one]
      by_cases hi : 1 < i
      · right; simpa [hi] using hc
      · left; omega

/-- What the choice of the least among a position and its children means for a sift-down. -/
theorem smallest_spec (h : Heap) (n i : Nat) :
    (h.smallest n i = i ∧ ∀ c, c = 2 * i ∨ c = 2 * i + 1 → c ≤ n → (h.slot c).less (h.slot i) = false) ∨
      h.swapsWith n (h.slot i) i (h.smallest n i) := by
  unfold Heap.smallest Heap.swapsWith
  by_cases hl : 2 * i ≤ n ∧ (h.slot (2 * i)).less (h.slot i) = true
  · right
    simp only [if_pos hl]
    by_cases hr : 2 * i + 1 ≤ n ∧ (h.slot (2 * i + 1)).less (h.slot (2 * i)) = true
    · simp only [if_pos hr]
      exact ⟨by simp, hr.1, less_trans hr.2 hl.2, fun e => by omega, fun _ _ => hr.2⟩
    · simp only [if_neg hr]
      exact ⟨by simp, hl.1, hl.2, fun _ hn => by simpa [hn] using hr, fun e => by omega⟩
  · simp only [if_neg hl]
    by_cases hr : 2 * i + 1 ≤ n ∧ (h.slot (2 * i + 1)).less (h.slot i) = true
    · right
      simp only [if_pos hr]
      exact ⟨by simp, hr.1, hr.2, fun e => by omega, fun _ hx => absurd ⟨by omega, hx⟩ hl⟩
    · left
      simp only [if_neg hr, true_and]
      rintro c (rfl | rfl) hc
      · simpa [hc] using hl
      · simpa [hc] using hr

/-- The positions that a sift-down gives (40_priority_queue.md R83), with enough fuel. -/
theorem siftDown_path (fuel : Nat) : ∀ (h : Heap) (n i : Nat), 1 ≤ i → i ≤ 256 → n ≤ 256 → n < fuel + i →
    h.siftedDown (Heap.siftDown fuel h n i) n i (h.slot i) := by
  induction fuel with
  | zero =>
    intro h n i h1 h2 h3 h4
    refine ⟨0, fun _ => i, rfl, fun j hj => absurd hj (by omega), ?_, rfl, fun _ _ _ _ => rfl⟩
    intro c hc hcn
    dsimp only at hc
    omega
  | succ fuel ih =>
    intro h n i h1 h2 h3 h4
    simp only [Heap.siftDown]
    rcases smallest_spec h n i with ⟨e, stop⟩ | sw
    · rw [if_pos e]
      exact ⟨0, fun _ => i, rfl, fun j hj => absurd hj (by omega), stop, rfl, fun _ _ _ _ => rfl⟩
    · generalize hcdef : h.smallest n i = c at sw
      obtain ⟨hc, hcn, _⟩ := id sw
      have hic : i < c := by omega
      rw [if_neg (by omega)]
      have hs (q : Nat) := slot_swap h i c q h1 h2 (by omega) (by omega)
      have e0 : (h.swap i c).slot c = h.slot i := by rw [hs, if_pos rfl]
      obtain ⟨m, path, g0, g1, g2, g3, g4⟩ := ih (h.swap i c) n c (by omega) (by omega) h3 (by omega)
      rw [e0] at g1 g2 g3
      have mono : ∀ j ≤ m, c ≤ path j := by
        intro j hj
        induction j with
        | zero => omega
        | succ j ihj =>
          have := ihj (by omega)
          rcases (g1 j (by omega)).1.1 with e | e <;> omega
      have high (q : Nat) (hq : c < q) : (h.swap i c).slot q = h.slot q := by
        rw [hs, if_neg (by omega), if_neg (by omega)]
      refine ⟨m + 1, fun j => match j with | 0 => i | j + 1 => path j, rfl, ?_, ?_, g3, ?_⟩
      · intro j hj
        cases j with
        | zero =>
          simp only [g0]
          refine ⟨sw, ?_⟩
          by_cases hin : i ≤ n
          · rw [g4 i h1 hin (fun j hj => by have := mono j hj; omega), hs, if_neg (by omega), if_pos rfl]
          · omega
        | succ j =>
          obtain ⟨a, b⟩ := g1 j (by omega)
          have := mono j (by omega)
          have p1 : c < path (j + 1) := by rcases a.1 with e | e <;> omega
          rw [high _ p1] at b
          refine ⟨?_, b⟩
          unfold Heap.swapsWith at a ⊢
          rw [high _ p1, high (2 * path j) (by omega), high (2 * path j + 1) (by omega)] at a
          exact a
      · intro d hd hdn
        dsimp only at hd
        have := mono m (by omega)
        rw [← high d (by omega)]
        exact g2 d hd hdn
      · intro p hp1 hp2 hp3
        have q0 : p ≠ i := hp3 0 (by omega)
        have q1 : p ≠ c := by have := hp3 1 (by omega); simpa [g0] using this
        rw [g4 p hp1 hp2 (fun j hj => hp3 (j + 1) (by omega)), hs, if_neg q1, if_neg q0]

/-! ### The primitives -/

theorem insert_size (q : Queue) (key : Word) (tag : NodeIdx) : (q.insert key tag).size = q.size + 1 := rfl
theorem insert_seq (q : Queue) (key : Word) (tag : NodeIdx) : (q.insert key tag).seq = q.seq + 1 := rfl
theorem pop_size (q : Queue) : q.pop.size = q.size - 1 := rfl
theorem pop_seq (q : Queue) : q.pop.seq = q.seq := rfl

/-- What pq_insert does to the entries of any queue with room, and to the slots beyond (40_priority_queue.md R82). -/
theorem insert_spec (q : Queue) (key : Word) (tag : NodeIdx) (h : q.size < 256) :
    (q.insert key tag).live.Perm (⟨key, BitVec.ofNat 32 q.seq, tag⟩ :: q.live) ∧
      ∀ p, q.size + 1 < p → (q.insert key tag).heap.slot p = q.heap.slot p := by
  obtain ⟨h1, h2⟩ := siftUp_spec (q.size + 1)
    (q.heap.setSlot (q.size + 1) ⟨key, BitVec.ofNat 32 q.seq, tag⟩) (q.size + 1) (q.seq + 1) (q.size + 1)
    (by omega) (by omega)
  constructor
  · refine h1.trans ?_
    rw [live_succ, slot_setSlot _ _ _ _ (by omega) (by omega), if_pos rfl,
      live_congr (k := q.heap) (q.seq + 1) q.seq ?_]
    · exact List.perm_append_singleton _ _
    · intro p hp hp2
      rw [slot_setSlot _ _ _ _ (by omega) (by omega), if_neg (by omega)]
  · intro p hp
    show (Heap.siftUp _ _ _).slot p = _
    rw [h2 p hp, slot_setSlot _ _ _ _ (by omega) (by omega), if_neg (by omega)]

/-- The positions pq_insert gives to the entries of any queue with room (40_priority_queue.md R82). -/
theorem insert_path (q : Queue) (key : Word) (tag : NodeIdx) (h : q.size < 256) :
    q.heap.siftedUp (q.insert key tag).heap (q.size + 1) ⟨key, BitVec.ofNat 32 q.seq, tag⟩ := by
  generalize he : (⟨key, BitVec.ofNat 32 q.seq, tag⟩ : HeapEntry) = e
  have hs (p : Nat) := slot_setSlot q.heap (q.size + 1) p e (by omega) (by omega)
  have hlt (j : Nat) : (q.size + 1) / 2 ^ (j + 1) < q.size + 1 :=
    Nat.div_lt_self (by omega) (Nat.one_lt_pow (by omega) (by omega))
  obtain ⟨m, g1, g2, g3, g4⟩ := siftUp_path (q.size + 1) (q.heap.setSlot (q.size + 1) e) (q.size + 1) (by omega)
    (by omega) (by omega)
  have low (j : Nat) : (q.heap.setSlot (q.size + 1) e).slot ((q.size + 1) / 2 ^ (j + 1)) =
      q.heap.slot ((q.size + 1) / 2 ^ (j + 1)) := by
    have := hlt j
    rw [hs, if_neg (by omega)]
  have top : (q.heap.setSlot (q.size + 1) e).slot (q.size + 1) = e := by rw [hs, if_pos rfl]
  rw [top] at g1 g2 g3
  simp only [low] at g1 g2
  subst he
  refine ⟨m, g1, g2, g3, ?_⟩
  intro p hp
  have h0 : p ≠ q.size + 1 := by simpa using hp 0 (by omega)
  exact (g4 p hp).trans (by rw [hs, if_neg h0])

/-- What pq_extract does to the entries of any non-empty queue, and to the slots from the old last position on
(40_priority_queue.md R83). -/
theorem pop_spec (q : Queue) (h1 : 1 ≤ q.size) (h2 : q.size ≤ 256) :
    (q.top :: q.pop.live).Perm q.live ∧ q.pop.heap.slot q.size = q.top ∧
      ∀ p, q.size < p → q.pop.heap.slot p = q.heap.slot p := by
  obtain ⟨h, n, seq⟩ := q
  dsimp only at h1 h2
  have key : (Queue.live ⟨Heap.siftDown (n - 1) (h.swap 1 n) (n - 1) 1, n - 1, seq⟩).Perm
        (Queue.live ⟨h.swap 1 n, n - 1, seq⟩) ∧
      ∀ p, n - 1 < p → (Heap.siftDown (n - 1) (h.swap 1 n) (n - 1) 1).slot p = (h.swap 1 n).slot p := by
    by_cases hn : n = 1
    · subst hn; exact ⟨.refl _, fun _ _ => rfl⟩
    · exact siftDown_spec _ _ _ _ _ (by omega) (by omega) (by omega)
  obtain ⟨g1, g2⟩ := key
  have last : (h.swap 1 n).slot n = h.slot 1 := by
    rw [slot_swap _ _ _ _ (by omega) (by omega) h1 h2, if_pos rfl]
  refine ⟨?_, ?_, ?_⟩
  · show (h.slot 1 :: Queue.live ⟨_, n - 1, seq⟩).Perm (Queue.live ⟨h, n, seq⟩)
    refine ((List.Perm.cons _ g1).trans ?_).trans (live_swap_perm h n seq 1 n h2 (by omega) h1 h1 (by omega))
    have e : Queue.live ⟨h.swap 1 n, n, seq⟩ =
        Queue.live ⟨h.swap 1 n, n - 1, seq⟩ ++ [(h.swap 1 n).slot n] := by
      have := live_succ (h.swap 1 n) (n - 1) seq
      rwa [show n - 1 + 1 = n by omega] at this
    rw [e, last]
    exact (List.perm_append_singleton _ _).symm
  · show (Heap.siftDown _ _ _ _).slot n = h.slot 1
    rw [g2 n (by omega), last]
  · intro p hp
    show (Heap.siftDown _ _ _ _).slot p = h.slot p
    rw [g2 p (by dsimp only at hp; omega), slot_swap _ _ _ _ (by omega) (by omega) h1 h2, if_neg (by dsimp only at hp; omega),
      if_neg (by dsimp only at hp; omega)]

/-- The positions pq_extract gives to the entries that stay in any non-empty queue (40_priority_queue.md R83): the old
last entry is sifted down from the root. -/
theorem pop_path (q : Queue) (h1 : 1 ≤ q.size) (h2 : q.size ≤ 256) :
    q.heap.siftedDown q.pop.heap (q.size - 1) 1 (q.heap.slot q.size) := by
  have hs (p : Nat) := slot_swap q.heap 1 q.size p (by omega) (by omega) h1 h2
  have root : (q.heap.swap 1 q.size).slot 1 = q.heap.slot q.size := by
    rw [hs]
    by_cases e : 1 = q.size
    · rw [if_pos e, ← e]
    · rw [if_neg e, if_pos rfl]
  have mid (p : Nat) (hp : 2 ≤ p) (hp2 : p ≤ q.size - 1) : (q.heap.swap 1 q.size).slot p = q.heap.slot p := by
    rw [hs, if_neg (by omega), if_neg (by omega)]
  obtain ⟨m, path, g0, g1, g2, g3, g4⟩ := siftDown_path (q.size - 1) (q.heap.swap 1 q.size) (q.size - 1) 1 (by omega)
    (by omega) (by omega) (by omega)
  rw [root] at g1 g2 g3
  have pos : ∀ j ≤ m, 1 ≤ path j := by
    intro j hj
    induction j with
    | zero => omega
    | succ j ihj =>
      have := ihj (by omega)
      rcases (g1 j (by omega)).1.1 with e | e <;> omega
  refine ⟨m, path, g0, ?_, ?_, g3, ?_⟩
  · intro j hj
    obtain ⟨⟨a1, a2, a3, a4, a5⟩, b⟩ := g1 j hj
    have hp := pos j (by omega)
    have c2 := mid (path (j + 1)) (by omega) a2
    rw [c2] at a3 b
    have cl : 2 * path j ≤ q.size - 1 := by omega
    rw [mid (2 * path j) (by omega) cl] at a4 a5
    refine ⟨⟨a1, a2, a3, ?_, ?_⟩, b⟩
    · intro e hn
      have := a4 e hn
      rwa [mid (2 * path j + 1) (by omega) hn] at this
    · intro e hx
      have := a5 e hx
      rwa [mid (2 * path j + 1) (by omega) (by omega)] at this
  · intro c hc hcn
    have hp := pos m (by omega)
    rw [← mid c (by omega) hcn]
    exact g2 c hc hcn
  · intro p hp1 hp2 hp3
    have h0 : p ≠ 1 := by rw [← g0]; exact hp3 0 (by omega)
    exact (g4 p hp1 hp2 hp3).trans (mid p (by omega) hp2)

end Sys2Proof.Machine
end

