-- ==== Sys2Proof/Laws/Step.lean ====
section
/-! SUPPORT. What a step can do, said once: the engine executes the command in CMD, or the host makes its next
transaction. -/

namespace Sys2Proof.Machine

/-- When the engine moves, a step is its event. -/
theorem step_of_engine {s : State} (h : s.mover = .engine) : step s = s.useTurn.engineStep := by
  simp only [step, h]

/-- When the host moves, a step is its event. -/
theorem step_of_host {s : State} (h : s.mover = .host) : step s = s.useTurn.hostStep := by
  simp only [step, h]

/-- The engine moves only while a command runs. -/
theorem busy_of_engine {s : State} (h : s.mover = .engine) : s.regs.busy = true := by
  cases hb : s.regs.busy with
  | true => rfl
  | false => simp [State.mover, hb] at h

/-- With BUSY = 0 the host moves. -/
theorem host_of_idle {s : State} (h : s.regs.busy = false) : s.mover = .host := by simp [State.mover, h]

/-- With BUSY = 0 no turn is used up. -/
theorem useTurn_of_idle {s : State} (h : s.regs.busy = false) : s.useTurn = s := by simp [State.useTurn, h]

/-- An engine event executes the decoded command, or completes with ILLEGAL_CMD. -/
theorem engineStep_cases (s : State) :
    (∃ i, decodeWord s.regs.cmd = .ok i ∧ s.engineStep = exec i s) ∨
      (∃ e, decodeWord s.regs.cmd = .error e ∧ s.engineStep = .next (s.raise .illegalCmd)) := by
  unfold State.engineStep
  cases h : decodeWord s.regs.cmd with
  | ok i => exact .inl ⟨i, rfl, rfl⟩
  | error e => exact .inr ⟨e, rfl, rfl⟩

/-- A host write is performed at its target, in the state with the transaction taken off and recorded. -/
theorem step_wr {s : State} {addr : BusAddr} {v : Word} {rest : List Input} (h : s.hostNext (.wr addr v) rest) :
    step s = (s.afterHost rest ⟨.write, addr, v⟩).writeTarget v (target addr) := by
  rw [step_of_host h.1]
  have hp : s.useTurn.env.program = .wr addr v :: rest := by
    unfold State.useTurn; split <;> exact h.2
  simp only [State.hostStep, hp, State.hostWrite]
  congr 1
  unfold State.afterHost State.record State.withProgram State.useTurn
  split <;> rfl

/-- What a step can do. -/
theorem step_cases (s : State) :
    (s.mover = .engine ∧ step s = s.useTurn.engineStep) ∨
    (s.mover = .host ∧ s.env.program = [] ∧ step s = .next s.useTurn) ∨
    (∃ addr v rest, s.hostNext (.wr addr v) rest ∧
      step s = (s.afterHost rest ⟨.write, addr, v⟩).writeTarget v (target addr)) ∨
    (∃ addr rest, s.hostNext (.rd addr) rest ∧ step s = .next ((s.useTurn.hostRead addr).withProgram rest)) ∨
    (∃ addr mask v rest, s.hostNext (.poll addr mask v) rest ∧
      step s = .next (if s.useTurn.readData addr &&& mask = v
        then (s.useTurn.hostRead addr).withProgram rest else s.useTurn.hostRead addr)) ∨
    (∃ rest, s.hostNext .powerOn rest ∧ step s = .next (s.useTurn.withProgram rest).powerOnReset) := by
  have prog : s.useTurn.env.program = s.env.program := by unfold State.useTurn; split <;> rfl
  cases hm : s.mover with
  | engine => exact .inl ⟨rfl, step_of_engine hm⟩
  | host =>
    right
    cases hp : s.env.program with
    | nil =>
      refine .inl ⟨rfl, rfl, ?_⟩
      rw [step_of_host hm]; simp only [State.hostStep, prog, hp]
    | cons x rest =>
      right
      cases x with
      | wr addr v => exact .inl ⟨addr, v, rest, ⟨hm, hp⟩, step_wr ⟨hm, hp⟩⟩
      | rd addr =>
        refine .inr (.inl ⟨addr, rest, ⟨hm, hp⟩, ?_⟩)
        rw [step_of_host hm]; simp only [State.hostStep, prog, hp]
      | poll addr mask v =>
        refine .inr (.inr (.inl ⟨addr, mask, v, rest, ⟨hm, hp⟩, ?_⟩))
        rw [step_of_host hm]; simp only [State.hostStep, prog, hp]
      | powerOn =>
        refine .inr (.inr (.inr ⟨rest, ⟨hm, hp⟩, ?_⟩))
        rw [step_of_host hm]; simp only [State.hostStep, prog, hp]

/-- A read leaves the registers. -/
@[simp] theorem hostRead_regs (s : State) (addr : BusAddr) : (s.hostRead addr).regs = s.regs := by
  unfold State.hostRead; split <;> rfl

/-- A read leaves the RAMs. -/
@[simp] theorem hostRead_ram (s : State) (addr : BusAddr) : (s.hostRead addr).ram = s.ram := by
  unfold State.hostRead; split <;> rfl

@[simp] theorem hostRead_dataBytes (s : State) (addr : BusAddr) : (s.hostRead addr).dataBytes = s.dataBytes := by
  unfold State.hostRead; split <;> rfl

/-- What a read does outside the block: it is recorded, it may draw one free value, and it may observe the
completion. -/
@[simp] theorem hostRead_env (s : State) (addr : BusAddr) : (s.hostRead addr).env =
    { s.env with
      records := s.env.records ++ [⟨.read, addr, s.readData addr⟩]
      draws := s.env.draws + (s.readsFree (target addr)).toNat
      observed := s.env.observed || s.observes addr } := by
  unfold State.hostRead
  cases s.readsFree (target addr) <;> rfl

/-- What a read of command-controlled state or ERRCODE returns once the completion is observed: its value. -/
theorem readData_of_observed {s : State} (addr : BusAddr) (hb : s.regs.busy = false) (ho : s.env.observed = true) :
    s.readData addr = s.peek (target addr) := by
  have h : s.readsFree (target addr) = false := by
    unfold State.readsFree; split <;> simp [hb, ho]
  simp [State.readData, h]

/-- A read of a target that is neither command-controlled state nor ERRCODE is exact at any time. -/
theorem readData_of_plain (s : State) (addr : BusAddr) (hc : (target addr).commandControlled = false)
    (he : target addr ≠ .reg .errcode) : s.readData addr = s.peek (target addr) := by
  have h : s.readsFree (target addr) = false := by
    unfold State.readsFree; split
    · exact absurd ‹_› he
    · simp [hc]
  simp [State.readData, h]

end Sys2Proof.Machine
end

