-- ==== Sys2Proof/Tests/Slice0.lean ====
section
/-! SUPPORT. Tests: the ill-formed terms that the checks refuse, the decoding of words written out from the spec, one-step
tests with results from spec/95_test_vectors.md, and for every statement with hypotheses a concrete state that meets them
(witness_<statement>). -/

-- The theorems are elaborated one after another: many kernel evaluations at once exhaust the memory of one process.
set_option Elab.async false
set_option maxRecDepth 20000

namespace Sys2Proof.Tests

open Sys2Proof Sys2Proof.Machine

/-! ### WellFormed: the ill-formed terms are refused -/

theorem test_wf_refuses_reserved_bits : Word.wfCommand 0x00000010 = false := by decide
theorem test_wf_refuses_reserved_opcode : Word.wfCommand 0x00000009 = false := by decide
theorem test_wf_accepts_the_last_opcode : Word.wfCommand 0x00000008 = true := by decide
theorem test_wf_refuses_no_data : dataBytesWf 0 = false := by decide
theorem test_wf_refuses_too_much_data : dataBytesWf 65537 = false := by decide

/-! ### Decode: words written bit by bit from 30_encoding.md R68 (RSVD 31:4, OP 3:0) and R69 -/

theorem test_decode_nop : decodeWord 0b0000_0000_0000_0000_0000_0000_0000_0000 = .ok .nop := by decide
theorem test_decode_freqClear : decodeWord 0b0000_0000_0000_0000_0000_0000_0000_0001 = .ok .freqClear := by decide
theorem test_decode_freqCount : decodeWord 0b0000_0000_0000_0000_0000_0000_0000_0010 = .ok .freqCount := by decide
theorem test_decode_build : decodeWord 0b0000_0000_0000_0000_0000_0000_0000_0011 = .ok .build := by decide
theorem test_decode_encode : decodeWord 0b0000_0000_0000_0000_0000_0000_0000_0100 = .ok .encode := by decide
theorem test_decode_decode : decodeWord 0b0000_0000_0000_0000_0000_0000_0000_0101 = .ok .decode := by decide
theorem test_decode_pqInit : decodeWord 0b0000_0000_0000_0000_0000_0000_0000_0110 = .ok .pqInit := by decide
theorem test_decode_pqInsert : decodeWord 0b0000_0000_0000_0000_0000_0000_0000_0111 = .ok .pqInsert := by decide
theorem test_decode_pqExtract : decodeWord 0b0000_0000_0000_0000_0000_0000_0000_1000 = .ok .pqExtract := by decide
theorem test_decode_reserved_opcode :
    decodeWord 0b0000_0000_0000_0000_0000_0000_0000_1001 = .error .reservedOpcode := by decide
theorem test_decode_reserved_bits :
    decodeWord 0b1000_0000_0000_0000_0000_0000_0000_0011 = .error .reservedBits := by decide

/-! ### States of the tests -/

/-- The state a step or a command answers; the state itself where it answers none. -/
def after (r : Result) (s : State) : State :=
  match r with
  | .next t => t
  | _ => s

def withArgs (s : State) (a b c d : Word) : State :=
  { s with regs.arg0 := a, regs.arg1 := b, regs.arg2 := c, regs.arg3 := d }

def withData (s : State) (m : Memory) : State := { s with ram.data := m }

def withFreq (s : State) (l : List (Byte × Word)) : State :=
  { s with ram.freq := l.foldl (fun t p => t.store p.1 p.2) (Vector.replicate 256 0) }

def withHeap (s : State) (size : BitVec 9) (seq : Word) (l : List (Nat × HeapEntry)) : State :=
  { s with regs.pqSize := size, regs.pqSeq := seq, ram.heap := l.foldl (fun h p => h.setSlot p.1 p.2) s.ram.heap }

/-- The host makes transaction x next, busy or not. -/
def withHost (s : State) (x : Input) : State := { s with env.program := [x], env.turns := [.host] }

/-- FREQ of 95_test_vectors.md 1.1. -/
def freqT1 : State := withFreq State.reset [(0x61, 3), (0x62, 2), (0x63, 1)]

/-- The tree of 95_test_vectors.md 1.1, as the spec prints it. -/
def stateT1 : State :=
  { freqT1 with
    regs := { Regs.reset with
      done := true, treeValid := true, treeNleaf := 3, treeRoot := 4, treeTotal := 6, treeMaxlen := 2
      nodeCount := 5, pqSeq := 5 }
    ram.node := ((((Rams.blank.node.store 0 ⟨true, 0x61, 3, 0x1FF, 0x1FF⟩).store 1 ⟨true, 0x62, 2, 0x1FF, 0x1FF⟩).store
      2 ⟨true, 0x63, 1, 0x1FF, 0x1FF⟩).store 3 ⟨false, 0, 3, 2, 1⟩).store 4 ⟨false, 0, 6, 0, 3⟩
    ram.codeLen := ((Rams.blank.codeLen.store 0x61 1).store 0x62 2).store 0x63 2
    ram.codeBits := ((Rams.blank.codeBits.store 0x61 0).store 0x62 0b11).store 0x63 0b01 }

/-- "aaabbc" at DATA[0..5]. -/
def aaabbc : Memory := [(0, 0x61), (1, 0x61), (2, 0x61), (3, 0x62), (4, 0x62), (5, 0x63)]

/-- The tree of one symbol 0x41 with the given total (95_test_vectors.md program P4). -/
def single (total : Word) (m : Memory) : State :=
  { withFreq State.reset [(0x41, total)] with
    regs := { Regs.reset with
      treeValid := true, treeNleaf := 1, treeRoot := 0, treeTotal := total, treeMaxlen := 1, nodeCount := 1 }
    ram.node := Rams.blank.node.store 0 ⟨true, 0x41, total, 0x1FF, 0x1FF⟩
    ram.codeLen := Rams.blank.codeLen.store 0x41 1
    ram.data := m }

/-- The queue after PQ-3 of 95_test_vectors.md 2.1. -/
def statePQ3 : State := withHeap State.reset 3 3 [(1, ⟨2, 2, 9⟩), (2, ⟨5, 1, 3⟩), (3, ⟨5, 0, 7⟩)]

/-- The heap of PQ-3. -/
def queuePQ3 : Queue := statePQ3.queue

/-! The tables of these states as functions of the symbol, so that a check over all symbols reads no RAM. -/

theorem freqT1_entry (b : Byte) : freqT1.ram.freq.entry b =
    if b = 0x63 then 1 else if b = 0x62 then 2 else if b = 0x61 then 3 else 0 := by
  simp [freqT1, withFreq]

theorem stateT1_codeLen (b : Byte) : stateT1.ram.codeLen.entry b =
    if b = 0x63 then 2 else if b = 0x62 then 2 else if b = 0x61 then 1 else 0 := by
  simp [stateT1, Rams.blank]

theorem stateT1_codeBits (b : Byte) : stateT1.ram.codeBits.entry b =
    if b = 0x63 then 1 else if b = 0x62 then 3 else if b = 0x61 then 0 else 0 := by
  simp [stateT1, Rams.blank]

/-! ### One-step tests (results from spec/95_test_vectors.md) -/

/-- 41_tree_builder.md R89's example. -/
theorem test_nop : (after (exec .nop (State.reset.accept 0)) State.reset).regs.statusWord = 0x2 := by decide +kernel

/-- FQ-1. -/
theorem test_freqClear : (after (exec .freqClear freqT1) freqT1).ram.freq.entry 0x61 = 0 := by decide +kernel

def fq3 : State := withArgs (withData (withFreq State.reset [(0x61, 5)]) [(0, 0x61), (1, 0x62)]) 0 2 0 0
/-- FQ-3. -/
theorem test_freqCount_accumulates : (after (exec .freqCount fq3) fq3).ram.freq.entry 0x61 = 6 ∧
    (after (exec .freqCount fq3) fq3).regs.res0 = 2 := by decide +kernel

def fq6 : State :=
  withArgs (withData (withFreq State.reset [(0x62, 0xFFFFFFFF)]) [(0, 0x61), (1, 0x62), (2, 0x61), (3, 0x62)]) 0 4 0 0
/-- FQ-6. -/
theorem test_freqCount_overflow : (after (exec .freqCount fq6) fq6).ram.freq.entry 0x61 = 1 ∧
    (after (exec .freqCount fq6) fq6).regs.res0 = 1 ∧ (after (exec .freqCount fq6) fq6).regs.errcode = 0x6 := by
  decide +kernel

/-- Vector 1.1. -/
theorem test_build_T1 : (after (exec .build freqT1) freqT1).ram.nodeNo 3 = ⟨false, 0, 3, 2, 1⟩ ∧
    (after (exec .build freqT1) freqT1).ram.code 0x63 = [true, false] := by decide +kernel

def bld2 : State := withFreq State.reset [(0x00, 0xFFFFFFFF), (0x01, 1)]
/-- BLD-2. -/
theorem test_build_overflow : (after (exec .build bld2) bld2).regs.errcode = 0x6 ∧
    (after (exec .build bld2) bld2).ram.heap.slot 1 = ⟨1, 1, 1⟩ := by decide +kernel

def enc1 : State := withArgs (withData stateT1 aaabbc) 0 6 0x100 0x100
/-- ENC-1. -/
theorem test_encode_aaabbc : (after (exec .encode enc1) enc1).ram.data.bytes 0x100 2 = [0x1F, 0x00] ∧
    (after (exec .encode enc1) enc1).regs.res1 = 9 := by decide +kernel

def enc7 : State := withArgs (withData stateT1 aaabbc) 0 6 0x100 0
/-- ENC-7. -/
theorem test_encode_no_room : (after (exec .encode enc7) enc7).regs.errcode = 0xA ∧
    (after (exec .encode enc7) enc7).regs.res1 = 8 ∧ (after (exec .encode enc7) enc7).regs.res2 = 5 := by
  decide +kernel

def dec1 : State := withArgs (withData stateT1 [(0x100, 0x1F)]) 0x100 2 0x200 6
/-- Vector 1.1. -/
theorem test_decode_aaabbc : (after (exec .decode dec1) dec1).ram.data.bytes 0x200 6 =
    [0x61, 0x61, 0x61, 0x62, 0x62, 0x63] ∧ (after (exec .decode dec1) dec1).regs.res1 = 9 := by decide +kernel

def p4 : State := withArgs (single 3 [(0x24, 0x20)]) 0x24 1 0x38 3
/-- Program P4, records 33 to 42. -/
theorem test_decode_invalid_code : (after (exec .decode p4) p4).regs.errcode = 0xD ∧
    (after (exec .decode p4) p4).regs.res0 = 2 ∧ (after (exec .decode p4) p4).regs.res1 = 3 := by decide +kernel

/-- 40_priority_queue.md R85's example. -/
theorem test_pqInit : (after (exec .pqInit statePQ3) statePQ3).regs.pqSize = 0 ∧
    (after (exec .pqInit statePQ3) statePQ3).ram.heap.slot 1 = ⟨2, 2, 9⟩ := by decide +kernel

def pq2 : State := withArgs (withHeap State.reset 2 2 [(1, ⟨5, 0, 7⟩), (2, ⟨5, 1, 3⟩)]) 2 9 0 0
/-- PQ-3. -/
theorem test_pqInsert_sifts_up : (after (exec .pqInsert pq2) pq2).ram.heap.slot 1 = ⟨2, 2, 9⟩ ∧
    (after (exec .pqInsert pq2) pq2).ram.heap.slot 3 = ⟨5, 0, 7⟩ ∧
    (after (exec .pqInsert pq2) pq2).regs.res0 = 2 := by decide +kernel

def pq8 : State := withArgs State.reset 0 0xFFFFFFFF 0 0
/-- PQ-8. -/
theorem test_pqInsert_drops_high_tag_bits : (after (exec .pqInsert pq8) pq8).ram.heap.slot 1 = ⟨0, 0, 0x1FF⟩ := by
  decide +kernel

/-- PQ-4. -/
theorem test_pqExtract : (after (exec .pqExtract statePQ3) statePQ3).regs.res1 = 9 ∧
    (after (exec .pqExtract statePQ3) statePQ3).ram.heap.slot 1 = ⟨5, 0, 7⟩ ∧
    (after (exec .pqExtract statePQ3) statePQ3).ram.heap.slot 3 = ⟨2, 2, 9⟩ := by decide +kernel

/-- BLD-14: NODE+0x04 and node 3 word 1 as the host reads them. -/
theorem test_read_node_window : stateT1.readData 0x01004 = 0x83FFFF61 ∧ stateT1.readData 0x0101C = 0x00040100 := by
  decide +kernel

/-- 10_state.md R35: the code "10" of 0x63 reads left to right from the top of word 0. -/
theorem test_read_code_bits : stateT1.readData (BitVec.ofNat 17 (0x04000 + 32 * 0x63)) = 0x80000000 := by
  decide +kernel

/-- 20_memory.md R55: a word is stored little-endian. -/
theorem test_write_data_little_endian :
    (after (step (withHost State.reset (.wr 0x10004 0x44332211))) State.reset).ram.data =
      [(4, 0x11), (5, 0x22), (6, 0x33), (7, 0x44)] := by decide +kernel

/-- 20_memory.md R54 with DATA_BYTES = 70, while a command runs: the word at 72 reads 0. -/
theorem test_busy_read_above_data :
    State.readData { stateT1.accept 0x2 with dataBytes := 70 } 0x10048 = 0 := by
  have h : (target 0x10048).storedBits 70 = 0 := by decide +kernel
  simp only [State.readData]
  rw [if_pos (by decide +kernel)]
  show _ &&& (target 0x10048).storedBits 70 = 0
  rw [h]
  exact BitVec.and_zero

/-- Program P5, record 1: an illegal word is accepted and completes with ILLEGAL_CMD. -/
theorem test_step_illegal_word :
    (after (step (State.reset.withFetchWord 32 0x10)) State.reset).regs.errcode = 0x1 := by decide +kernel

/-! ### Witnesses: the hypotheses of each statement are met -/

theorem witness_ValidWordsAreExactlyTheTable :
    ((0x00000010 : Word).extractLsb 31 4 ≠ 0 ∧ (0x80000003 : Word).extractLsb 31 4 ≠ 0) ∧
    ((0x00000009 : Word).extractLsb 31 4 = 0 ∧ 9 ≤ ((0x00000009 : Word).extractLsb 3 0).toNat) ∧
    ((0x0000000F : Word).extractLsb 31 4 = 0 ∧ 9 ≤ ((0x0000000F : Word).extractLsb 3 0).toNat) := by decide

theorem witness_EngineStepExecutesTheCommandInCmd :
    ((stateT1.accept 0x8).mover = .engine ∧ decodeWord (stateT1.accept 0x8).regs.cmd = .ok .pqExtract) ∧
    decodeTableWord 32 0x0 = some .nop ∧ decodeTableWord 32 0x8 = some .pqExtract := by decide

theorem witness_IllegalWordCompletesWithIllegalCmd :
    ((stateT1.accept 0x9).mover = .engine ∧ 9 ≤ (stateT1.accept 0x9).regs.cmd.toNat) ∧
    ((stateT1.accept 0xFFFFFFFF).mover = .engine ∧ 9 ≤ (stateT1.accept 0xFFFFFFFF).regs.cmd.toNat) := by decide

theorem witness_IdleBlockHoldsItsState : stateT1.regs.busy = false ∧ stateT1.env.program = [] := ⟨rfl, rfl⟩

/-- At the first and the last byte address of CMD. -/
theorem witness_CmdWriteWhileIdleIsAcceptance :
    ((withHost stateT1 (.wr 0x0000C 0x3)).hostNext (.wr 0x0000C 0x3) [] ∧ (0x0000C : BusAddr).toNat / 4 = 3 ∧
      (withHost stateT1 (.wr 0x0000C 0x3)).regs.busy = false) ∧
    ((withHost stateT1 (.wr 0x0000F 0x10)).hostNext (.wr 0x0000F 0x10) [] ∧ (0x0000F : BusAddr).toNat / 4 = 3 ∧
      (withHost stateT1 (.wr 0x0000F 0x10)).regs.busy = false) :=
  ⟨⟨⟨rfl, rfl⟩, rfl, rfl⟩, ⟨rfl, rfl⟩, rfl, rfl⟩

/-- A running command with a host write next. -/
def busyWr (addr : BusAddr) (v : Word) : State := withHost (stateT1.accept 0x2) (.wr addr v)

theorem busyWr_next (addr : BusAddr) (v : Word) :
    (busyWr addr v).hostNext (.wr addr v) [] ∧ (busyWr addr v).regs.busy = true := ⟨⟨rfl, rfl⟩, rfl⟩

/-- Whether a busy-protected address is in the ranges of the statement. -/
def inProtected (addr : BusAddr) : Prop :=
  (0x0000C ≤ addr.toNat ∧ addr.toNat < 0x00010) ∨ (0x00018 ≤ addr.toNat ∧ addr.toNat < 0x00028) ∨
    (0x00400 ≤ addr.toNat ∧ addr.toNat < 0x00800) ∨
    0x10000 ≤ addr.toNat

/-- At both ends of each range; `busyWr_next` gives the other hypotheses at every address. -/
theorem witness_BusyProtectedWriteOnlySetsWrBusy :
    (∀ addr v, (busyWr addr v).hostNext (.wr addr v) [] ∧ (busyWr addr v).regs.busy = true) ∧
    inProtected 0x0000C ∧ inProtected 0x0000F ∧ inProtected 0x00018 ∧ inProtected 0x00027 ∧
    inProtected 0x00400 ∧ inProtected 0x007FF ∧ inProtected 0x10000 ∧ inProtected 0x1FFFF := by
  refine ⟨busyWr_next, ?_⟩
  unfold inProtected
  decide

/-- Whether an address is in the ranges whose writes are ignored. -/
def inIgnored (addr : BusAddr) : Prop :=
  addr.toNat < 0x00008 ∨ (0x00014 ≤ addr.toNat ∧ addr.toNat < 0x00018) ∨
    (0x00028 ≤ addr.toNat ∧ addr.toNat < 0x00400) ∨ (0x00800 ≤ addr.toNat ∧ addr.toNat < 0x10000)

/-- At both ends of each range, busy and idle. -/
theorem witness_ReadOnlyAndUnmappedWritesAreIgnored :
    (∀ addr v, (busyWr addr v).hostNext (.wr addr v) [] ∧ (withHost stateT1 (.wr addr v)).hostNext (.wr addr v) []) ∧
    inIgnored 0x00000 ∧ inIgnored 0x00007 ∧ inIgnored 0x00014 ∧ inIgnored 0x00017 ∧ inIgnored 0x00028 ∧
    inIgnored 0x003FF ∧ inIgnored 0x00800 ∧ inIgnored 0x0FFFF := by
  refine ⟨fun _ _ => ⟨⟨rfl, rfl⟩, rfl, rfl⟩, ?_⟩
  unfold inIgnored
  decide

theorem witness_StatusWriteClearsOnlyW1CBits :
    ((busyWr 0x00010 0x16).hostNext (.wr 0x00010 0x16) [] ∧ (0x00010 : BusAddr).toNat / 4 = 4) ∧
    ((busyWr 0x00013 0x16).hostNext (.wr 0x00013 0x16) [] ∧ (0x00013 : BusAddr).toNat / 4 = 4) :=
  ⟨⟨⟨rfl, rfl⟩, rfl⟩, ⟨rfl, rfl⟩, rfl⟩

/-- A running command with bit 1 = 0, and an idle block with bit 1 = 1. -/
theorem witness_CtrlWriteUpdatesIrqEnOnly :
    ((busyWr 0x00008 0x1).hostNext (.wr 0x00008 0x1) [] ∧ (0x00008 : BusAddr).toNat / 4 = 2 ∧
      (0x1 : Word).getLsbD 2 = false ∧ (0x1 : Word).getLsbD 1 = false) ∧
    ((withHost stateT1 (.wr 0x0000B 0x3)).hostNext (.wr 0x0000B 0x3) [] ∧ (0x0000B : BusAddr).toNat / 4 = 2 ∧
      (0x3 : Word).getLsbD 2 = false ∧ (withHost stateT1 (.wr 0x0000B 0x3)).regs.busy = false) :=
  ⟨⟨⟨rfl, rfl⟩, rfl, rfl, rfl⟩, ⟨rfl, rfl⟩, rfl, rfl, rfl⟩

theorem witness_ArgWritesStoreTheWord :
    (∀ addr v, (withHost stateT1 (.wr addr v)).hostNext (.wr addr v) [] ∧
      (withHost stateT1 (.wr addr v)).regs.busy = false) ∧
    (0x00018 : BusAddr).toNat / 4 = 6 ∧ (0x0001F : BusAddr).toNat / 4 = 7 ∧ (0x00020 : BusAddr).toNat / 4 = 8 ∧
    (0x00027 : BusAddr).toNat / 4 = 9 :=
  ⟨fun _ _ => ⟨⟨rfl, rfl⟩, rfl⟩, rfl, rfl, rfl, rfl⟩

/-- The last byte address of the last word of the window. -/
theorem witness_FreqWindowReadsAndWritesEntries :
    (withHost stateT1 (.wr 0x007FF 1)).regs.busy = false ∧ (withHost stateT1 (.wr 0x007FF 1)).env.observed = true ∧
    (0x007FF : BusAddr).toNat / 4 = 0x00100 + (0xFF : Byte).toNat ∧
    (withHost stateT1 (.wr 0x007FF 1)).hostNext (.wr 0x007FF 1) [] := ⟨rfl, rfl, by decide, rfl, rfl⟩

/-- A block with 70 bytes of DATA, idle and busy: the word at 68 has two bytes below DATA_BYTES and two above. -/
theorem witness_DataWindowIsLittleEndian :
    (0x10047 : BusAddr).toNat / 4 = 0x04000 + 17 ∧
    (2 < 4 ∧ State.dataBytes { stateT1.accept 0x2 with dataBytes := 70 } ≤ 4 * 17 + 2) ∧
    (State.regs { withHost stateT1 (.wr 0x10047 1) with dataBytes := 70 }).busy = false ∧
    (State.env { withHost stateT1 (.wr 0x10047 1) with dataBytes := 70 }).observed = true ∧
    State.hostNext { withHost stateT1 (.wr 0x10047 1) with dataBytes := 70 } (.wr 0x10047 1) [] :=
  ⟨by decide, by decide, rfl, rfl, rfl, rfl⟩

/-- A command that has completed, NOP, before the host has read STATUS. -/
def finished : State := after (exec .nop (stateT1.accept 0x0)) stateT1

/-- 20_memory.md R62, 70_reset_and_hazards.md R139: RES0 and ERRCODE read as unspecified after the completion, until the
host has read STATUS; reading RES0 changes nothing about that. -/
theorem test_results_wait_for_the_observation :
    finished.regs.busy = false ∧
    finished.readsFree (.reg .res0) = true ∧ finished.readsFree (.reg .errcode) = true ∧
    (finished.hostRead 0x00028).readsFree (.reg .res0) = true ∧
    (finished.hostRead 0x00010).readsFree (.reg .res0) = false ∧
    (finished.hostRead 0x00010).readsFree (.reg .errcode) = false := by decide +kernel

/-- A running command: the host reads RES0, a free value, or STATUS at its last byte address. A completed one: the host
reads STATUS. -/
theorem witness_ReadsHaveNoSideEffect :
    ((withHost (stateT1.accept 0x2) (.rd 0x00028)).hostNext (.rd 0x00028) [] ∧ (0x00028 : BusAddr).toNat / 4 ≠ 4) ∧
    ((withHost (stateT1.accept 0x2) (.rd 0x00013)).hostNext (.rd 0x00013) [] ∧
      (withHost (stateT1.accept 0x2) (.rd 0x00013)).regs.busy = true ∧
      (withHost (stateT1.accept 0x2) (.rd 0x00013)).regs.done = false) ∧
    ((withHost finished (.rd 0x00013)).hostNext (.rd 0x00013) [] ∧ (0x00013 : BusAddr).toNat / 4 = 4 ∧
      (withHost finished (.rd 0x00013)).regs.busy = false) :=
  ⟨⟨⟨rfl, rfl⟩, by decide⟩, ⟨⟨rfl, rfl⟩, rfl, rfl⟩, ⟨rfl, rfl⟩, by decide, rfl⟩

/-- One poll whose condition holds (idle: DONE = 1) and one whose condition fails (running: DONE = 0). -/
theorem witness_PollRepeatsUntilItsConditionHolds :
    ((withHost stateT1 (.poll 0x00010 0x2 0x2)).hostNext (.poll 0x00010 0x2 0x2) [] ∧
      (withHost stateT1 (.poll 0x00010 0x2 0x2)).readData 0x00010 &&& 0x2 = 0x2) ∧
    ((withHost (stateT1.accept 0x0) (.poll 0x00010 0x2 0x2)).hostNext (.poll 0x00010 0x2 0x2) [] ∧
      (withHost (stateT1.accept 0x0) (.poll 0x00010 0x2 0x2)).readData 0x00010 &&& 0x2 ≠ 0x2) :=
  ⟨⟨⟨rfl, rfl⟩, by decide +kernel⟩, ⟨rfl, rfl⟩, by decide +kernel⟩

/-- An observed completion, and a running command for the reads that are exact while BUSY = 1. -/
theorem witness_RegistersReadTheirValues :
    (stateT1.regs.busy = false ∧ stateT1.env.observed = true) ∧ (stateT1.accept 0x2).regs.busy = true ∧
    4 ≤ 31 ∧ 6 ≤ 31 ∧ 8 ≤ 31 ∧ 9 ≤ 31 ∧ 10 ≤ 31 :=
  ⟨⟨rfl, rfl⟩, rfl, by decide⟩

/-- Whether an address is in the ranges that read 0. -/
def inUnmapped (addr : BusAddr) : Prop :=
  (0x00050 ≤ addr.toNat ∧ addr.toNat < 0x00400) ∨ (0x00800 ≤ addr.toNat ∧ addr.toNat < 0x01000) ∨
    (0x03400 ≤ addr.toNat ∧ addr.toNat < 0x04000) ∨ (0x06000 ≤ addr.toNat ∧ addr.toNat < 0x10000)

/-- At both ends of each range. -/
theorem witness_UnmappedReadsAreZero :
    inUnmapped 0x00050 ∧ inUnmapped 0x003FF ∧ inUnmapped 0x00800 ∧ inUnmapped 0x00FFF ∧ inUnmapped 0x03400 ∧
    inUnmapped 0x03FFF ∧ inUnmapped 0x06000 ∧ inUnmapped 0x0FFFF := by
  unfold inUnmapped
  decide

/-- The last entry with storage, and both ends of the slot without. -/
theorem witness_NodeWindowLayout :
    (stateT1.regs.busy = false ∧ stateT1.env.observed = true ∧ 510 < 511 ∧ (0x01FF3 : BusAddr).toNat / 4 = 0x00400 + 2 * 510 ∧
      (0x01FF4 : BusAddr).toNat / 4 = 0x00400 + 2 * 510 + 1) ∧
    (0x01FF8 ≤ (0x01FF8 : BusAddr).toNat ∧ (0x01FF8 : BusAddr).toNat < 0x02000) ∧
    (0x01FF8 ≤ (0x01FFF : BusAddr).toNat ∧ (0x01FFF : BusAddr).toNat < 0x02000) := ⟨⟨rfl, rfl, by decide⟩, by decide⟩

/-- Slots 1 and 256. -/
theorem witness_HeapWindowLayout : statePQ3.regs.busy = false ∧ statePQ3.env.observed = true ∧
    (1 ≤ 1 ∧ 1 ≤ 256 ∧ (0x02000 : BusAddr).toNat / 4 = 0x00800 + 4 * (1 - 1)) ∧
    (1 ≤ 256 ∧ 256 ≤ 256 ∧ (0x02FF7 : BusAddr).toNat / 4 = 0x00800 + 4 * (256 - 1) + 1 ∧
      (0x02FFB : BusAddr).toNat / 4 = 0x00800 + 4 * (256 - 1) + 2 ∧
      (0x02FFF : BusAddr).toNat / 4 = 0x00800 + 4 * (256 - 1) + 3) := ⟨rfl, rfl, by decide⟩

/-- The last symbol. -/
theorem witness_CodeWindowsLayout : stateT1.regs.busy = false ∧ stateT1.env.observed = true ∧ 7 < 8 ∧ 31 < 32 ∧
    (0x033FF : BusAddr).toNat / 4 = 0x00C00 + (0xFF : Byte).toNat ∧
    (0x05FFF : BusAddr).toNat / 4 = 0x01000 + 8 * (0xFF : Byte).toNat + 7 := ⟨rfl, rfl, by decide⟩

/-- Three bytes 0x61 onto an entry that they just fill, in a buffer that ends at DATA_BYTES. -/
def fullCount : State :=
  withArgs (withData (withFreq State.reset [(0x61, 0xFFFFFFFC)]) [(65533, 0x61), (65534, 0x61), (65535, 0x61)]) 65533 3 0 0

theorem witness_FreqCountAddsOccurrences : fullCount.regs.src + fullCount.regs.len ≤ fullCount.dataBytes ∧
    ∀ b : Byte, (fullCount.ram.freq.entry b).toNat + fullCount.input.count b ≤ 0xFFFFFFFF := by
  have hf : ∀ b, fullCount.ram.freq.entry b = if b = 0x61 then 0xFFFFFFFC else 0 := by
    simp [fullCount, withFreq, withData, withArgs]
  have hi : fullCount.input = [0x61, 0x61, 0x61] := by decide +kernel
  refine ⟨by decide +kernel, ?_⟩
  intro b
  rw [hf, hi]
  revert b
  decide +kernel

theorem witness_FreqCountErrors :
    ((withArgs State.reset 65535 2 0 0).dataBytes <
      (withArgs State.reset 65535 2 0 0).regs.src + (withArgs State.reset 65535 2 0 0).regs.len) ∧
    (fq6.regs.src + fq6.regs.len ≤ fq6.dataBytes ∧ 1 < fq6.regs.len ∧
      (∀ b : Byte, (fq6.ram.freq.entry b).toNat + (fq6.ram.data.bytes fq6.regs.src 1).count b ≤ 0xFFFFFFFF) ∧
      (fq6.ram.freq.entry (fq6.ram.data.read (fq6.regs.src + 1))).toNat +
        (fq6.ram.data.bytes fq6.regs.src 1).count (fq6.ram.data.read (fq6.regs.src + 1)) = 0xFFFFFFFF) := by
  have hf : ∀ b, fq6.ram.freq.entry b = if b = 0x62 then 0xFFFFFFFF else 0 := by
    simp [fq6, withFreq, withData, withArgs]
  have hi : fq6.ram.data.bytes fq6.regs.src 1 = [0x61] := by decide +kernel
  refine ⟨by decide +kernel, by decide +kernel, by decide +kernel, ?_, by decide +kernel⟩
  intro b
  rw [hf, hi]
  revert b
  decide +kernel

/-- The last slot and the last SEQ. -/
theorem witness_PqInsertAddsTheEntry :
    (withHeap State.reset 255 0xFFFFFFFE []).regs.pqSize.toNat < 256 ∧
    (withHeap State.reset 255 0xFFFFFFFE []).regs.pqSeq ≠ 0xFFFFFFFF := by decide

theorem witness_QueueErrors :
    (withHeap State.reset 256 0xFFFFFFFF []).regs.pqSize = 256 ∧
    ((withHeap State.reset 0 0xFFFFFFFF []).regs.pqSize ≠ 256 ∧
      (withHeap State.reset 0 0xFFFFFFFF []).regs.pqSeq = 0xFFFFFFFF) ∧
    State.reset.regs.pqSize = 0 := by decide

theorem witness_PqExtractRemovesTheRoot :
    (1 ≤ (withHeap State.reset 1 1 []).regs.pqSize.toNat ∧ (withHeap State.reset 1 1 []).regs.pqSize.toNat ≤ 256) ∧
    (1 ≤ (withHeap State.reset 256 256 []).regs.pqSize.toNat ∧
      (withHeap State.reset 256 256 []).regs.pqSize.toNat ≤ 256) := by decide

theorem queuePQ3_ok : queuePQ3.ok := by
  refine ⟨by decide, ?_, ?_, ?_⟩
  · intro i h1 h2
    have h3 : i ≤ 3 := h2
    obtain rfl | rfl : i = 2 ∨ i = 3 := by omega
    all_goals decide +kernel
  · intro i j h1 h2 h3
    have h4 : j ≤ 3 := h3
    obtain ⟨rfl, rfl⟩ | ⟨rfl, rfl⟩ | ⟨rfl, rfl⟩ : (i = 1 ∧ j = 2) ∨ (i = 1 ∧ j = 3) ∨ (i = 2 ∧ j = 3) := by omega
    all_goals decide +kernel
  · intro i h1 h2
    have h3 : i ≤ 3 := h2
    obtain rfl | rfl | rfl : i = 1 ∨ i = 2 ∨ i = 3 := by omega
    all_goals decide +kernel

theorem witness_ExtractReturnsTheLeastEntry : queuePQ3.ok ∧ 1 ≤ queuePQ3.size := ⟨queuePQ3_ok, by decide⟩

theorem witness_HeapPrimitivesKeepTheHeapInvariant :
    queuePQ3.ok ∧ (queuePQ3.size < 256 ∧ queuePQ3.seq < 0xFFFFFFFF) ∧ 1 ≤ queuePQ3.size :=
  ⟨queuePQ3_ok, by decide, by decide⟩

theorem freqT1_alphabet : freqT1.ram.alphabet = [0x61, 0x62, 0x63] := by
  simp only [Rams.alphabet, freqT1_entry]
  decide +kernel

theorem freqT1_sum : freqT1.ram.freqSum = 6 := by
  simp only [Rams.freqSum, freqT1_entry]
  decide +kernel

theorem freqT1_counts (c : Byte) :
    (freqT1.ram.freq.entry c).toNat = [0x61, 0x61, 0x61, 0x62, 0x62, 0x63].count c := by
  rw [freqT1_entry]
  revert c
  decide +kernel

/-- BLD-4: one symbol, whose frequency is the largest sum. -/
def bld4 : State := withFreq State.reset [(0, 0xFFFFFFFF)]

theorem bld4_entry (b : Byte) : bld4.ram.freq.entry b = if b = 0 then 0xFFFFFFFF else 0 := by
  simp [bld4, withFreq]

theorem bld4_alphabet : bld4.ram.alphabet = [0] := by
  simp only [Rams.alphabet, bld4_entry]
  decide +kernel

theorem bld4_sum : bld4.ram.freqSum = 0xFFFFFFFF := by
  simp only [Rams.freqSum, bld4_entry]
  decide +kernel

theorem witness_BuildErrors : State.reset.ram.alphabet = [] ∧ 0xFFFFFFFF < bld2.ram.freqSum := by
  have h1 : ∀ b, State.reset.ram.freq.entry b = 0 := by simp [State.reset, State.powerOn, Rams.blank]
  have h2 : ∀ b, bld2.ram.freq.entry b = if b = 1 then 1 else if b = 0 then 0xFFFFFFFF else 0 := by
    simp [bld2, withFreq]
  simp only [Rams.alphabet, Rams.freqSum, h1, h2]
  decide +kernel

/-- An alphabet of three symbols, and of one symbol whose frequency is the largest sum. -/
theorem witness_BuildCompletes :
    (freqT1.ram.alphabet ≠ [] ∧ freqT1.ram.freqSum ≤ 0xFFFFFFFF) ∧
    (bld4.ram.alphabet ≠ [] ∧ bld4.ram.freqSum ≤ 0xFFFFFFFF) := by
  rw [freqT1_alphabet, freqT1_sum, bld4_alphabet, bld4_sum]
  decide

theorem witness_BuildEstablishesTheTreeInvariant :
    freqT1.ram.alphabet ≠ [] ∧ freqT1.ram.freqSum ≤ 0xFFFFFFFF ∧
    exec .build freqT1 = .next (after (exec .build freqT1) freqT1) :=
  ⟨witness_BuildCompletes.1.1, witness_BuildCompletes.1.2, rfl⟩

theorem witness_MergeJoinsTheTwoLeastEntries :
    (Forest.mk queuePQ3 Rams.blank.node 3 12).queue.ok ∧ 2 ≤ (Forest.mk queuePQ3 Rams.blank.node 3 12).queue.size :=
  ⟨queuePQ3_ok, by decide⟩

/-- n = 3 for the clauses of n >= 2, and n = 1. -/
theorem witness_CodeTableProperties :
    (freqT1.ram.alphabet ≠ [] ∧ freqT1.ram.freqSum ≤ 0xFFFFFFFF ∧
      exec .build freqT1 = .next (after (exec .build freqT1) freqT1) ∧ 2 ≤ freqT1.ram.alphabet.length ∧
      freqT1.ram.freq.entry 0x61 ≠ 0) ∧
    (bld4.ram.alphabet ≠ [] ∧ bld4.ram.freqSum ≤ 0xFFFFFFFF ∧
      exec .build bld4 = .next (after (exec .build bld4) bld4) ∧ bld4.ram.alphabet.length = 1) :=
  ⟨⟨witness_BuildCompletes.1.1, witness_BuildCompletes.1.2, rfl, by rw [freqT1_alphabet]; decide, by decide +kernel⟩,
    witness_BuildCompletes.2.1, witness_BuildCompletes.2.2, rfl, by rw [bld4_alphabet]; rfl⟩

/-- Two states that differ outside FREQ, for a BUILD that succeeds and for one that ends in FREQ_OVERFLOW. -/
theorem witness_BuildIsAFunctionOfFreq :
    (freqT1.ram.freq = (withHeap freqT1 3 3 [(1, ⟨2, 2, 9⟩)]).ram.freq ∧
      exec .build freqT1 = .next (after (exec .build freqT1) freqT1) ∧
      exec .build (withHeap freqT1 3 3 [(1, ⟨2, 2, 9⟩)]) =
        .next (after (exec .build (withHeap freqT1 3 3 [(1, ⟨2, 2, 9⟩)])) freqT1) ∧
      freqT1.ram.alphabet ≠ [] ∧ freqT1.ram.freqSum ≤ 0xFFFFFFFF) ∧
    (bld2.ram.freq = (withHeap bld2 3 3 [(1, ⟨2, 2, 9⟩)]).ram.freq ∧
      exec .build bld2 = .next (after (exec .build bld2) bld2) ∧
      exec .build (withHeap bld2 3 3 [(1, ⟨2, 2, 9⟩)]) =
        .next (after (exec .build (withHeap bld2 3 3 [(1, ⟨2, 2, 9⟩)])) bld2)) :=
  ⟨⟨rfl, rfl, rfl, witness_BuildCompletes.1.1, witness_BuildCompletes.1.2⟩, rfl, rfl, rfl⟩

/-- NO_TREE; RANGE by one byte; OVERLAP in one byte (ENC-8). -/
theorem witness_CodecBufferChecks :
    State.reset.regs.treeValid = false ∧
    ((withArgs stateT1 0 6 65535 2).regs.treeValid = true ∧
      (withArgs stateT1 0 6 65535 2).dataBytes <
        (withArgs stateT1 0 6 65535 2).regs.arg2.toNat + (withArgs stateT1 0 6 65535 2).regs.arg3.toNat) ∧
    ((withArgs stateT1 65535 2 0 0).regs.treeValid = true ∧
      (withArgs stateT1 65535 2 0 0).dataBytes <
        (withArgs stateT1 65535 2 0 0).regs.arg0.toNat + (withArgs stateT1 65535 2 0 0).regs.arg1.toNat) ∧
    ((withArgs stateT1 0 6 5 4).regs.treeValid = true ∧ 0 + 6 ≤ (withArgs stateT1 0 6 5 4).dataBytes ∧
      5 + 4 ≤ (withArgs stateT1 0 6 5 4).dataBytes ∧ ∃ a, 0 ≤ a ∧ a < 0 + 6 ∧ 5 ≤ a ∧ a < 5 + 4) :=
  ⟨rfl, by decide +kernel, by decide +kernel, rfl, by decide, by decide, 5, by decide⟩

/-- ENC-1, and ENC-9: adjacent buffers, CAP with room. -/
theorem witness_EncodePacksTheCodeStream :
    (enc1.bufferError = none ∧ (∀ b ∈ enc1.input, enc1.ram.codeLen.entry b ≠ 0) ∧
      ((enc1.ram.stream enc1.input).length + 7) / 8 ≤ enc1.regs.cap) ∧
    ((withArgs enc1 0 6 6 2).bufferError = none ∧
      (∀ b ∈ (withArgs enc1 0 6 6 2).input, (withArgs enc1 0 6 6 2).ram.codeLen.entry b ≠ 0) ∧
      (((withArgs enc1 0 6 6 2).ram.stream (withArgs enc1 0 6 6 2).input).length + 7) / 8 ≤
        (withArgs enc1 0 6 6 2).regs.cap) := by decide +kernel

/-- ENC-2: "abd". -/
def enc2 : State := withArgs (withData stateT1 [(0, 0x61), (1, 0x62), (2, 0x64)]) 0 3 0x100 8

theorem witness_EncodeStopsAtAnUnknownSymbol :
    enc2.bufferError = none ∧ 2 < enc2.regs.len ∧
    (∀ b ∈ enc2.ram.data.bytes enc2.regs.src 2, enc2.ram.codeLen.entry b ≠ 0) ∧
    enc2.ram.codeLen.entry (enc2.ram.data.read (enc2.regs.src + 2)) = 0 ∧
    (enc2.ram.stream (enc2.ram.data.bytes enc2.regs.src 2)).length / 8 ≤ enc2.regs.cap := by decide +kernel

/-- ENC-7 for a byte completed inside a code, ENC-3 for the padding byte. -/
theorem witness_EncodeOutOverflow :
    (enc7.bufferError = none ∧ 5 < enc7.regs.len ∧
      (∀ b ∈ enc7.ram.data.bytes enc7.regs.src (5 + 1), enc7.ram.codeLen.entry b ≠ 0) ∧
      (enc7.ram.stream (enc7.ram.data.bytes enc7.regs.src 5)).length < 8 * (enc7.regs.cap + 1) ∧
      8 * (enc7.regs.cap + 1) ≤ (enc7.ram.stream (enc7.ram.data.bytes enc7.regs.src (5 + 1))).length) ∧
    ((withArgs enc1 0 6 0x100 1).bufferError = none ∧
      (∀ b ∈ (withArgs enc1 0 6 0x100 1).input, (withArgs enc1 0 6 0x100 1).ram.codeLen.entry b ≠ 0) ∧
      8 * (withArgs enc1 0 6 0x100 1).regs.cap <
        ((withArgs enc1 0 6 0x100 1).ram.stream (withArgs enc1 0 6 0x100 1).input).length ∧
      ((withArgs enc1 0 6 0x100 1).ram.stream (withArgs enc1 0 6 0x100 1).input).length <
        8 * ((withArgs enc1 0 6 0x100 1).regs.cap + 1)) := by decide +kernel

/-- The tree of vector 1.1 meets the tree invariant, whatever DATA and the operands hold. -/
theorem stateT1_treeOk (m : Memory) (a b c d : Word) : (withArgs (withData stateT1 m) a b c d).treeOk := by
  have codes : stateT1.ram.codesShape 3 4 := by
    refine ⟨?_, by decide +kernel, by decide +kernel, by decide +kernel⟩
    have h0 : (stateT1.ram.nodeNo 0).symbol = 0x61 := by decide +kernel
    have h1 : (stateT1.ram.nodeNo 1).symbol = 0x62 := by decide +kernel
    have h2 : (stateT1.ram.nodeNo 2).symbol = 0x63 := by decide +kernel
    have leaf (s : Byte) : (∃ i < 3, (stateT1.ram.nodeNo i).symbol = s) ↔ s = 0x61 ∨ s = 0x62 ∨ s = 0x63 := by
      constructor
      · rintro ⟨i, hi, rfl⟩
        obtain rfl | rfl | rfl : i = 0 ∨ i = 1 ∨ i = 2 := by omega
        · exact .inl h0
        · exact .inr (.inl h1)
        · exact .inr (.inr h2)
      · rintro (rfl | rfl | rfl)
        · exact ⟨0, by decide, h0⟩
        · exact ⟨1, by decide, h1⟩
        · exact ⟨2, by decide, h2⟩
    intro s _
    rw [leaf, stateT1_codeLen, stateT1_codeBits]
    revert s
    decide +kernel
  have h : stateT1.treeOk :=
    ⟨by decide +kernel, by decide +kernel, by decide +kernel, by decide +kernel, codes⟩
  exact h

/-- Vector 1.1. -/
theorem witness_DecodeWritesTheSymbolsOfACodeStream :
    dec1.treeOk ∧ dec1.bufferError = none ∧ dec1.regs.treeTotal.toNat ≤ dec1.regs.cap ∧
    [0x61, 0x61, 0x61, 0x62, 0x62, 0x63].length = dec1.regs.treeTotal.toNat ∧
    (∀ b ∈ ([0x61, 0x61, 0x61, 0x62, 0x62, 0x63] : List Byte), dec1.ram.codeLen.entry b ≠ 0) ∧
    (dec1.ram.stream [0x61, 0x61, 0x61, 0x62, 0x62, 0x63]).length ≤ 8 * dec1.regs.len ∧
    (∀ t < (dec1.ram.stream [0x61, 0x61, 0x61, 0x62, 0x62, 0x63]).length,
      dec1.ram.data.streamBit dec1.regs.src t =
        (dec1.ram.stream [0x61, 0x61, 0x61, 0x62, 0x62, 0x63]).getD t false) :=
  ⟨stateT1_treeOk _ _ _ _ _, by decide +kernel, by decide +kernel, by decide +kernel, by decide +kernel,
    by decide +kernel, by decide +kernel⟩

theorem witness_DecodeOutOverflow :
    (withArgs dec1 0x100 2 0x200 5).bufferError = none ∧
    (withArgs dec1 0x100 2 0x200 5).regs.cap < (withArgs dec1 0x100 2 0x200 5).regs.treeTotal.toNat := by
  decide +kernel

/-- Only the byte 0x1F of vector 1.1: "aaabb" and the first bit of a code. -/
def decTruncated : State := withArgs (withData stateT1 [(0x100, 0x1F)]) 0x100 1 0x200 6

theorem witness_DecodeTruncated_stream :
    decTruncated.treeOk ∧ decTruncated.bufferError = none ∧
    decTruncated.regs.treeTotal.toNat ≤ decTruncated.regs.cap ∧
    ([0x61, 0x61, 0x61, 0x62, 0x62] : List Byte).length < decTruncated.regs.treeTotal.toNat ∧
    (∀ b ∈ ([0x61, 0x61, 0x61, 0x62, 0x62] : List Byte), decTruncated.ram.codeLen.entry b ≠ 0) ∧
    decTruncated.ram.codeLen.entry 0x63 ≠ 0 ∧ [true] <+: decTruncated.ram.code 0x63 ∧
    [true] ≠ decTruncated.ram.code 0x63 ∧
    (decTruncated.ram.stream [0x61, 0x61, 0x61, 0x62, 0x62] ++ [true]).length = 8 * decTruncated.regs.len ∧
    (∀ t < 8 * decTruncated.regs.len,
      decTruncated.ram.data.streamBit decTruncated.regs.src t =
        (decTruncated.ram.stream [0x61, 0x61, 0x61, 0x62, 0x62] ++ [true]).getD t false) :=
  ⟨stateT1_treeOk _ _ _ _ _, by decide +kernel, by decide +kernel, by decide +kernel, by decide +kernel,
    by decide +kernel, by decide +kernel, by decide +kernel, by decide +kernel, by decide +kernel⟩

theorem witness_DecodeTruncated_anyInput :
    decTruncated.treeOk ∧ 2 ≤ decTruncated.regs.treeNleaf.toNat ∧ decTruncated.bufferError = none ∧
    decTruncated.regs.treeTotal.toNat ≤ decTruncated.regs.cap :=
  ⟨stateT1_treeOk _ _ _ _ _, by decide, by decide +kernel, by decide +kernel⟩

/-- Program P4: three 0 bits; a 1 bit at stream position 2; and nine symbols wanted of one byte of zeros. -/
theorem witness_SingletonDecode :
    ((withArgs (single 3 [(0x20, 0x1F)]) 0x20 1 0x30 3).bufferError = none ∧
      (withArgs (single 3 [(0x20, 0x1F)]) 0x20 1 0x30 3).regs.treeNleaf = 1 ∧ 3 ≤ 3 ∧ 3 ≤ 8 * 1 ∧
      ∀ t < 3, (single 3 [(0x20, 0x1F)]).ram.data.streamBit 0x20 t = false) ∧
    (p4.bufferError = none ∧ p4.regs.treeNleaf = 1 ∧ p4.regs.treeTotal.toNat ≤ p4.regs.cap ∧
      2 < p4.regs.treeTotal.toNat ∧ 2 < 8 * p4.regs.len ∧
      (∀ t < 2, p4.ram.data.streamBit p4.regs.src t = false) ∧ p4.ram.data.streamBit p4.regs.src 2 = true) ∧
    ((withArgs (single 9 []) 0 1 8 9).bufferError = none ∧ (withArgs (single 9 []) 0 1 8 9).regs.treeNleaf = 1 ∧
      8 * (withArgs (single 9 []) 0 1 8 9).regs.len < (withArgs (single 9 []) 0 1 8 9).regs.treeTotal.toNat ∧
      ∀ t < 8, (single 9 []).ram.data.streamBit 0 t = false) := by decide +kernel

/-! The round trip of "aaabbc": BUILD, ENCODE to 0x100, DECODE to 0x200. -/

def rtB : State := after (exec .build freqT1) freqT1
def rtU : State := withArgs (withData rtB aaabbc) 0 6 0x100 0x10
def rtE : State := after (exec .encode rtU) rtU
def rtV : State := withArgs rtE 0x100 rtE.regs.res0 0x200 6

theorem witness_DecodeOfEncodeRestoresTheInput_build :
    1 ≤ ([0x61, 0x61, 0x61, 0x62, 0x62, 0x63] : List Byte).length ∧
    (∀ c : Byte, (freqT1.ram.freq.entry c).toNat = [0x61, 0x61, 0x61, 0x62, 0x62, 0x63].count c) ∧
    exec .build freqT1 = .next rtB := ⟨by decide, freqT1_counts, rfl⟩

theorem witness_DecodeOfEncodeRestoresTheInput_encode :
    rtU.ram.node = rtB.ram.node ∧ rtU.ram.codeLen = rtB.ram.codeLen ∧ rtU.ram.codeBits = rtB.ram.codeBits ∧
    rtU.regs.treeNleaf = rtB.regs.treeNleaf ∧ rtU.regs.treeRoot = rtB.regs.treeRoot ∧
    rtU.regs.treeTotal = rtB.regs.treeTotal ∧ rtU.regs.err = false ∧
    rtU.input = [0x61, 0x61, 0x61, 0x62, 0x62, 0x63] ∧ rtU.bufferError = none ∧
    ((rtU.ram.stream [0x61, 0x61, 0x61, 0x62, 0x62, 0x63]).length + 7) / 8 ≤ rtU.regs.cap ∧
    exec .encode rtU = .next rtE :=
  ⟨rfl, rfl, rfl, rfl, rfl, rfl, by decide +kernel, by decide +kernel, by decide +kernel, by decide +kernel, rfl⟩

theorem witness_DecodeOfEncodeRestoresTheInput_decode :
    rtV.ram = rtE.ram ∧ rtV.regs.treeNleaf = rtB.regs.treeNleaf ∧ rtV.regs.treeRoot = rtB.regs.treeRoot ∧
    rtV.regs.treeTotal = rtB.regs.treeTotal ∧ rtV.regs.err = false ∧ rtV.regs.arg0 = rtU.regs.arg2 ∧
    rtV.regs.arg1 = rtE.regs.res0 ∧ [0x61, 0x61, 0x61, 0x62, 0x62, 0x63].length ≤ rtV.regs.cap ∧
    rtV.bufferError = none ∧ exec .decode rtV = .next (after (exec .decode rtV) rtV) :=
  ⟨rfl, by decide +kernel, by decide +kernel, by decide +kernel, by decide +kernel, rfl, rfl, by decide +kernel,
    by decide +kernel, rfl⟩

theorem witness_EncodedBitsAreFrequencyTimesLength :
    enc1.bufferError = none ∧ (∀ b ∈ enc1.input, enc1.ram.codeLen.entry b ≠ 0) ∧
    ((enc1.ram.stream enc1.input).length + 7) / 8 ≤ enc1.regs.cap ∧
    (∀ c : Byte, (enc1.ram.freq.entry c).toNat = enc1.input.count c) ∧
    exec .encode enc1 = .next (after (exec .encode enc1) enc1) := by
  have hi : enc1.input = [0x61, 0x61, 0x61, 0x62, 0x62, 0x63] := by decide +kernel
  exact ⟨by decide +kernel, by decide +kernel, by decide +kernel, fun c => by rw [hi]; exact freqT1_counts c, rfl⟩

theorem witness_AbortHasTwoOutcomes :
    (busyWr 0x00008 0x2).hostNext (.wr 0x00008 0x2) [] ∧ (0x00008 : BusAddr).toNat / 4 = 2 ∧
    (0x2 : Word).getLsbD 2 = false ∧ (0x2 : Word).getLsbD 1 = true ∧ (busyWr 0x00008 0x2).regs.busy = true :=
  ⟨⟨rfl, rfl⟩, rfl, rfl, rfl, rfl⟩

/-- While a command runs, and while the block is idle. -/
theorem witness_SoftResetResetsEveryRegister :
    ((busyWr 0x0000B 0x7).hostNext (.wr 0x0000B 0x7) [] ∧ (0x0000B : BusAddr).toNat / 4 = 2 ∧
      (0x7 : Word).getLsbD 2 = true ∧ (busyWr 0x0000B 0x7).regs.busy = true) ∧
    ((withHost stateT1 (.wr 0x00008 0x4)).hostNext (.wr 0x00008 0x4) [] ∧ (0x00008 : BusAddr).toNat / 4 = 2 ∧
      (0x4 : Word).getLsbD 2 = true ∧ (withHost stateT1 (.wr 0x00008 0x4)).regs.busy = false) :=
  ⟨⟨⟨rfl, rfl⟩, rfl, rfl, rfl⟩, ⟨rfl, rfl⟩, rfl, rfl, rfl⟩

/-- A power-on state, and the reset input while a command runs. -/
theorem witness_PowerOnResetValues :
    State.reset = State.powerOn 65536 Rams.blank ∧
    (withHost (stateT1.accept 0x3) .powerOn).hostNext .powerOn [] ∧
    step (withHost (stateT1.accept 0x3) .powerOn) =
      .next (after (step (withHost (stateT1.accept 0x3) .powerOn)) stateT1) := ⟨rfl, ⟨rfl, rfl⟩, rfl⟩

theorem witness_CommandsKeepOperandsAndControl :
    exec .pqInsert pq2 = .next (after (exec .pqInsert pq2) pq2) := rfl

/-- The engine runs FREQ_CLEAR; an ABORT of FREQ_COUNT; the host accepts BUILD. -/
theorem witness_TreeIsASnapshot :
    (step (stateT1.accept 0x1) = .next (after (step (stateT1.accept 0x1)) stateT1) ∧
      (stateT1.accept 0x1).regs.cmd ≠ 0x00000003 ∧ (stateT1.accept 0x1).mover = .engine) ∧
    ((busyWr 0x00008 0x2).mover = .host ∧ (busyWr 0x00008 0x2).env.program = [.wr 0x00008 0x2] ∧
      (0x2 : Word).getLsbD 2 = false ∧ (busyWr 0x00008 0x2).regs.cmd ≠ 0x00000003) ∧
    (withHost stateT1 (.wr 0x0000C 0x3)).hostNext (.wr 0x0000C 0x3) [] :=
  ⟨⟨rfl, by decide, rfl⟩, ⟨rfl, rfl, rfl, by decide⟩, rfl, rfl⟩

theorem witness_ErrcodeIsNeverF :
    stateT1.regs.errcode ≠ 0xF ∧ step (stateT1.accept 0x9) = .next (after (step (stateT1.accept 0x9)) stateT1) :=
  ⟨by decide, rfl⟩

theorem witness_StepKeepsTheLifecycleInvariant :
    (stateT1.accept 0x3).lifecycleOk ∧ (stateT1.accept 0x3).regs.busy = true ∧
    step (stateT1.accept 0x3) = .next (after (step (stateT1.accept 0x3)) stateT1) :=
  ⟨fun _ => ⟨rfl, rfl, rfl, rfl, rfl, rfl, fun _ => rfl, rfl⟩, rfl, rfl⟩

/-- ENCODE about to write DATA. -/
theorem witness_StepKeepsDataInsideItsRam :
    (enc1.accept 0x4).memoryOk ∧ step (enc1.accept 0x4) = .next (after (step (enc1.accept 0x4)) enc1) := by
  refine ⟨⟨by decide +kernel, ?_⟩, rfl⟩
  show ∀ c ∈ aaabbc, c.1 < 65536
  decide

theorem witness_StepKeepsTheHeapInvariant :
    (statePQ3.accept 0x8).queue.ok ∧ step (statePQ3.accept 0x8) = .next (after (step (statePQ3.accept 0x8)) statePQ3) :=
  ⟨queuePQ3_ok, rfl⟩

/-- A valid tree with DECODE running. -/
theorem witness_StepKeepsTheTreeInvariant :
    (dec1.accept 0x5).lifecycleOk ∧ (dec1.accept 0x5).treeInv ∧ (dec1.accept 0x5).regs.treeValid = true ∧
    step (dec1.accept 0x5) = .next (after (step (dec1.accept 0x5)) dec1) :=
  ⟨fun _ => ⟨rfl, rfl, rfl, rfl, rfl, rfl, fun h => absurd h (by decide), rfl⟩,
    fun _ => stateT1_treeOk [(0x100, 0x1F)] 0x100 2 0x200 6, by decide, rfl⟩

/-- A word accepted, two host reads before its completion, and turns that are left over. -/
def waitFor (w : Word) : State :=
  { stateT1.accept w with
    env.program := HostProgram.wait ++ [.rd 0x00014]
    env.turns := List.replicate 2 .host ++ [.engine, .host] }

/-- A command (NOP) and an illegal word (program P5, records 1 and 2). -/
theorem witness_WaitEndsUnderEverySchedule :
    (∀ w ∈ ([0x0, 0x10] : List Word), (waitFor w).lifecycleOk) ∧
    ∀ w : Word, (waitFor w).regs.busy = true ∧
      (waitFor 0x0).engineStep = .next (after (waitFor 0x0).engineStep stateT1) ∧
      (waitFor 0x10).engineStep = .next (after (waitFor 0x10).engineStep stateT1) ∧
      (waitFor w).env.program = HostProgram.wait ++ [.rd 0x00014] ∧
      (waitFor w).env.turns = List.replicate 2 .host ++ [.engine, .host] ∧
      [Agent.engine, .host].head? ≠ some .host := by
  refine ⟨?_, fun w => ⟨rfl, rfl, rfl, rfl, rfl, by decide⟩⟩
  intro w hw _
  refine ⟨rfl, rfl, rfl, rfl, rfl, rfl, ?_, rfl⟩
  intro h
  have h3 : w = 0x3 := h
  subst h3
  revert hw
  decide

end Sys2Proof.Tests
end

section
/-! SUPPORT. BUILD phase LOAD: the leaves, the queue entries and the sum of the frequencies it leaves
(41_tree_builder.md R93), for any contents of the queue and the NODE RAM before it. -/

namespace Sys2Proof.Machine

/-! ### NODE by number -/

/-- Node number `i` of a NODE RAM. -/
abbrev Nodes.no (node : Nodes) (i : Nat) : NodeEntry := node.entry (BitVec.ofNat 9 i)

theorem nodeNo_eq_no (r : Rams) (i : Nat) : r.nodeNo i = r.node.no i := rfl

/-- Node numbers below 512 are distinct as node indices. -/
theorem nodeIdx_ofNat_inj {i j : Nat} (hi : i < 512) (hj : j < 512) : BitVec.ofNat 9 i = BitVec.ofNat 9 j ↔ i = j := by
  rw [← BitVec.toNat_inj, BitVec.toNat_ofNat, BitVec.toNat_ofNat, Nat.mod_eq_of_lt hi, Nat.mod_eq_of_lt hj]

theorem no_store (node : Nodes) (x : NodeEntry) {i j : Nat} (hi : i < 511) (hj : j < 511) :
    (node.store (BitVec.ofNat 9 i) x).no j = if j = i then x else node.no j := by
  have hlt : (BitVec.ofNat 9 i).toNat < 511 := by simp; omega
  simp only [Nodes.no, nodes_entry_store _ _ _ _ hlt, nodeIdx_ofNat_inj (show j < 512 by omega) (show i < 512 by omega)]

/-! ### LOAD -/

/-- The symbols of a list that have a non-zero frequency, in its order. -/
def present (freq : SymTable Word) (syms : List Byte) : List Byte := syms.filter fun s => freq.entry s != 0

/-- The queue entries of leaves 0, 1, ... of the symbols of a list. -/
def leafEntriesOf (freq : SymTable Word) (syms : List Byte) : List HeapEntry :=
  syms.zipIdx.map fun p => ⟨freq.entry p.1, BitVec.ofNat 32 p.2, BitVec.ofNat 9 p.2⟩

theorem leafEntriesOf_alphabet (r : Rams) : leafEntriesOf r.freq r.alphabet = r.leafEntries := rfl

theorem present_append_singleton (freq : SymTable Word) (syms : List Byte) (s : Byte) :
    present freq (syms ++ [s]) = if freq.entry s = 0 then present freq syms else present freq syms ++ [s] := by
  by_cases h : freq.entry s = 0#32 <;> simp [present, h]

theorem leafEntriesOf_append_singleton (freq : SymTable Word) (syms : List Byte) (s : Byte) :
    leafEntriesOf freq (syms ++ [s]) =
      leafEntriesOf freq syms ++ [⟨freq.entry s, BitVec.ofNat 32 syms.length, BitVec.ofNat 9 syms.length⟩] := by
  simp [leafEntriesOf, List.zipIdx_append]

theorem length_present_le (freq : SymTable Word) (syms : List Byte) : (present freq syms).length ≤ syms.length :=
  List.length_filter_le _ _

/-- There are at most 256 symbols with a non-zero frequency. -/
theorem length_alphabet_le (r : Rams) : r.alphabet.length ≤ 256 :=
  length_allSymbols ▸ length_present_le r.freq allSymbols

/-- Where LOAD stands once it has gone through the symbols `syms`, from the NODE RAM `node`. -/
structure Forest.Loaded (node : Nodes) (freq : SymTable Word) (syms : List Byte) (t : Forest) : Prop where
  next_eq : t.next = (present freq syms).length
  size_eq : t.queue.size = (present freq syms).length
  seq_eq : t.queue.seq = (present freq syms).length
  total_eq : t.total = (syms.map fun s => (freq.entry s).toNat).sum
  live_perm : t.queue.live.Perm (leafEntriesOf freq (present freq syms))
  leaf_eq : ∀ k (h : k < (present freq syms).length),
    t.node.no k = NodeEntry.leaf (present freq syms)[k] (freq.entry (present freq syms)[k])
  above_eq : ∀ k, (present freq syms).length ≤ k → k < 511 → t.node.no k = node.no k

/-- LOAD begins with no leaf and an empty queue. -/
theorem loaded_nil (q : Queue) (node : Nodes) (freq : SymTable Word) :
    Forest.Loaded node freq [] ⟨q.init, node, 0, 0⟩ where
  next_eq := rfl
  size_eq := rfl
  seq_eq := rfl
  total_eq := rfl
  live_perm := .refl _
  leaf_eq k h := absurd h (Nat.not_lt_zero k)
  above_eq _ _ _ := rfl

/-- One symbol more: nothing for a frequency of 0, else the next leaf and its entry. -/
theorem loaded_append {node : Nodes} {freq : SymTable Word} {syms : List Byte} {t : Forest}
    (h : t.Loaded node freq syms) (hlen : (present freq syms).length < 256) (s : Byte) :
    (t.loadSymbol s (freq.entry s)).Loaded node freq (syms ++ [s]) := by
  unfold Forest.loadSymbol
  have hp := present_append_singleton freq syms s
  by_cases hf : freq.entry s = 0
  · rw [if_pos hf] at hp ⊢
    exact { h with
      next_eq := hp ▸ h.next_eq, size_eq := hp ▸ h.size_eq, seq_eq := hp ▸ h.seq_eq
      total_eq := by simp [h.total_eq, hf]
      live_perm := hp ▸ h.live_perm, leaf_eq := by rw [hp]; exact h.leaf_eq, above_eq := hp ▸ h.above_eq }
  · rw [if_neg hf] at hp ⊢
    obtain ⟨hlive, -⟩ := insert_spec t.queue (freq.entry s) (BitVec.ofNat 9 t.next) (h.size_eq ▸ hlen)
    have hno (k : Nat) (hk : k < 511) := no_store t.node (NodeEntry.leaf s (freq.entry s))
      (show t.next < 511 by rw [h.next_eq]; omega) hk
    constructor
    case next_eq => simp [hp, h.next_eq]
    case size_eq => simp [hp, insert_size, h.size_eq]
    case seq_eq => simp [hp, insert_seq, h.seq_eq]
    case total_eq => simp [h.total_eq]
    case live_perm =>
      rw [hp, leafEntriesOf_append_singleton]
      refine hlive.trans ?_
      rw [h.seq_eq, h.next_eq]
      exact (h.live_perm.cons _).trans (List.perm_append_singleton _ _).symm
    case leaf_eq =>
      intro k hk
      simp only [hp, List.length_append, List.length_singleton] at hk
      rw [hno k (by omega), h.next_eq]
      by_cases he : k = (present freq syms).length
      · simp [hp, he]
      · rw [if_neg he, h.leaf_eq k (by omega)]
        simp [hp, List.getElem_append_left (show k < (present freq syms).length by omega)]
    case above_eq =>
      intro k hk hk2
      simp only [hp, List.length_append, List.length_singleton] at hk
      rw [hno k hk2, h.next_eq, if_neg (by omega), h.above_eq k (by omega) hk2]

/-- Going through more symbols. -/
theorem loaded_foldl {node : Nodes} {freq : SymTable Word} (todo : List Byte) : ∀ {syms : List Byte} {t : Forest},
    t.Loaded node freq syms → (syms ++ todo).length ≤ 256 →
    (todo.foldl (fun t s => t.loadSymbol s (freq.entry s)) t).Loaded node freq (syms ++ todo) := by
  induction todo with
  | nil => intro syms t h _; simpa using h
  | cons s todo ih =>
    intro syms t h hlen
    simp only [List.length_append, List.length_cons] at hlen
    have hlt := length_present_le freq syms
    rw [List.foldl_cons, List.append_cons]
    exact ih (loaded_append h (by omega) s) (by simp; omega)

/-- What LOAD leaves (41_tree_builder.md R93). -/
theorem loaded_load (q : Queue) (node : Nodes) (freq : SymTable Word) :
    (Forest.load q node freq).Loaded node freq allSymbols := by
  have h := loaded_foldl allSymbols (loaded_nil q node freq) (by simp [length_allSymbols])
  unfold Forest.load
  rw [pairs_eq_map, List.foldl_map]
  exact h

/-! ### What LOAD leaves, in the terms of the alphabet -/

theorem load_next (q : Queue) (r : Rams) : (Forest.load q r.node r.freq).next = r.alphabet.length :=
  (loaded_load q r.node r.freq).next_eq

theorem load_total (q : Queue) (r : Rams) : (Forest.load q r.node r.freq).total = r.freqSum :=
  (loaded_load q r.node r.freq).total_eq

theorem load_size (q : Queue) (r : Rams) : (Forest.load q r.node r.freq).queue.size = r.alphabet.length :=
  (loaded_load q r.node r.freq).size_eq

theorem load_live_perm (q : Queue) (r : Rams) : (Forest.load q r.node r.freq).queue.live.Perm r.leafEntries :=
  (loaded_load q r.node r.freq).live_perm

/-- Leaf `k` is the leaf of the `k`-th symbol of the alphabet. -/
theorem load_leaf (q : Queue) (r : Rams) (k : Nat) (h : k < r.alphabet.length) :
    (Forest.load q r.node r.freq).node.no k = NodeEntry.leaf r.alphabet[k] (r.freq.entry r.alphabet[k]) :=
  (loaded_load q r.node r.freq).leaf_eq k h

/-- The symbols of the alphabet ascend. -/
theorem alphabet_ascends (r : Rams) : r.alphabet.Pairwise fun a b => a.toNat < b.toNat := by
  refine List.Pairwise.filter _ (List.pairwise_map.2 ?_)
  refine List.Pairwise.imp_of_mem ?_ (List.pairwise_lt_range (n := 256))
  intro a b ha hb hab
  rw [List.mem_range] at ha hb
  simpa [Nat.mod_eq_of_lt ha, Nat.mod_eq_of_lt hb] using hab

/-- The frequencies of the alphabet sum to those of all symbols: the others are 0. -/
theorem sum_alphabet (r : Rams) : (r.alphabet.map fun s => (r.freq.entry s).toNat).sum = r.freqSum := by
  unfold Rams.alphabet Rams.freqSum
  induction allSymbols with
  | nil => rfl
  | cons s syms ih =>
    by_cases h : r.freq.entry s = 0#32 <;> simpa [h] using ih

end Sys2Proof.Machine
end

section
/-! SUPPORT. BUILD phase MERGE (41_tree_builder.md R95): the tree it makes as a term over node numbers, what it means that
the NODE RAM holds that tree, and the invariant of the loop: the queue holds the roots of trees that share out the nodes
made so far. -/

namespace Sys2Proof.Machine

/-! ### Trees over node numbers -/

/-- A binary tree whose leaves and inner nodes are node numbers. -/
inductive CodeTree where
  | leaf (i : Nat)
  | join (i : Nat) (l r : CodeTree)

namespace CodeTree

/-- The node number of the root. -/
def root : CodeTree → Nat
  | leaf i => i
  | join i _ _ => i

/-- All node numbers. -/
def nodes : CodeTree → List Nat
  | leaf i => [i]
  | join i l r => i :: (l.nodes ++ r.nodes)

/-- The node numbers of the leaves. -/
def leaves : CodeTree → List Nat
  | leaf i => [i]
  | join _ l r => l.leaves ++ r.leaves

/-- The leaves with their paths from the root, LEFT = 0 and RIGHT = 1 (42_code_table.md R100). -/
def paths : CodeTree → List (Nat × List Bool)
  | leaf i => [(i, [])]
  | join _ l r => (l.paths.map fun x => (x.1, false :: x.2)) ++ r.paths.map fun x => (x.1, true :: x.2)

/-- The NODE RAM holds the tree: its leaves are numbered below `n`, and each join is an internal node, numbered from `n` on
and above its children, whose frequency is the sum of theirs (10_state.md R38 item 2). -/
def HeldIn (node : Nodes) (n : Nat) : CodeTree → Prop
  | leaf i => i < n
  | join i l r =>
    n ≤ i ∧ l.root < i ∧ r.root < i ∧
      node.no i = NodeEntry.internal (node.no i).freq (BitVec.ofNat 9 l.root) (BitVec.ofNat 9 r.root) ∧
      (node.no i).freq.toNat = (node.no l.root).freq.toNat + (node.no r.root).freq.toNat ∧
      l.HeldIn node n ∧ r.HeldIn node n

/-- The sum of the frequencies of the leaves. -/
def weight (node : Nodes) (t : CodeTree) : Nat := (t.leaves.map fun i => (node.no i).freq.toNat).sum

theorem root_join (i : Nat) (l r : CodeTree) : (join i l r).root = i := rfl

theorem root_mem_nodes (t : CodeTree) : t.root ∈ t.nodes := by cases t <;> simp [root, nodes]

theorem map_fst_paths (t : CodeTree) : t.paths.map Prod.fst = t.leaves := by
  induction t with
  | leaf i => rfl
  | join i l r ihl ihr => simp [paths, leaves, ← ihl, ← ihr, Function.comp_def]

theorem length_leaves_pos (t : CodeTree) : 1 ≤ t.leaves.length := by
  induction t with
  | leaf i => exact Nat.le_refl 1
  | join i l r ihl _ => rw [leaves, List.length_append]; omega

/-- A path is shorter than the number of leaves. -/
theorem length_path_lt (t : CodeTree) : ∀ x ∈ t.paths, x.2.length < t.leaves.length := by
  induction t with
  | leaf i => simp [paths, leaves]
  | join i l r ihl ihr =>
    have hl := l.length_leaves_pos
    have hr := r.length_leaves_pos
    simp only [paths, leaves, List.mem_append, List.mem_map, List.length_append]
    rintro _ (⟨x, hx, rfl⟩ | ⟨x, hx, rfl⟩)
    · have := ihl x hx; simp only [List.length_cons]; omega
    · have := ihr x hx; simp only [List.length_cons]; omega

section
variable {node : Nodes} {n : Nat}

/-- In a tree that NODE holds the root has the greatest number. -/
theorem HeldIn.le_root {t : CodeTree} (h : t.HeldIn node n) : ∀ i ∈ t.nodes, i ≤ t.root := by
  induction t with
  | leaf i => simp [nodes, root]
  | join k l r ihl ihr =>
    obtain ⟨-, hl, hr, -, -, heldl, heldr⟩ := h
    intro i hi
    simp only [nodes, List.mem_cons, List.mem_append] at hi
    rcases hi with rfl | hi | hi
    · exact Nat.le_refl _
    · have := ihl heldl i hi; simp only [root]; omega
    · have := ihr heldr i hi; simp only [root]; omega

/-- The frequency of the root is the sum of the frequencies of the leaves. -/
theorem HeldIn.freq_root {t : CodeTree} (h : t.HeldIn node n) : (node.no t.root).freq.toNat = t.weight node := by
  induction t with
  | leaf i => simp [root, weight, leaves]
  | join k l r ihl ihr =>
    obtain ⟨-, -, -, -, hf, heldl, heldr⟩ := h
    rw [root, hf, ihl heldl, ihr heldr]
    simp [weight, leaves]

/-- A NODE RAM that agrees on the nodes of the tree holds it too. -/
theorem HeldIn.congr {node' : Nodes} {t : CodeTree} (h : t.HeldIn node n) (e : ∀ i ∈ t.nodes, node'.no i = node.no i) :
    t.HeldIn node' n := by
  induction t with
  | leaf i => exact h
  | join k l r ihl ihr =>
    obtain ⟨hn, hl, hr, hk, hf, heldl, heldr⟩ := h
    simp only [nodes, List.mem_cons, List.mem_append] at e
    have el := fun i hi => e i (.inr (.inl hi))
    have er := fun i hi => e i (.inr (.inr hi))
    refine ⟨hn, hl, hr, ?_, ?_, ihl heldl el, ihr heldr er⟩
    · rw [e k (.inl rfl)]; exact hk
    · rw [e k (.inl rfl), el _ l.root_mem_nodes, er _ r.root_mem_nodes]; exact hf

/-- A node of the tree numbered from `n` on is a join of it, and what NODE holds there. -/
theorem HeldIn.join_of_mem {t : CodeTree} (h : t.HeldIn node n) : ∀ i ∈ t.nodes, n ≤ i →
    ∃ l r : CodeTree, (join i l r).HeldIn node n ∧ (∃ rest, t.nodes.Perm ((join i l r).nodes ++ rest)) := by
  induction t with
  | leaf k =>
    intro i hi hn
    have hk : k < n := h
    simp only [nodes, List.mem_singleton] at hi
    omega
  | join k l r ihl ihr =>
    intro i hi hn
    obtain ⟨-, -, -, -, -, heldl, heldr⟩ := id h
    simp only [nodes, List.mem_cons, List.mem_append] at hi
    rcases hi with rfl | hi | hi
    · exact ⟨l, r, h, [], by simp⟩
    · obtain ⟨a, b, hab, rest, hp⟩ := ihl heldl i hi hn
      refine ⟨a, b, hab, k :: (rest ++ r.nodes), ?_⟩
      refine ((hp.append_right r.nodes).cons k).trans ?_
      rw [List.append_assoc]
      exact List.perm_middle.symm
    · obtain ⟨a, b, hab, rest, hp⟩ := ihr heldr i hi hn
      refine ⟨a, b, hab, k :: (l.nodes ++ rest), ?_⟩
      refine ((hp.append_left l.nodes).cons k).trans ?_
      refine (List.Perm.cons k ?_).trans List.perm_middle.symm
      rw [← List.append_assoc, ← List.append_assoc]
      exact List.perm_append_comm.append_right rest

/-- Whether NODE has node `j` as a child of node `i`. -/
def isChild (node : Nodes) (n j i : Nat) : Bool := n ≤ i && ((node.no i).left.toNat == j || (node.no i).right.toNat == j)

/-- In a tree with distinct nodes every node but the root is the child of exactly one node, and the root of none. -/
theorem HeldIn.countP_isChild {t : CodeTree} (h : t.HeldIn node n) (hd : t.nodes.Nodup) (hmax : ∀ i ∈ t.nodes, i < 511)
    (j : Nat) : t.nodes.countP (isChild node n j) = if j ∈ t.nodes ∧ j ≠ t.root then 1 else 0 := by
  induction t with
  | leaf i =>
    have hi : i < n := h
    have hc : isChild node n j i = false := by simp [isChild]; omega
    simp [nodes, root, hc]
  | join k l r ihl ihr =>
    obtain ⟨hn, hl, hr, hk, -, heldl, heldr⟩ := h
    simp only [nodes, List.nodup_cons, List.nodup_append, List.mem_append, not_or] at hd
    obtain ⟨⟨hkl, hkr⟩, hdl, hdr, hne⟩ := hd
    simp only [nodes, List.mem_cons, List.mem_append] at hmax
    have hlmem := l.root_mem_nodes
    have hrmem := r.root_mem_nodes
    have hlr : l.root ≠ r.root := hne _ hlmem _ hrmem
    have hl511 := hmax l.root (.inr (.inl hlmem))
    have hr511 := hmax r.root (.inr (.inr hrmem))
    have hkc : isChild node n j k = decide (j = l.root ∨ j = r.root) := by
      rw [isChild, hk, Bool.eq_iff_iff]
      simp [NodeEntry.internal, hn, Nat.mod_eq_of_lt (show l.root < 512 by omega),
        Nat.mod_eq_of_lt (show r.root < 512 by omega)]
      omega
    rw [nodes, List.countP_cons, List.countP_append, ihl heldl hdl fun i hi => hmax i (.inr (.inl hi)),
      ihr heldr hdr fun i hi => hmax i (.inr (.inr hi)), hkc]
    have hjl : j ∈ l.nodes → j ∉ r.nodes ∧ j ≠ k := fun m => ⟨fun m' => hne j m j m' rfl, fun e => hkl (e ▸ m)⟩
    have hjr : j ∈ r.nodes → j ∉ l.nodes ∧ j ≠ k := fun m => ⟨fun m' => hne j m' j m rfl, fun e => hkr (e ▸ m)⟩
    simp only [List.mem_cons, List.mem_append, root_join]
    by_cases jl : j ∈ l.nodes
    · obtain ⟨jr, jk⟩ := hjl jl
      have hjr : j ≠ r.root := fun e => jr (e ▸ hrmem)
      simp only [jl, jr, jk, hjr, ne_eq]
      by_cases e : j = l.root <;> simp [e]
    · have hjl : j ≠ l.root := fun e => jl (e ▸ hlmem)
      by_cases jr : j ∈ r.nodes
      · obtain ⟨-, jk⟩ := hjr jr
        simp only [jl, jr, jk, hjl, ne_eq]
        by_cases e : j = r.root <;> simp [e]
      · have hjr : j ≠ r.root := fun e => jr (e ▸ hrmem)
        simp [jl, jr, hjl, hjr]

end
end CodeTree

/-! ### The loop -/

/-- If a list maps to one that begins with `a` up to order, one of its elements maps to `a`. -/
theorem exists_perm_cons_of_perm_map {α β : Type} {f : α → β} {l : List α} {a : β} {bs : List β}
    (h : (a :: bs).Perm (l.map f)) : ∃ x rest, l.Perm (x :: rest) ∧ f x = a ∧ bs.Perm (rest.map f) := by
  obtain ⟨x, hx, rfl⟩ := List.mem_map.1 (h.subset (List.mem_cons_self))
  obtain ⟨u, v, rfl⟩ := List.append_of_mem hx
  refine ⟨x, u ++ v, List.perm_middle, rfl, ?_⟩
  have hp : ((u ++ x :: v).map f).Perm (f x :: (u ++ v).map f) := List.perm_middle.map f
  exact (h.trans hp).cons_inv

/-- The state of MERGE over `n` leaves: the live entries are those of the roots of `trees`, which NODE holds and which
share out the nodes made so far and the leaves. -/
structure Forest.Holds (t : Forest) (n : Nat) (trees : List CodeTree) : Prop where
  base : n ≤ t.next
  count : t.next + t.queue.size = 2 * n
  tags : (t.queue.live.map HeapEntry.tag).Perm (trees.map fun x => BitVec.ofNat 9 x.root)
  keys : ∀ e ∈ t.queue.live, e.key = (t.node.entry e.tag).freq
  held : ∀ x ∈ trees, x.HeldIn t.node n
  nodes : (trees.flatMap CodeTree.nodes).Perm (List.range t.next)
  leaves : (trees.flatMap CodeTree.leaves).Perm (List.range n)

/-- The order of the trees does not matter. -/
theorem Forest.Holds.of_perm {t : Forest} {n : Nat} {trees trees' : List CodeTree} (h : t.Holds n trees)
    (p : trees.Perm trees') : t.Holds n trees' :=
  { h with
    tags := h.tags.trans (p.map _)
    held := fun x hx => h.held x (p.symm.subset hx)
    nodes := (p.symm.flatMap_right _).trans h.nodes
    leaves := (p.symm.flatMap_right _).trans h.leaves }

/-- The sum of the frequencies of leaves 0 .. n-1. -/
def leafSum (node : Nodes) (n : Nat) : Nat := ((List.range n).map fun i => (node.no i).freq.toNat).sum

/-- The trees weigh together as much as all leaves. -/
theorem Forest.Holds.sum_weight {t : Forest} {n : Nat} {trees : List CodeTree} (h : t.Holds n trees) :
    (trees.map fun x => x.weight t.node).sum = leafSum t.node n := by
  rw [leafSum, ← (h.leaves.map _).sum_eq, List.map_flatMap]
  simp [CodeTree.weight, List.flatMap_def, List.sum_flatten, Function.comp_def]

section
variable {t : Forest} {n : Nat} {trees : List CodeTree}

/-- The nodes of the trees are the nodes made so far. -/
theorem Forest.Holds.lt_next (h : t.Holds n trees) {x : CodeTree} (hx : x ∈ trees) : ∀ i ∈ x.nodes, i < t.next :=
  fun _ hi => List.mem_range.1 (h.nodes.subset (List.mem_flatMap.2 ⟨x, hx, hi⟩))

/-- MERGE's body joins two of the trees under the next node and leaves the other nodes (41_tree_builder.md R95). -/
theorem Forest.Holds.mergeOnce (h : t.Holds n trees) (hn : n ≤ 256) (hsum : leafSum t.node n < 2 ^ 32)
    (h2 : 2 ≤ t.queue.size) :
    ∃ a b rest, trees.Perm (a :: b :: rest) ∧
      t.mergeOnce.Holds n (.join t.next a b :: rest) ∧
      ∀ i, i < 511 → i ≠ t.next → t.mergeOnce.node.no i = t.node.no i := by
  have hcount := h.count
  have hbase := h.base
  -- the two entries extracted and the trees they stand for
  obtain ⟨p1, -, -⟩ := pop_spec t.queue (by omega) (by omega)
  obtain ⟨p2, -, -⟩ := pop_spec t.queue.pop (by rw [pop_size]; omega) (by rw [pop_size]; omega)
  obtain ⟨p3, -⟩ := insert_spec t.queue.pop.pop (t.queue.top.key + t.queue.pop.top.key) (BitVec.ofNat 9 t.next)
    (by rw [pop_size, pop_size]; omega)
  have hxy : (t.queue.top :: t.queue.pop.top :: t.queue.pop.pop.live).Perm t.queue.live := (p2.cons _).trans p1
  obtain ⟨a, rest1, hp1, ha, ht1⟩ := exists_perm_cons_of_perm_map ((hxy.map HeapEntry.tag).trans h.tags)
  obtain ⟨b, rest, hp2, hb, ht2⟩ := exists_perm_cons_of_perm_map ht1
  have hperm : trees.Perm (a :: b :: rest) := hp1.trans (hp2.cons a)
  refine ⟨a, b, rest, hperm, ?_⟩
  replace h := h.of_perm hperm
  have hnode (i : Nat) (hi : i < 511) := no_store t.node
    (NodeEntry.internal (t.queue.top.key + t.queue.pop.top.key) t.queue.top.tag t.queue.pop.top.tag)
    (show t.next < 511 by omega) hi
  have hold (i : Nat) (hi : i < t.next) : t.mergeOnce.node.no i = t.node.no i :=
    (hnode i (by omega)).trans (if_neg (by omega))
  have hnew : t.mergeOnce.node.no t.next = _ := (hnode t.next (by omega)).trans (if_pos rfl)
  have halt := h.lt_next (x := a) (by simp)
  have hblt := h.lt_next (x := b) (by simp)
  have hacc : ∀ x ∈ a :: b :: rest, x.HeldIn t.mergeOnce.node n := fun x hx =>
    (h.held x hx).congr fun i hi => hold i (h.lt_next hx i hi)
  -- the keys extracted are the weights of the two trees, so their sum does not overflow
  have hkx : t.queue.top.key = (t.node.no a.root).freq := by
    rw [h.keys _ (hxy.subset (by simp)), ← ha]
  have hky : t.queue.pop.top.key = (t.node.no b.root).freq := by
    rw [h.keys _ (hxy.subset (by simp)), ← hb]
  have hno : (t.node.no a.root).freq.toNat + (t.node.no b.root).freq.toNat < 2 ^ 32 := by
    have := h.sum_weight
    rw [List.map_cons, List.map_cons, List.sum_cons, List.sum_cons] at this
    rw [(h.held a (by simp)).freq_root, (h.held b (by simp)).freq_root]
    omega
  refine ⟨?_, fun i hi hne => (hnode i hi).trans (if_neg hne)⟩
  constructor
  case base => exact Nat.le_succ_of_le hbase
  case count =>
    show t.next + 1 + (t.queue.pop.pop.size + 1) = 2 * n
    rw [pop_size, pop_size]; omega
  case tags => exact (p3.map _).trans (ht2.cons _)
  case keys =>
    intro e he
    rcases List.mem_cons.1 (p3.subset he) with rfl | he
    · exact (congrArg NodeEntry.freq hnew).symm
    · rw [h.keys e (hxy.subset (by simp [he]))]
      obtain ⟨x, hx, hxe⟩ := List.mem_map.1 (ht2.subset (List.mem_map_of_mem he))
      rw [← hxe]
      exact congrArg NodeEntry.freq (hold x.root (h.lt_next (by simp [hx]) _ x.root_mem_nodes)).symm
  case held =>
    intro x hx
    rcases List.mem_cons.1 hx with rfl | hx
    · refine ⟨hbase, halt _ a.root_mem_nodes, hblt _ b.root_mem_nodes, ?_, ?_, hacc a (by simp), hacc b (by simp)⟩
      · rw [hnew, ha, hb]; rfl
      · rw [hnew, hold _ (halt _ a.root_mem_nodes), hold _ (hblt _ b.root_mem_nodes)]
        show (t.queue.top.key + t.queue.pop.top.key).toNat = _
        rw [BitVec.toNat_add, hkx, hky, Nat.mod_eq_of_lt hno]
    · exact hacc x (by simp [hx])
  case nodes =>
    have := h.nodes
    show (t.next :: (a.nodes ++ b.nodes) ++ rest.flatMap CodeTree.nodes).Perm (List.range (t.next + 1))
    rw [List.range_succ]
    refine (List.Perm.cons _ ?_).trans (List.perm_append_singleton _ _).symm
    simpa using this
  case leaves =>
    have := h.leaves
    simpa [CodeTree.leaves] using this

end

/-- MERGE ends with one tree, and changes no node below `n` (41_tree_builder.md R95). -/
theorem Forest.Holds.merge {n : Nat} (hn : n ≤ 256) (fuel : Nat) : ∀ {t : Forest} {trees : List CodeTree},
    t.Holds n trees → leafSum t.node n < 2 ^ 32 → 1 ≤ t.queue.size → t.queue.size ≤ fuel + 1 →
    (∃ trees', (Forest.merge fuel t).Holds n trees') ∧ (Forest.merge fuel t).queue.size = 1 ∧
      (Forest.merge fuel t).total = t.total ∧
      ∀ i, i < 511 → (i < t.next ∨ 2 * n - 1 ≤ i) → (Forest.merge fuel t).node.no i = t.node.no i := by
  induction fuel with
  | zero => intro t trees h _ h1 h2; exact ⟨⟨trees, h⟩, by simp only [Forest.merge]; omega, rfl, fun _ _ _ => rfl⟩
  | succ fuel ih =>
    intro t trees h hsum h1 h2
    rw [Forest.merge]
    split
    · next hgt =>
      have hbase := h.base
      have hcount := h.count
      obtain ⟨a, b, rest, -, h', hframe⟩ := h.mergeOnce hn hsum hgt
      have hsum' : leafSum t.mergeOnce.node n = leafSum t.node n := by
        unfold leafSum
        congr 1
        refine List.map_congr_left fun i hi => ?_
        rw [List.mem_range] at hi
        rw [hframe i (by omega) (by omega)]
      have hsize : t.mergeOnce.queue.size = t.queue.size - 1 := by
        show t.queue.size - 1 - 1 + 1 = _; omega
      have hnext : t.mergeOnce.next = t.next + 1 := rfl
      obtain ⟨g1, g2, g3, g4⟩ := ih h' (hsum' ▸ hsum) (by omega) (by omega)
      refine ⟨g1, g2, g3, fun i hi hor => ?_⟩
      rw [g4 i hi (by omega), hframe i hi (by omega)]
    · next hle => exact ⟨⟨trees, h⟩, by omega, rfl, fun _ _ _ => rfl⟩

/-- The entries of leaves are tagged with their numbers, in order. -/
theorem map_tag_leafEntriesOf (freq : SymTable Word) (syms : List Byte) :
    (leafEntriesOf freq syms).map HeapEntry.tag = (List.range syms.length).map (BitVec.ofNat 9) := by
  rw [leafEntriesOf, List.map_map, List.range_eq_range', ← List.zipIdx_map_snd (l := syms), List.map_map]
  rfl

/-- LOAD leaves one tree for each symbol of the alphabet. -/
theorem load_holds (q : Queue) (r : Rams) :
    (Forest.load q r.node r.freq).Holds r.alphabet.length ((List.range r.alphabet.length).map CodeTree.leaf) where
  base := by rw [load_next]
  count := by rw [load_next, load_size]; omega
  tags := by
    refine ((load_live_perm q r).map _).trans ?_
    rw [← leafEntriesOf_alphabet, map_tag_leafEntriesOf, List.map_map]
    exact .refl _
  keys e he := by
    have hmem := (load_live_perm q r).subset he
    simp only [Rams.leafEntries, List.mem_map] at hmem
    obtain ⟨⟨s, k⟩, hp, rfl⟩ := hmem
    obtain ⟨hk, hs⟩ := List.mem_zipIdx' hp
    rw [show (Forest.load q r.node r.freq).node.entry (BitVec.ofNat 9 k) = _ from load_leaf q r k hk, ← hs]
    rfl
  held x hx := by
    obtain ⟨i, hi, rfl⟩ := List.mem_map.1 hx
    exact List.mem_range.1 hi
  nodes := by
    rw [load_next, List.flatMap_map]
    simp [CodeTree.nodes]
  leaves := by
    rw [List.flatMap_map]
    simp [CodeTree.leaves]

end Sys2Proof.Machine
end

section
/-! SUPPORT. BUILD phase CODEGEN (42_code_table.md R100, R101): the table it writes for a tree that NODE holds, and the tree
invariant (10_state.md R38) of a state with such a tree and table. -/

namespace Sys2Proof.Machine

/-! ### Recording codes -/

/-- A table with the codes of a list recorded, in order. -/
def CodeTable.recordAll (c : CodeTable) (codes : List (Byte × List Bool)) : CodeTable :=
  codes.foldl (fun c x => c.record x.1 x.2) c

theorem recordAll_cons (c : CodeTable) (x : Byte × List Bool) (codes : List (Byte × List Bool)) :
    c.recordAll (x :: codes) = (c.record x.1 x.2).recordAll codes := rfl

theorem recordAll_append (c : CodeTable) (xs ys : List (Byte × List Bool)) :
    c.recordAll (xs ++ ys) = (c.recordAll xs).recordAll ys := List.foldl_append

/-- A symbol that is not in the list keeps its entries. -/
theorem recordAll_of_not_mem (codes : List (Byte × List Bool)) : ∀ (c : CodeTable) (s : Byte), s ∉ codes.map Prod.fst →
    (c.recordAll codes).len.entry s = c.len.entry s ∧ (c.recordAll codes).bits.entry s = c.bits.entry s := by
  induction codes with
  | nil => intro c s _; exact ⟨rfl, rfl⟩
  | cons x codes ih =>
    intro c s hs
    rw [List.map_cons, List.mem_cons, not_or] at hs
    rw [recordAll_cons, (ih _ s hs.2).1, (ih _ s hs.2).2]
    simp [CodeTable.record, hs.1]

/-- With distinct symbols each symbol of the list gets its path. -/
theorem recordAll_of_mem (codes : List (Byte × List Bool)) : ∀ (c : CodeTable), (codes.map Prod.fst).Nodup → ∀ x ∈ codes,
    (c.recordAll codes).len.entry x.1 = BitVec.ofNat 8 x.2.length ∧
      (c.recordAll codes).bits.entry x.1 = BitVec.ofNat 255 (pathNat x.2) := by
  induction codes with
  | nil => intro c _ x hx; exact absurd hx (by simp)
  | cons y codes ih =>
    intro c hd x hx
    rw [List.map_cons, List.nodup_cons] at hd
    rw [recordAll_cons]
    rcases List.mem_cons.1 hx with rfl | hx
    · rw [(recordAll_of_not_mem codes _ _ hd.1).1, (recordAll_of_not_mem codes _ _ hd.1).2]
      simp [CodeTable.record]
    · exact ih _ hd.2 x hx

/-- The longest recorded length: a bound of all of them, reached by one of them or by the table before. -/
theorem recordAll_maxlen (codes : List (Byte × List Bool)) : ∀ (c : CodeTable),
    c.maxlen ≤ (c.recordAll codes).maxlen ∧ (∀ x ∈ codes, x.2.length ≤ (c.recordAll codes).maxlen) ∧
      ((c.recordAll codes).maxlen = c.maxlen ∨ ∃ x ∈ codes, (c.recordAll codes).maxlen = x.2.length) := by
  induction codes with
  | nil => intro c; exact ⟨Nat.le_refl _, by simp, .inl rfl⟩
  | cons y codes ih =>
    intro c
    obtain ⟨h1, h2, h3⟩ := ih (c.record y.1 y.2)
    have hm : (c.record y.1 y.2).maxlen = max c.maxlen y.2.length := rfl
    rw [recordAll_cons]
    refine ⟨by omega, ?_, ?_⟩
    · intro x hx
      rcases List.mem_cons.1 hx with rfl | hx
      · omega
      · exact h2 x hx
    · rcases h3 with h3 | ⟨x, hx, e⟩
      · rcases Nat.le_total c.maxlen y.2.length with hle | hle
        · exact .inr ⟨y, by simp, by omega⟩
        · exact .inl (by omega)
      · exact .inr ⟨x, by simp [hx], e⟩

/-! ### Paths as code bits -/

theorem pathNat_lt (p : List Bool) : pathNat p < 2 ^ p.length := by
  induction p with
  | nil => simp [pathNat]
  | cons b p ih =>
    have hb := Bool.toNat_le b
    rw [pathNat, List.length_cons, Nat.pow_succ]
    omega

/-- Bit `j` of a path as a number is step `j` (10_state.md R35). -/
theorem testBit_pathNat (p : List Bool) : ∀ j, (pathNat p).testBit j = p.getD j false := by
  induction p with
  | nil => simp [pathNat]
  | cons b p ih =>
    intro j
    cases j with
    | zero => cases b <;> simp [pathNat, Nat.testBit_zero]
    | succ j =>
      rw [List.getD_cons_succ, ← ih j, Nat.testBit_succ, pathNat]
      congr 1
      have hb := Bool.toNat_le b
      omega

/-- A path of at most 255 steps, recorded, reads back as the code. -/
theorem code_of_path (r : Rams) (s : Byte) (p : List Bool) (hp : p.length ≤ 255)
    (hl : r.codeLen.entry s = BitVec.ofNat 8 p.length) (hb : r.codeBits.entry s = BitVec.ofNat 255 (pathNat p)) :
    r.code s = p := by
  have hlen : (r.codeLen.entry s).toNat = p.length := by
    rw [hl, BitVec.toNat_ofNat, Nat.mod_eq_of_lt (by omega)]
  rw [Rams.code, hlen, hb]
  apply List.ext_getElem (by simp)
  intro j h1 h2
  rw [List.getElem_map, List.getElem_range, BitVec.getLsbD_ofNat, testBit_pathNat]
  simp [h2, show j < 255 by omega]

/-! ### The table of a tree -/

namespace CodeTree

/-- The symbols of a tree with their codes: the paths to the leaves, or "0" for a lone symbol (42_code_table.md R100,
R101). -/
def codes (node : Nodes) : CodeTree → List (Byte × List Bool)
  | leaf i => [((node.no i).symbol, [false])]
  | join i l r => (join i l r).paths.map fun x => ((node.no x.1).symbol, x.2)

theorem map_fst_codes (node : Nodes) (t : CodeTree) :
    (t.codes node).map Prod.fst = t.leaves.map fun i => (node.no i).symbol := by
  cases t with
  | leaf i => rfl
  | join i l r => rw [codes, ← map_fst_paths, List.map_map, List.map_map]; rfl

/-- Each leaf has a code. -/
theorem exists_code (node : Nodes) (t : CodeTree) {i : Nat} (hi : i ∈ t.leaves) :
    ∃ p, ((node.no i).symbol, p) ∈ t.codes node := by
  have h : (node.no i).symbol ∈ (t.codes node).map Prod.fst := by
    rw [map_fst_codes]; exact List.mem_map_of_mem hi
  obtain ⟨⟨s, p⟩, hx, rfl⟩ := List.mem_map.1 h
  exact ⟨p, hx⟩

/-- A code has at least one bit, and at most one bit less than there are leaves, or one. -/
theorem length_code (node : Nodes) (t : CodeTree) : ∀ x ∈ t.codes node,
    1 ≤ x.2.length ∧ x.2.length ≤ max 1 (t.leaves.length - 1) := by
  cases t with
  | leaf i => simp [codes]
  | join i l r =>
    intro x hx
    obtain ⟨y, hy, rfl⟩ := List.mem_map.1 hx
    have hlt := length_path_lt _ y hy
    have hpos : 1 ≤ y.2.length := by
      simp only [paths, List.mem_append, List.mem_map] at hy
      rcases hy with ⟨z, -, rfl⟩ | ⟨z, -, rfl⟩ <;> simp
    exact ⟨hpos, by simp only; omega⟩

/-- NODE holds a tree of all of its `2n - 1` nodes, whose leaves `0 .. n-1` have ascending symbols (10_state.md R38). -/
structure Spans (t : CodeTree) (node : Nodes) (n : Nat) : Prop where
  le : n ≤ 256
  held : t.HeldIn node n
  nodes : t.nodes.Perm (List.range (2 * n - 1))
  leaves : t.leaves.Perm (List.range n)
  leaf_eq : ∀ i < n, node.no i = NodeEntry.leaf (node.no i).symbol (node.no i).freq
  ascends : ∀ i < n, ∀ j < i, (node.no j).symbol.toNat < (node.no i).symbol.toNat

section
variable {node : Nodes} {n : Nat}

/-- visit records the paths to the leaves, after the path it is given; fuel for as many levels as there are leaves is
enough (42_code_table.md R100, R104). -/
theorem HeldIn.visit_eq (hleaf : ∀ i < n, (node.no i).isLeaf = true) {t : CodeTree} : t.HeldIn node n →
    ∀ (fuel : Nat) (p : List Bool) (c : CodeTable), t.leaves.length ≤ fuel →
      visit node fuel (BitVec.ofNat 9 t.root) p c =
        c.recordAll (t.paths.map fun x => ((node.no x.1).symbol, p ++ x.2)) := by
  induction t with
  | leaf i =>
    intro h fuel p c hf
    obtain ⟨fuel, rfl⟩ : ∃ k, fuel = k + 1 := ⟨fuel - 1, by simp only [CodeTree.leaves, List.length_singleton] at hf; omega⟩
    simp only [visit, root, show (node.entry (BitVec.ofNat 9 i)).isLeaf = true from hleaf i h, if_true]
    simp [paths, CodeTable.recordAll]
  | join i l r ihl ihr =>
    intro h fuel p c hf
    obtain ⟨-, -, -, hi, -, heldl, heldr⟩ := h
    have hl := l.length_leaves_pos
    have hr := r.length_leaves_pos
    rw [CodeTree.leaves, List.length_append] at hf
    obtain ⟨fuel, rfl⟩ : ∃ k, fuel = k + 1 := ⟨fuel - 1, by omega⟩
    have hnode : node.entry (BitVec.ofNat 9 (join i l r).root) = _ := hi
    simp only [visit, hnode, NodeEntry.internal, Bool.false_eq_true, if_false]
    rw [ihl heldl fuel _ _ (by omega), ihr heldr fuel _ _ (by omega), ← recordAll_append]
    simp [paths, Function.comp_def]

/-- Following the path to a leaf from the root arrives at it. -/
theorem HeldIn.follow_path {t : CodeTree} (h : t.HeldIn node n) :
    ∀ x ∈ t.paths, node.follow (BitVec.ofNat 9 t.root) x.2 = some (BitVec.ofNat 9 x.1) := by
  induction t with
  | leaf i => simp [paths, root, Nodes.follow]
  | join i l r ihl ihr =>
    obtain ⟨-, -, -, hi, -, heldl, heldr⟩ := h
    have hnode : node.entry (BitVec.ofNat 9 (join i l r).root) = _ := hi
    simp only [paths, List.mem_append, List.mem_map]
    rintro _ (⟨x, hx, rfl⟩ | ⟨x, hx, rfl⟩)
    · simpa [Nodes.follow, hnode, NodeEntry.internal] using ihl heldl x hx
    · simpa [Nodes.follow, hnode, NodeEntry.internal] using ihr heldr x hx

/-- Following one path after another. -/
theorem follow_append (node : Nodes) (p q : List Bool) : ∀ i,
    node.follow i (p ++ q) = (node.follow i p).bind fun k => node.follow k q := by
  induction p with
  | nil => intro i; rfl
  | cons b p ih =>
    intro i
    rw [List.cons_append, Nodes.follow, Nodes.follow]
    split
    · rfl
    · exact ih _

/-- A path that goes on from a leaf leads nowhere: two paths to leaves, one of which begins with the other, are equal. -/
theorem follow_prefix_eq {i a b : NodeIdx} {p q : List Bool} (hp : node.follow i p = some a)
    (hq : node.follow i q = some b) (ha : (node.entry a).isLeaf = true) (h : p <+: q) : a = b := by
  obtain ⟨rest, rfl⟩ := h
  rw [follow_append, hp, Option.bind_some] at hq
  cases rest with
  | nil => exact Option.some.inj hq
  | cons c rest => simp [Nodes.follow, ha] at hq

namespace Spans
variable {t : CodeTree} (h : t.Spans node n)
include h

theorem pos : 1 ≤ n := by
  have hl := h.leaves.length_eq
  have hpos := t.length_leaves_pos
  rw [List.length_range] at hl
  omega

theorem length_leaves : t.leaves.length = n := by rw [h.leaves.length_eq, List.length_range]

theorem mem_nodes (i : Nat) : i ∈ t.nodes ↔ i < 2 * n - 1 := by rw [h.nodes.mem_iff, List.mem_range]

theorem mem_leaves (i : Nat) : i ∈ t.leaves ↔ i < n := by rw [h.leaves.mem_iff, List.mem_range]

theorem nodup : t.nodes.Nodup := h.nodes.nodup_iff.2 List.nodup_range

/-- The root is the last node (10_state.md R38 item 3). -/
theorem root_eq : t.root = 2 * n - 2 := by
  have hpos := h.pos
  have h1 := h.held.le_root (2 * n - 2) ((h.mem_nodes _).2 (by omega))
  have h2 := (h.mem_nodes _).1 t.root_mem_nodes
  omega

theorem isLeaf (i : Nat) (hi : i < n) : (node.no i).isLeaf = true := by rw [h.leaf_eq i hi]; rfl

/-- The symbols of different leaves differ. -/
theorem symbol_inj {i j : Nat} (hi : i < n) (hj : j < n) (e : (node.no i).symbol = (node.no j).symbol) : i = j := by
  rcases Nat.lt_trichotomy i j with hlt | heq | hlt
  · have := h.ascends j hj i hlt; rw [e] at this; omega
  · exact heq
  · have := h.ascends i hi j hlt; rw [e] at this; omega

/-- The symbols of the code table are distinct. -/
theorem nodup_codes : ((t.codes node).map Prod.fst).Nodup := by
  rw [map_fst_codes]
  refine List.Nodup.map_on ?_ (h.leaves.nodup_iff.2 List.nodup_range)
  exact fun i hi j hj e => h.symbol_inj ((h.mem_leaves i).1 hi) ((h.mem_leaves j).1 hj) e

/-- The symbols of the code table are those of the leaves. -/
theorem mem_map_codes (s : Byte) : s ∈ (t.codes node).map Prod.fst ↔ ∃ i < n, (node.no i).symbol = s := by
  simp only [map_fst_codes, List.mem_map, h.mem_leaves]

/-- The code lengths fit CODE_LEN (42_code_table.md R104). -/
theorem length_code_le {x : Byte × List Bool} (hx : x ∈ t.codes node) : 1 ≤ x.2.length ∧ x.2.length ≤ 255 := by
  have := t.length_code node x hx
  have hle := h.le
  rw [h.length_leaves] at this
  omega

/-- For two leaves or more the code of a leaf leads to it from the root. -/
theorem follow_code (h2 : 2 ≤ n) {i : Nat} (hi : i < n) {p : List Bool} (hp : ((node.no i).symbol, p) ∈ t.codes node) :
    node.follow (BitVec.ofNat 9 t.root) p = some (BitVec.ofNat 9 i) := by
  cases t with
  | leaf k => have := h.length_leaves; simp only [CodeTree.leaves, List.length_singleton] at this; omega
  | join k l r =>
    obtain ⟨x, hx, e⟩ := List.mem_map.1 hp
    obtain ⟨es, rfl⟩ := Prod.mk.inj e
    have hxl : x.1 ∈ (join k l r).leaves := by rw [← map_fst_paths]; exact List.mem_map_of_mem hx
    rw [h.held.follow_path x hx, h.symbol_inj ((h.mem_leaves _).1 hxl) hi es]

/-- CODEGEN records the codes of the tree in a cleared table (42_code_table.md R100, R101). -/
theorem codegen_eq : codegen node n (BitVec.ofNat 9 t.root) =
    CodeTable.recordAll ⟨Vector.replicate 256 0, Vector.replicate 256 0, 0⟩ (t.codes node) := by
  have hlen := h.length_leaves
  have hle := h.le
  unfold codegen
  cases t with
  | leaf i =>
    simp only [CodeTree.leaves, List.length_singleton] at hlen
    rw [if_pos hlen.symm]; rfl
  | join i l r =>
    have hl := l.length_leaves_pos
    have hr := r.length_leaves_pos
    have hn : n ≠ 1 := by rw [CodeTree.leaves, List.length_append] at hlen; omega
    rw [if_neg hn, h.held.visit_eq h.isLeaf 256 [] _ (by omega)]
    rfl

/-- NODE meets items 1 and 2 of the tree invariant. -/
theorem treeShape {r : Rams} (hr : r.node = node) : r.treeShape n := by
  subst hr
  have hpos := h.pos
  have hle := h.le
  refine ⟨fun i hi => ?_, h.ascends, fun i hi hin => ?_, fun j hj => ?_⟩
  · rw [nodeNo_eq_no, h.leaf_eq i hi]; exact ⟨rfl, rfl, rfl⟩
  · obtain ⟨a, b, ⟨-, ha, hb, hno, hf, -, -⟩, rest, hp⟩ := h.held.join_of_mem i ((h.mem_nodes i).2 hi) hin
    have hd := hp.nodup_iff.1 h.nodup
    have hab : a.root ≠ b.root := by
      simp only [CodeTree.nodes, List.cons_append, List.nodup_cons, List.nodup_append] at hd
      exact hd.2.1.2.2 _ a.root_mem_nodes _ b.root_mem_nodes
    rw [nodeNo_eq_no]
    rw [hno]
    simp only [NodeEntry.internal, BitVec.toNat_ofNat, Nat.mod_eq_of_lt (show a.root < 2 ^ 9 by omega),
      Nat.mod_eq_of_lt (show b.root < 2 ^ 9 by omega)]
    refine ⟨trivial, trivial, ?_, ha, hb, hf⟩
    rwa [ne_eq, nodeIdx_ofNat_inj (by omega) (by omega)]
  · have hc := h.held.countP_isChild h.nodup (fun i hi => by have := (h.mem_nodes i).1 hi; omega) j
    rw [if_pos ⟨(h.mem_nodes j).2 (by omega), by rw [h.root_eq]; omega⟩, h.nodes.countP_eq] at hc
    exact hc

section
variable {r : Rams}

/-- With the table CODEGEN writes, the code of a symbol is the one the tree gives it. -/
theorem code_eq (hl : r.codeLen = (codegen node n (BitVec.ofNat 9 t.root)).len)
    (hb : r.codeBits = (codegen node n (BitVec.ofNat 9 t.root)).bits) {x : Byte × List Bool} (hx : x ∈ t.codes node) :
    r.code x.1 = x.2 ∧ (r.codeLen.entry x.1).toNat = x.2.length ∧
      (r.codeBits.entry x.1).toNat < 2 ^ (r.codeLen.entry x.1).toNat := by
  rw [h.codegen_eq] at hl hb
  obtain ⟨el, eb⟩ := recordAll_of_mem (t.codes node) ⟨Vector.replicate 256 0, Vector.replicate 256 0, 0⟩ h.nodup_codes x hx
  rw [← hl] at el
  rw [← hb] at eb
  have hlen := h.length_code_le hx
  have e : (r.codeLen.entry x.1).toNat = x.2.length := by
    rw [el, BitVec.toNat_ofNat, Nat.mod_eq_of_lt (by omega)]
  refine ⟨code_of_path r x.1 x.2 hlen.2 el eb, e, ?_⟩
  rw [e, eb, BitVec.toNat_ofNat]
  exact (Nat.mod_le _ _).trans_lt (pathNat_lt x.2)

/-- With the table CODEGEN writes, a symbol that is no leaf's has no code. -/
theorem code_of_not_mem (hl : r.codeLen = (codegen node n (BitVec.ofNat 9 t.root)).len)
    (hb : r.codeBits = (codegen node n (BitVec.ofNat 9 t.root)).bits) {s : Byte} (hs : s ∉ (t.codes node).map Prod.fst) :
    r.codeLen.entry s = 0 ∧ r.codeBits.entry s = 0 := by
  rw [h.codegen_eq] at hl hb
  obtain ⟨el, eb⟩ := recordAll_of_not_mem (t.codes node) ⟨Vector.replicate 256 0, Vector.replicate 256 0, 0⟩ s hs
  rw [hl, hb, el, eb]
  exact ⟨entry_replicate _ _, entry_replicate _ _⟩

/-- The table CODEGEN writes meets items 4 and 5 of the tree invariant. -/
theorem codesShape (hn : r.node = node) (hl : r.codeLen = (codegen node n (BitVec.ofNat 9 t.root)).len)
    (hb : r.codeBits = (codegen node n (BitVec.ofNat 9 t.root)).bits) : r.codesShape n (2 * n - 2) := by
  subst hn
  have hcode {i : Nat} (hi : i < n) : ∃ p, ((r.node.no i).symbol, p) ∈ t.codes r.node ∧ r.code (r.node.no i).symbol = p := by
    obtain ⟨p, hp⟩ := t.exists_code r.node ((h.mem_leaves i).2 hi)
    exact ⟨p, hp, (h.code_eq hl hb hp).1⟩
  have hfollow (h2 : 2 ≤ n) (i : Nat) (hi : i < n) :
      r.node.follow (BitVec.ofNat 9 t.root) (r.code (r.node.no i).symbol) = some (BitVec.ofNat 9 i) := by
    obtain ⟨p, hp, e⟩ := hcode hi
    rw [e]; exact h.follow_code h2 hi hp
  refine ⟨fun s _ => ?_, fun h1 => ?_, fun h2 => ?_, fun i hi j hj hij => ?_⟩
  · have hiff : (∃ i < n, (r.nodeNo i).symbol = s) ↔ _ := (h.mem_map_codes s).symm
    rw [hiff]
    by_cases hs : s ∈ (t.codes r.node).map Prod.fst
    · obtain ⟨x, hx, rfl⟩ := List.mem_map.1 hs
      obtain ⟨-, e, hlt⟩ := h.code_eq hl hb hx
      have hpos := (h.length_code_le hx).1
      have hne : r.codeLen.entry x.1 ≠ 0 := by
        intro z
        rw [z, show BitVec.toNat (0 : BitVec 8) = 0 from rfl] at e
        omega
      exact ⟨iff_of_true hne hs, hlt⟩
    · obtain ⟨e, eb⟩ := h.code_of_not_mem hl hb hs
      exact ⟨iff_of_false (not_not_intro e) hs, by rw [e, eb]; decide⟩
  · obtain ⟨p, hp, e⟩ := hcode (i := 0) (by omega)
    rw [nodeNo_eq_no, e]
    cases t with
    | leaf k => exact (Prod.mk.inj (List.mem_singleton.1 hp)).2
    | join k a b =>
      have hlen := h.length_leaves
      have ha := a.length_leaves_pos
      have hb := b.length_leaves_pos
      rw [CodeTree.leaves, List.length_append] at hlen
      omega
  · rw [← h.root_eq]; exact hfollow h2
  · rw [Bool.eq_false_iff]
    intro hpre
    rw [List.isPrefixOf_iff_prefix] at hpre
    have hle := h.le
    have e := follow_prefix_eq (hfollow (by omega) i hi) (hfollow (by omega) j hj) (h.isLeaf i hi) hpre
    exact hij ((nodeIdx_ofNat_inj (by omega) (by omega)).1 e)

/-- The longest length CODEGEN reports is reached by a leaf and bounds every leaf's length (10_state.md R27). -/
theorem maxlen_eq : (∀ x ∈ t.codes node, x.2.length ≤ (codegen node n (BitVec.ofNat 9 t.root)).maxlen) ∧
    ∃ x ∈ t.codes node, (codegen node n (BitVec.ofNat 9 t.root)).maxlen = x.2.length := by
  rw [h.codegen_eq]
  obtain ⟨-, hle, hor⟩ := recordAll_maxlen (t.codes node) ⟨Vector.replicate 256 0, Vector.replicate 256 0, 0⟩
  refine ⟨hle, hor.resolve_left fun hz => ?_⟩
  obtain ⟨p, hp⟩ := t.exists_code node ((h.mem_leaves 0).2 h.pos)
  have h1 := hle _ hp
  have h2 := (h.length_code_le hp).1
  rw [hz] at h1
  exact absurd (h2.trans h1) (by simp)

end

/-- The frequency of the root is the sum of those of the leaves. -/
theorem freq_root : (node.no (2 * n - 2)).freq.toNat = leafSum node n := by
  rw [← h.root_eq, h.held.freq_root, weight, (h.leaves.map _).sum_eq, leafSum]

end Spans
end
end CodeTree
end Sys2Proof.Machine
end

section
/-! SUPPORT. BUILD as a whole (41_tree_builder.md R92 to R96): its three ends, and the tree invariant of the state a
successful one leaves. -/

namespace Sys2Proof.Machine

/-- What LOAD leaves in BUILD. -/
def State.loaded (s : State) : Forest := Forest.load s.queue s.ram.node s.ram.freq

/-- What MERGE leaves in BUILD. -/
def State.merged (s : State) : Forest := Forest.merge s.ram.alphabet.length s.loaded

/-- The code table CODEGEN writes in BUILD. -/
def State.buildCodes (s : State) : CodeTable :=
  codegen s.merged.node s.ram.alphabet.length s.merged.queue.top.tag

/-- The state before the completion of a BUILD that succeeds. -/
def State.built (s : State) : State :=
  ((s.withForest { s.merged with queue := s.merged.queue.pop }).withCodes s.buildCodes).withTree
    s.ram.alphabet.length s.merged.next s.merged.total s.buildCodes.maxlen s.merged.queue.top.tag

/-- BUILD in the terms of the alphabet and the sum of the frequencies (41_tree_builder.md R92). -/
theorem execBuild_eq (s : State) : exec .build s = .next
    (if s.ram.alphabet.length = 0 then (s.withForest s.loaded).raise .emptyInput
     else if 0xFFFFFFFF < s.ram.freqSum then (s.withForest s.loaded).raise .freqOverflow
     else s.built.finish) := by
  show execBuild s = _
  simp only [execBuild, load_next, load_total]
  rfl

theorem execBuild_of_empty {s : State} (h : s.ram.alphabet = []) :
    exec .build s = .next ((s.withForest s.loaded).raise .emptyInput) := by
  rw [execBuild_eq, if_pos (List.length_eq_zero_iff.2 h)]

theorem execBuild_of_overflow {s : State} (h : 0xFFFFFFFF < s.ram.freqSum) :
    exec .build s = .next ((s.withForest s.loaded).raise .freqOverflow) := by
  have hne : s.ram.alphabet.length ≠ 0 := by
    rw [ne_eq, List.length_eq_zero_iff]
    intro he
    rw [← sum_alphabet, he] at h
    exact absurd h (by simp)
  rw [execBuild_eq, if_neg hne, if_pos h]

theorem execBuild_of_fits {s : State} (hne : s.ram.alphabet ≠ []) (h : s.ram.freqSum ≤ 0xFFFFFFFF) :
    exec .build s = .next s.built.finish := by
  rw [execBuild_eq, if_neg (by rwa [List.length_eq_zero_iff]), if_neg (by omega)]

/-- How a BUILD can end (41_tree_builder.md R94, R96). -/
theorem execBuild_cases (s : State) :
    (∃ e, exec .build s = .next ((s.withForest s.loaded).raise e)) ∨
      (s.ram.alphabet ≠ [] ∧ s.ram.freqSum ≤ 0xFFFFFFFF ∧ exec .build s = .next s.built.finish) := by
  by_cases hne : s.ram.alphabet = []
  · exact .inl ⟨_, execBuild_of_empty hne⟩
  · rcases Nat.lt_or_ge 0xFFFFFFFF s.ram.freqSum with h | h
    · exact .inl ⟨_, execBuild_of_overflow h⟩
    · exact .inr ⟨hne, h, execBuild_of_fits hne h⟩

/-! ### What MERGE leaves -/

/-- One entry left in the queue stands for one tree. -/
theorem Forest.Holds.of_size_one {t : Forest} {n : Nat} {trees : List CodeTree} (h : t.Holds n trees)
    (h1 : t.queue.size = 1) : ∃ x, trees = [x] ∧ t.queue.top.tag = BitVec.ofNat 9 x.root := by
  have htags := h.tags
  have hlive : t.queue.live = [t.queue.top] := by simp [Queue.live, h1, Queue.top]
  rw [hlive] at htags
  obtain ⟨x, rfl⟩ : ∃ x, trees = [x] := List.length_eq_one_iff.1 (by simpa using htags.length_eq.symm)
  exact ⟨x, rfl, List.singleton_perm_singleton.1 htags⟩

/-- The leaves LOAD makes weigh as much as all symbols. -/
theorem leafSum_loaded (s : State) : leafSum s.loaded.node s.ram.alphabet.length = s.ram.freqSum := by
  rw [← sum_alphabet, leafSum]
  refine congrArg List.sum (List.ext_getElem (by simp) fun i _ h2 => ?_)
  have e : s.loaded.node.no i = _ := load_leaf s.queue s.ram i (by simpa using h2)
  simp [e, NodeEntry.leaf]

section
variable {s : State} (hne : s.ram.alphabet ≠ []) (h : s.ram.freqSum ≤ 0xFFFFFFFF)
include hne h

/-- MERGE leaves one tree, one entry, and the leaves and the nodes from `2n - 1` on as LOAD left them. -/
theorem merged_holds :
    (∃ trees, s.merged.Holds s.ram.alphabet.length trees) ∧ s.merged.queue.size = 1 ∧
      s.merged.total = s.ram.freqSum ∧
      ∀ i, i < 511 → (i < s.ram.alphabet.length ∨ 2 * s.ram.alphabet.length - 1 ≤ i) →
        s.merged.node.no i = s.loaded.node.no i := by
  have hpos : 1 ≤ s.ram.alphabet.length := List.length_pos_iff.2 hne
  have hsize : s.loaded.queue.size = s.ram.alphabet.length := load_size s.queue s.ram
  have hnext : s.loaded.next = s.ram.alphabet.length := load_next s.queue s.ram
  have hload : s.loaded.Holds _ _ := load_holds s.queue s.ram
  obtain ⟨ht, h1, htotal, hframe⟩ := hload.merge (length_alphabet_le s.ram) s.ram.alphabet.length
    (by rw [leafSum_loaded]; omega) (by omega) (by omega)
  rw [hnext] at hframe
  exact ⟨ht, h1, htotal.trans (load_total s.queue s.ram), hframe⟩

/-- The leaf of the `k`-th symbol of the alphabet is still node `k`. -/
theorem merged_leaf (k : Nat) (hk : k < s.ram.alphabet.length) :
    s.merged.node.no k = NodeEntry.leaf s.ram.alphabet[k] (s.ram.freq.entry s.ram.alphabet[k]) := by
  obtain ⟨-, -, -, hframe⟩ := merged_holds hne h
  have hle := length_alphabet_le s.ram
  rw [hframe k (by omega) (.inl hk)]
  exact load_leaf s.queue s.ram k hk

theorem leafSum_merged : leafSum s.merged.node s.ram.alphabet.length = s.ram.freqSum := by
  obtain ⟨-, -, -, hframe⟩ := merged_holds hne h
  have hle := length_alphabet_le s.ram
  rw [← leafSum_loaded, leafSum, leafSum]
  refine congrArg List.sum (List.map_congr_left fun i hi => ?_)
  rw [List.mem_range] at hi
  rw [hframe i (by omega) (.inl hi)]

theorem merged_next : s.merged.next = 2 * s.ram.alphabet.length - 1 := by
  obtain ⟨⟨trees, ht⟩, h1, -, -⟩ := merged_holds hne h
  have := ht.count
  omega

/-- The entry left is the root of a tree over all nodes made. -/
theorem merged_spans : ∃ t : CodeTree, t.Spans s.merged.node s.ram.alphabet.length ∧
    s.merged.queue.top.tag = BitVec.ofNat 9 t.root := by
  obtain ⟨⟨trees, ht⟩, h1, -, -⟩ := merged_holds hne h
  obtain ⟨t, rfl, htag⟩ := ht.of_size_one h1
  refine ⟨t, ?_, htag⟩
  constructor
  case le => exact length_alphabet_le s.ram
  case held => exact ht.held t (by simp)
  case nodes => rw [← merged_next hne h]; simpa using ht.nodes
  case leaves => simpa using ht.leaves
  case leaf_eq => intro i hi; rw [merged_leaf hne h i hi]; rfl
  case ascends =>
    intro i hi j hj
    rw [merged_leaf hne h i hi, merged_leaf hne h j (by omega)]
    exact List.pairwise_iff_getElem.1 (alphabet_ascends s.ram) j i (by omega) hi hj

/-! ### What BUILD leaves -/

omit h in
/-- Every symbol of the alphabet counts at least once. -/
theorem freqSum_pos : 1 ≤ s.ram.freqSum := by
  obtain ⟨a, ha⟩ := List.exists_mem_of_ne_nil _ hne
  have hf : s.ram.freq.entry a ≠ 0 := by simpa [Rams.alphabet] using ha
  have hpos : (s.ram.freq.entry a).toNat ≠ 0 := fun e => hf (BitVec.eq_of_toNat_eq e)
  have hle : (s.ram.freq.entry a).toNat ≤ s.ram.freqSum :=
    List.le_sum_of_mem (List.mem_map_of_mem (mem_allSymbols a))
  omega

/-- The tree registers of a successful BUILD fit the tree: the final writes lose no bit (41_tree_builder.md R96). -/
theorem built_treeRegs {t : CodeTree} (ht : t.Spans s.merged.node s.ram.alphabet.length)
    (htag : s.merged.queue.top.tag = BitVec.ofNat 9 t.root) : s.built.treeRegsShape s.ram.alphabet.length := by
  have hle := ht.le
  have hcodes : s.buildCodes = codegen s.merged.node s.ram.alphabet.length (BitVec.ofNat 9 t.root) := by
    rw [State.buildCodes, htag]
  have hlen {x : Byte × List Bool} (hx : x ∈ t.codes s.merged.node) :
      (s.built.ram.codeLen.entry x.1).toNat = x.2.length :=
    (ht.code_eq (congrArg CodeTable.len hcodes) (congrArg CodeTable.bits hcodes) hx).2.1
  obtain ⟨-, -, htotal, -⟩ := merged_holds hne h
  obtain ⟨hmax, x, hx, hxmax⟩ := ht.maxlen_eq
  have htot : s.built.regs.treeTotal.toNat = s.ram.freqSum := by
    show (BitVec.ofNat 32 s.merged.total).toNat = _
    rw [BitVec.toNat_ofNat, htotal, Nat.mod_eq_of_lt (by omega)]
  have hmaxlen : s.built.regs.treeMaxlen.toNat = x.2.length := by
    show (BitVec.ofNat 8 s.buildCodes.maxlen).toNat = _
    have := ht.length_code_le hx
    rw [BitVec.toNat_ofNat, hcodes, hxmax, Nat.mod_eq_of_lt (by omega)]
  refine ⟨?_, ?_, ?_, ?_, ?_, fun i hi => ?_, ?_⟩
  · show (BitVec.ofNat 10 s.merged.next).toNat = _
    rw [BitVec.toNat_ofNat, merged_next hne h, Nat.mod_eq_of_lt (by omega)]
  · show s.merged.queue.top.tag.toNat = _
    rw [htag, BitVec.toNat_ofNat, ht.root_eq, Nat.mod_eq_of_lt (by omega)]
  · apply BitVec.eq_of_toNat_eq
    rw [htot, ← leafSum_merged hne h]
    exact ht.freq_root
  · rw [htot, ← leafSum_merged hne h]; rfl
  · rw [htot]; exact freqSum_pos hne
  · obtain ⟨p, hp⟩ := t.exists_code s.merged.node ((ht.mem_leaves i).2 hi)
    rw [show (s.built.ram.codeLen.entry (s.built.ram.nodeNo i).symbol).toNat = p.length from hlen hp, hmaxlen, ← hxmax]
    exact hmax _ hp
  · obtain ⟨i, hi, e⟩ := (ht.mem_map_codes x.1).1 (List.mem_map_of_mem hx)
    refine ⟨i, hi, BitVec.eq_of_toNat_eq ?_⟩
    rw [show (s.built.ram.nodeNo i).symbol = x.1 from e, hlen hx, hmaxlen]

/-- The state a successful BUILD leaves meets the tree invariant (10_state.md R38). -/
theorem built_treeOk : s.built.finish.treeOk := by
  obtain ⟨t, ht, htag⟩ := merged_spans hne h
  have hle := ht.le
  have hcodes : s.buildCodes = codegen s.merged.node s.ram.alphabet.length (BitVec.ofNat 9 t.root) := by
    rw [State.buildCodes, htag]
  have hnleaf : s.built.finish.regs.treeNleaf.toNat = s.ram.alphabet.length := by
    show (BitVec.ofNat 9 s.ram.alphabet.length).toNat = _
    rw [BitVec.toNat_ofNat, Nat.mod_eq_of_lt (by omega)]
  unfold State.treeOk
  rw [hnleaf]
  exact ⟨ht.pos, hle, built_treeRegs hne h ht htag, ht.treeShape rfl,
    ht.codesShape rfl (congrArg CodeTable.len hcodes) (congrArg CodeTable.bits hcodes)⟩

end

/-- Settles O35: the tree MERGE makes as a term, and the table CODEGEN records for it. -/
theorem buildEstablishesTheTreeInvariant : Obligations.BuildEstablishesTheTreeInvariant := by
  intro s t hne hsum h
  rw [execBuild_of_fits hne hsum, Host.Outcome.next.injEq] at h
  rw [← h]
  exact built_treeOk hne hsum

end Sys2Proof.Machine
end

section
/-! SUPPORT. What commands and steps do to the registers, said once: how a command completes, and the five effects a step
can have (60_exceptions.md R115 to R118, 20_memory.md R61). The invariants of the registers follow. -/

namespace Sys2Proof.Machine

/-! ### Decoding -/

theorem toNat_of_decodeOp {op : BitVec 4} {i : Instr} (h : decodeOp op = .ok i) : op.toNat = (encode i).toNat := by
  unfold decodeOp at h
  split at h <;> cases h <;> assumption

/-- A word that decodes to a command is the word of the command (30_encoding.md R69, R70). -/
theorem eq_encode_of_decodeWord {w : Word} {i : Instr} (h : decodeWord w = .ok i) : w = encode i := by
  unfold decodeWord at h
  split at h
  · cases h
  · next hr =>
    have hop := toNat_of_decodeOp h
    have hrsvd : (rsvdField w).toNat = 0 := by rw [not_ne_iff.1 hr]; rfl
    simp only [rsvdField, BitVec.extractLsb_toNat, Nat.shiftRight_eq_div_pow] at hrsvd
    simp only [opField, BitVec.extractLsb_toNat, Nat.shiftRight_eq_div_pow] at hop
    have hw := w.isLt
    apply BitVec.eq_of_toNat_eq
    omega

theorem eq_build_of_command {w : Word} (h : command? w = some .build) : w = 0x00000003 := by
  unfold command? at h
  cases hd : decodeWord w with
  | ok i =>
    rw [hd] at h
    rw [eq_encode_of_decodeWord hd, Option.some.inj h]
    rfl
  | error e => rw [hd] at h; exact absurd h (by simp [Except.toOption])

/-! ### What a command leaves (10_state.md R24, 60_exceptions.md R117, R118, R123) -/

/-- `u` agrees with `s` in all that no command changes before its completion. -/
structure State.KeepsControl (s u : State) : Prop where
  dataBytes : u.dataBytes = s.dataBytes
  env : u.env = s.env
  cmd : u.regs.cmd = s.regs.cmd
  arg0 : u.regs.arg0 = s.regs.arg0
  arg1 : u.regs.arg1 = s.regs.arg1
  arg2 : u.regs.arg2 = s.regs.arg2
  arg3 : u.regs.arg3 = s.regs.arg3
  irqEn : u.regs.irqEn = s.regs.irqEn
  wrBusy : u.regs.wrBusy = s.regs.wrBusy
  errcode : u.regs.errcode = s.regs.errcode

/-- `u` agrees with `s` in the tree, the code table and the tree registers. -/
structure State.KeepsTree (s u : State) : Prop where
  node : u.ram.node = s.ram.node
  codeLen : u.ram.codeLen = s.ram.codeLen
  codeBits : u.ram.codeBits = s.ram.codeBits
  treeNleaf : u.regs.treeNleaf = s.regs.treeNleaf
  treeRoot : u.regs.treeRoot = s.regs.treeRoot
  treeTotal : u.regs.treeTotal = s.regs.treeTotal
  treeMaxlen : u.regs.treeMaxlen = s.regs.treeMaxlen
  nodeCount : u.regs.nodeCount = s.regs.nodeCount

theorem keepsControl_refl (s : State) : s.KeepsControl s := by constructor <;> rfl

theorem keepsTree_refl (s : State) : s.KeepsTree s := by constructor <;> rfl

theorem State.KeepsTree.trans {s u t : State} (h : s.KeepsTree u) (h' : u.KeepsTree t) : s.KeepsTree t where
  node := h'.node.trans h.node
  codeLen := h'.codeLen.trans h.codeLen
  codeBits := h'.codeBits.trans h.codeBits
  treeNleaf := h'.treeNleaf.trans h.treeNleaf
  treeRoot := h'.treeRoot.trans h.treeRoot
  treeTotal := h'.treeTotal.trans h.treeTotal
  treeMaxlen := h'.treeMaxlen.trans h.treeMaxlen
  nodeCount := h'.nodeCount.trans h.nodeCount

/-- The tree invariant speaks of nothing else. -/
theorem State.KeepsTree.treeOk {s u : State} (h : s.KeepsTree u) (hs : s.treeOk) : u.treeOk := by
  obtain ⟨_, ⟨_⟩, ⟨_⟩, _⟩ := s
  obtain ⟨_, ⟨_⟩, ⟨_⟩, _⟩ := u
  obtain ⟨rfl, rfl, rfl, rfl, rfl, rfl, rfl, rfl⟩ := h
  exact hs

/-- `t` is `u` after its completion, successful or with an error (60_exceptions.md R117, R118). -/
def State.CompletesTo (u t : State) : Prop := t = u.finish ∨ ∃ e, t = u.raise e

theorem State.CompletesTo.busy {u t : State} (h : u.CompletesTo t) : t.regs.busy = false := by
  obtain rfl | ⟨e, rfl⟩ := h <;> rfl

theorem State.CompletesTo.done {u t : State} (h : u.CompletesTo t) : t.regs.done = true := by
  obtain rfl | ⟨e, rfl⟩ := h <;> rfl

theorem State.CompletesTo.treeValid {u t : State} (h : u.CompletesTo t) : t.regs.treeValid = u.regs.treeValid := by
  obtain rfl | ⟨e, rfl⟩ := h <;> rfl

theorem State.CompletesTo.keepsTree {u t : State} (h : u.CompletesTo t) : u.KeepsTree t := by
  obtain rfl | ⟨e, rfl⟩ := h <;> constructor <;> rfl

/-- A command that works on neither the control registers nor the tree, and completes. -/
theorem exists_completes {p : Prop} {s u t : State} (h : u.CompletesTo t) (hc : s.KeepsControl u) (ht : s.KeepsTree u)
    (hv : u.regs.treeValid = s.regs.treeValid) :
    ∃ u, s.KeepsControl u ∧ (p → s.KeepsTree u ∧ u.regs.treeValid = s.regs.treeValid) ∧ u.CompletesTo t :=
  ⟨u, hc, fun _ => ⟨ht, hv⟩, h⟩

/-- A command that ends with an error before it has changed anything. -/
theorem exists_raises {p : Prop} {s t : State} {e : ErrorKind} (h : s.raise e = t) :
    ∃ u, s.KeepsControl u ∧ (p → s.KeepsTree u ∧ u.regs.treeValid = s.regs.treeValid) ∧ u.CompletesTo t :=
  exists_completes (.inr ⟨e, h.symm⟩) (keepsControl_refl s) (keepsTree_refl s) rfl

/-- What a command can do: from a state that agrees with the one before in the control registers and, but for BUILD, in the
tree, it completes. -/
theorem exec_cases {i : Instr} {s t : State} (h : exec i s = .next t) :
    ∃ u, s.KeepsControl u ∧ (i ≠ .build → s.KeepsTree u ∧ u.regs.treeValid = s.regs.treeValid) ∧ u.CompletesTo t := by
  cases i <;> replace h := Host.Outcome.next.inj h
  case nop => exact exists_completes (.inl h.symm) (by constructor <;> rfl) (by constructor <;> rfl) rfl
  case freqClear => exact exists_completes (.inl h.symm) (by constructor <;> rfl) (by constructor <;> rfl) rfl
  case freqCount =>
    split at h
    · exact exists_raises h
    · split at h
      · exact exists_completes (.inl h.symm) (by constructor <;> rfl) (by constructor <;> rfl) rfl
      · exact exists_completes (.inr ⟨_, h.symm⟩) (by constructor <;> rfl) (by constructor <;> rfl) rfl
  case build =>
    rcases execBuild_cases s with ⟨e, he⟩ | ⟨-, -, hs⟩
    · cases h.symm.trans (Host.Outcome.next.inj he)
      exact ⟨s.withForest s.loaded, by constructor <;> rfl, fun hb => absurd rfl hb, .inr ⟨e, rfl⟩⟩
    · cases h.symm.trans (Host.Outcome.next.inj hs)
      exact ⟨s.built, by constructor <;> rfl, fun hb => absurd rfl hb, .inl rfl⟩
  case encode =>
    split at h
    · exact exists_raises h
    · dsimp only at h
      split at h
      · exact exists_completes (.inr ⟨_, h.symm⟩) (by constructor <;> rfl) (by constructor <;> rfl) rfl
      · exact exists_completes (.inl h.symm) (by constructor <;> rfl) (by constructor <;> rfl) rfl
  case decode =>
    split at h
    · exact exists_raises h
    · dsimp only at h
      split at h
      · exact exists_raises h
      · split at h
        · exact exists_completes (.inr ⟨_, h.symm⟩) (by constructor <;> rfl) (by constructor <;> rfl) rfl
        · exact exists_completes (.inl h.symm) (by constructor <;> rfl) (by constructor <;> rfl) rfl
  case pqInit => exact exists_completes (.inl h.symm) (by constructor <;> rfl) (by constructor <;> rfl) rfl
  case pqInsert =>
    split at h
    · exact exists_raises h
    · split at h
      · exact exists_raises h
      · exact exists_completes (.inl h.symm) (by constructor <;> rfl) (by constructor <;> rfl) rfl
  case pqExtract =>
    split at h
    · exact exists_raises h
    · exact exists_completes (.inl h.symm) (by constructor <;> rfl) (by constructor <;> rfl) rfl

/-- What the engine's event can do, an illegal word included (60_exceptions.md R120). -/
theorem engineStep_completes {s t : State} (h : s.engineStep = .next t) :
    ∃ u, s.KeepsControl u ∧ (s.regs.cmd ≠ 0x00000003 → s.KeepsTree u ∧ u.regs.treeValid = s.regs.treeValid) ∧
      u.CompletesTo t := by
  rcases engineStep_cases s with ⟨i, hd, he⟩ | ⟨e, -, he⟩
  · rw [he] at h
    obtain ⟨u, hc, ht, hcomp⟩ := exec_cases h
    refine ⟨u, hc, fun hne => ht fun hi => hne ?_, hcomp⟩
    rw [eq_encode_of_decodeWord hd, hi]; rfl
  · rw [he] at h
    cases h
    exact exists_raises rfl

/-! ### The effects of a step -/

/-- `u` is the block of `s`, but for IRQ_EN. -/
structure State.SameBlock (s u : State) : Prop where
  regs : u.regs = { s.regs with irqEn := u.regs.irqEn }
  ram : u.ram = s.ram
  dataBytes : u.dataBytes = s.dataBytes
  observed : u.env.observed = s.env.observed

/-- From `s` to `t` nothing but what the host can change at any time, or in FREQ, DATA and the arguments: no command is
accepted, completed or stopped. A status bit is not set, and an observation needs a read of STATUS that shows the completion
(20_memory.md R62). -/
structure State.HostChanges (s t : State) : Prop where
  regs : t.regs = { s.regs with
    irqEn := t.regs.irqEn, done := t.regs.done, err := t.regs.err, wrBusy := t.regs.wrBusy
    arg0 := t.regs.arg0, arg1 := t.regs.arg1, arg2 := t.regs.arg2, arg3 := t.regs.arg3 }
  ram : t.ram = { s.ram with freq := t.ram.freq, data := t.ram.data }
  dataBytes : t.dataBytes = s.dataBytes
  done : t.regs.done = true → s.regs.done = true
  err : t.regs.err = true → s.regs.err = true
  observed : t.env.observed = true → s.env.observed = true ∨ s.regs.busy = false ∨ s.regs.done = true

/-- What a step from `s` to `t` can do to the block. -/
inductive State.Effect (s t : State) : Prop where
  /-- The running command completes. -/
  | completes (u : State) (hu : s.SameBlock u) (busy : s.regs.busy = true) (h : u.engineStep = .next t)
  /-- The running command is stopped by an ABORT that takes effect. -/
  | aborts (u : State) (hu : s.SameBlock u) (busy : s.regs.busy = true) (h : t = u.abort.drawn)
  /-- Every register is reset. -/
  | resets (regs : t.regs = Regs.reset)
  /-- A command word is accepted. -/
  | accepts (u : State) (hu : s.SameBlock u) (idle : s.regs.busy = false) (w : Word) (h : t = u.accept w)
  /-- Any other event of the outside. -/
  | host (h : s.HostChanges t)

theorem sameBlock_refl (s : State) : s.SameBlock s := by constructor <;> rfl

theorem State.SameBlock.busy {s u : State} (h : s.SameBlock u) : u.regs.busy = s.regs.busy := by rw [h.regs]

theorem State.SameBlock.cmd {s u : State} (h : s.SameBlock u) : u.regs.cmd = s.regs.cmd := by rw [h.regs]

theorem State.SameBlock.errcode {s u : State} (h : s.SameBlock u) : u.regs.errcode = s.regs.errcode := by rw [h.regs]

theorem State.SameBlock.treeValid {s u : State} (h : s.SameBlock u) : u.regs.treeValid = s.regs.treeValid := by
  rw [h.regs]

theorem State.SameBlock.keepsTree {s u : State} (h : s.SameBlock u) : s.KeepsTree u := by
  constructor <;> first | rw [h.ram] | rw [h.regs]

theorem State.SameBlock.trans {s u v : State} (h : s.SameBlock u) (h' : u.SameBlock v) : s.SameBlock v where
  regs := h'.regs.trans (by rw [h.regs])
  ram := h'.ram.trans h.ram
  dataBytes := h'.dataBytes.trans h.dataBytes
  observed := h'.observed.trans h.observed

theorem useTurn_sameBlock (s : State) : s.SameBlock s.useTurn where
  regs := by rw [useTurn_regs]
  ram := useTurn_ram s
  dataBytes := useTurn_dataBytes s
  observed := useTurn_observed s

theorem afterHost_sameBlock (s : State) (rest : List Input) (r : Record) : s.SameBlock (s.afterHost rest r) where
  regs := by rw [afterHost_regs]
  ram := afterHost_ram s rest r
  dataBytes := afterHost_dataBytes s rest r
  observed := afterHost_observed s rest r

/-- The same block is a change the host can make. -/
theorem State.SameBlock.hostChanges {s u : State} (h : s.SameBlock u) : s.HostChanges u where
  regs := by rw [h.regs]
  ram := by rw [h.ram]
  dataBytes := h.dataBytes
  done := by rw [h.regs]; exact id
  err := by rw [h.regs]; exact id
  observed := by rw [h.observed]; exact .inl

/-- What follows on the same block is an effect on the block. -/
theorem State.SameBlock.effect {s u t : State} (hu : s.SameBlock u) (h : u.Effect t) : s.Effect t := by
  cases h with
  | completes v hv busy h => exact .completes v (hu.trans hv) (hu.busy ▸ busy) h
  | aborts v hv busy h => exact .aborts v (hu.trans hv) (hu.busy ▸ busy) h
  | resets h => exact .resets h
  | accepts v hv idle w h => exact .accepts v (hu.trans hv) (hu.busy ▸ idle) w h
  | host h =>
    refine .host ⟨h.regs.trans (by rw [hu.regs]), h.ram.trans (by rw [hu.ram]), h.dataBytes.trans hu.dataBytes,
      fun d => ?_, fun e => ?_, fun o => ?_⟩
    · have := h.done d; rwa [hu.regs] at this
    · have := h.err e; rwa [hu.regs] at this
    · have := h.observed o; rwa [hu.observed, hu.regs] at this

/-- A read changes nothing of the block (20_memory.md R51, R62). -/
theorem hostRead_changes (s : State) (addr : BusAddr) : s.HostChanges (s.hostRead addr) where
  regs := by rw [hostRead_regs]
  ram := by rw [hostRead_ram]
  dataBytes := hostRead_dataBytes s addr
  done := by rw [hostRead_regs]; exact id
  err := by rw [hostRead_regs]; exact id
  observed := by
    rw [hostRead_env]
    simp only [State.observes, Bool.or_eq_true, Bool.and_eq_true, Bool.not_eq_true']
    rintro (h | ⟨-, h⟩)
    · exact .inl h
    · exact .inr h

theorem State.HostChanges.withProgram {s t : State} (h : s.HostChanges t) (p : List Input) :
    s.HostChanges (t.withProgram p) := { h with }

/-- A busy-protected write sets WR_BUSY while a command runs; else it is performed. -/
theorem protectedWrite_effect {s w t : State} (h : s.protectedWrite w = .next t)
    (hw : s.regs.busy = false → s.Effect w) : s.Effect t := by
  unfold State.protectedWrite at h
  cases h
  cases hb : s.regs.busy with
  | true => exact .host ⟨rfl, rfl, rfl, id, id, .inl⟩
  | false => exact hw hb

/-- What a write to CTRL can do (10_state.md R20, 60_exceptions.md R126). -/
theorem writeCtrl_effect {s t : State} {v : Word} (h : s.writeCtrl v = .next t) : s.Effect t := by
  have hu : s.SameBlock { s with regs.irqEn := v.getLsbD 0 } := by constructor <;> rfl
  unfold State.writeCtrl at h
  split at h
  · cases h; exact .resets rfl
  · dsimp only at h
    split at h
    · next hab =>
      have hb : s.regs.busy = true := (Bool.and_eq_true_iff.1 hab).2
      split at h
      · cases h; exact .aborts _ hu hb rfl
      · exact .completes _ (hu.trans (by constructor <;> rfl)) hb h
    · cases h; exact .host hu.hostChanges

/-- What a write at a target can do (10_state.md R18 to R29). -/
theorem writeTarget_effect {s t : State} {v : Word} {x : Target} (h : s.writeTarget v x = .next t) : s.Effect t := by
  have same : s.Effect s := .host (sameBlock_refl s).hostChanges
  unfold State.writeTarget at h
  split at h
  case h_1 => exact writeCtrl_effect h
  case h_2 => exact protectedWrite_effect h (fun hb => .accepts s (sameBlock_refl s) hb v rfl)
  case h_3 =>
    cases h
    exact .host ⟨rfl, rfl, rfl, fun hd => (Bool.and_eq_true_iff.1 hd).1, fun he => (Bool.and_eq_true_iff.1 he).1, .inl⟩
  case h_4 => exact protectedWrite_effect h (fun _ => .host ⟨rfl, rfl, rfl, id, id, .inl⟩)
  case h_5 => exact protectedWrite_effect h (fun _ => .host ⟨rfl, rfl, rfl, id, id, .inl⟩)
  case h_6 => exact protectedWrite_effect h (fun _ => .host ⟨rfl, rfl, rfl, id, id, .inl⟩)
  case h_7 => exact protectedWrite_effect h (fun _ => .host ⟨rfl, rfl, rfl, id, id, .inl⟩)
  case h_9 => exact protectedWrite_effect h (fun _ => .host ⟨rfl, rfl, rfl, id, id, .inl⟩)
  case h_10 => exact protectedWrite_effect h (fun _ => .host ⟨rfl, rfl, rfl, id, id, .inl⟩)
  all_goals cases h; exact same

/-- What a step can do to the block. -/
theorem step_effect {s t : State} (h : step s = .next t) : s.Effect t := by
  have hu := useTurn_sameBlock s
  rcases step_cases s with ⟨hm, e⟩ | ⟨-, -, e⟩ | ⟨addr, v, rest, -, e⟩ | ⟨addr, rest, -, e⟩ | ⟨addr, mask, v, rest, -, e⟩ |
    ⟨rest, -, e⟩ <;> rw [e] at h
  · exact .completes _ hu (busy_of_engine hm) h
  · cases h; exact .host hu.hostChanges
  · exact (afterHost_sameBlock s rest _).effect (writeTarget_effect h)
  · cases h; exact hu.effect (.host ((hostRead_changes _ addr).withProgram rest))
  · cases h
    split
    · exact hu.effect (.host ((hostRead_changes _ addr).withProgram rest))
    · exact hu.effect (.host (hostRead_changes _ addr))
  · cases h; exact .resets rfl

/-! ### The statements about every command and every step -/

/-- Settles O52: the commands work on other state, and each completes. -/
theorem commandsKeepOperandsAndControl : Obligations.CommandsKeepOperandsAndControl := by
  intro i s t h
  obtain ⟨u, hc, -, hcomp⟩ := exec_cases h
  have hb := hcomp.busy
  have hd := hcomp.done
  obtain rfl | ⟨e, rfl⟩ := hcomp <;>
  exact ⟨hc.cmd, hc.arg0, hc.arg1, hc.arg2, hc.arg3, hc.irqEn, hc.wrBusy, hc.dataBytes, hc.env, hb, hd⟩

theorem errorCode_ne_F (e : ErrorKind) : e.code ≠ 0xF := by cases e <;> decide

/-- Settles O54: a step leaves ERRCODE, clears it, or sets it to the code of an error. -/
theorem errcodeIsNeverF : Obligations.ErrcodeIsNeverF := by
  intro s t hs h
  cases step_effect h with
  | completes u hu busy h =>
    obtain ⟨w, hc, -, rfl | ⟨e, rfl⟩⟩ := engineStep_completes h
    · rw [finish_regs, hc.errcode, hu.errcode]; exact hs
    · exact errorCode_ne_F e
  | aborts u hu busy h => rw [h]; exact errorCode_ne_F .aborted
  | resets regs => rw [regs]; decide
  | accepts u hu idle w h => rw [h]; show (0 : BitVec 4) ≠ 0xF; decide
  | host h => rw [h.regs]; exact hs

/-- Settles O55: only acceptance sets BUSY, and only completion sets DONE and ERR. -/
theorem stepKeepsTheLifecycleInvariant : Obligations.StepKeepsTheLifecycleInvariant := by
  intro s t hs h hb
  cases step_effect h with
  | completes u hu busy h =>
    obtain ⟨w, -, -, hcomp⟩ := engineStep_completes h
    exact absurd hb (by simp [hcomp.busy])
  | aborts u hu busy h => rw [h] at hb; exact absurd hb (by simp [State.abort])
  | resets regs => rw [regs] at hb; exact absurd hb (by decide)
  | accepts u hu idle w h =>
    rw [h]
    refine ⟨rfl, rfl, rfl, rfl, rfl, rfl, fun hw => ?_, rfl⟩
    have hw : w = 0x00000003 := hw
    simp [hw]
  | host h =>
    rw [h.regs] at hb
    obtain ⟨hdone, herr, hcode, hr0, hr1, hr2, hbuild, hobs⟩ := hs hb
    have hnd : t.regs.done = false := by
      rw [← Bool.not_eq_true]; intro hd; rw [h.done hd] at hdone; exact absurd hdone (by decide)
    have hne : t.regs.err = false := by
      rw [← Bool.not_eq_true]; intro he; rw [h.err he] at herr; exact absurd herr (by decide)
    have hno : t.env.observed = false := by
      rw [← Bool.not_eq_true]
      intro ho
      rcases h.observed ho with o | b | d
      · rw [hobs] at o; exact absurd o (by decide)
      · exact absurd (hb.symm.trans b) (by decide)
      · rw [hdone] at d; exact absurd d (by decide)
    refine ⟨hnd, hne, ?_, ?_, ?_, ?_, ?_, hno⟩ <;> rw [h.regs] <;> assumption

/-- The write set of a stopped command other than BUILD leaves the tree (60_exceptions.md R127). -/
theorem spoil_keepsTree {s : State} {c : Option Instr} (hc : c ≠ some .build) (k : Nat) : s.KeepsTree (s.spoil c k) := by
  have out : s.KeepsTree (s.spoilOutput k) := by unfold State.spoilOutput; split <;> constructor <;> rfl
  rcases c with _ | i
  · exact keepsTree_refl s
  · cases i with
    | build => exact absurd rfl hc
    | encode => exact out
    | decode => exact out
    | _ => constructor <;> simp [State.spoil]

/-- No stopped command's write set holds TREE_VALID. -/
theorem spoil_treeValid (s : State) (c : Option Instr) (k : Nat) : (s.spoil c k).regs.treeValid = s.regs.treeValid := by
  have out : (s.spoilOutput k).regs.treeValid = s.regs.treeValid := by unfold State.spoilOutput; split <;> rfl
  rcases c with _ | i
  · rfl
  · cases i with
    | encode => exact out
    | decode => exact out
    | _ => rfl

/-- An ABORT leaves TREE_VALID, and the tree if it does not stop a BUILD. -/
theorem abort_keepsTree (s : State) : s.abort.drawn.regs.treeValid = s.regs.treeValid ∧
    (s.regs.cmd ≠ 0x00000003 → s.KeepsTree s.abort.drawn) := by
  refine ⟨spoil_treeValid s _ _, fun hne => (spoil_keepsTree (fun hc => hne (eq_build_of_command hc)) s.env.draws).trans ?_⟩
  unfold State.abort
  dsimp only
  generalize s.spoil (command? s.regs.cmd) s.env.draws = t
  constructor <;> rfl

/-- Settles O58: a command that writes the tree is a BUILD, which runs with TREE_VALID = 0 and sets it only when it leaves a
whole tree. -/
theorem stepKeepsTheTreeInvariant : Obligations.StepKeepsTheTreeInvariant := by
  intro s t hlife hinv h hv
  cases step_effect h with
  | completes u hu busy h =>
    obtain ⟨-, -, -, -, -, -, hbuild, -⟩ := hlife busy
    by_cases hcmd : s.regs.cmd = 0x00000003
    · have he : u.engineStep = exec .build u := by rw [State.engineStep, hu.cmd, hcmd]; rfl
      rw [he] at h
      rcases execBuild_cases u with ⟨e, he⟩ | ⟨hne, hsum, he⟩
      · rw [he] at h
        cases h
        have hf : u.regs.treeValid = true := hv
        rw [hu.treeValid, hbuild hcmd] at hf
        exact absurd hf (by decide)
      · rw [he] at h
        cases h
        exact built_treeOk hne hsum
    · obtain ⟨w, -, htree, hcomp⟩ := engineStep_completes h
      obtain ⟨hw, hwv⟩ := htree (hu.cmd ▸ hcmd)
      rw [hcomp.treeValid, hwv, hu.treeValid] at hv
      exact ((hu.keepsTree.trans hw).trans hcomp.keepsTree).treeOk (hinv hv)
  | aborts u hu busy h =>
    obtain ⟨-, -, -, -, -, -, hbuild, -⟩ := hlife busy
    obtain ⟨hav, hat⟩ := abort_keepsTree u
    rw [h, hav, hu.treeValid] at hv
    have hcmd : s.regs.cmd ≠ 0x00000003 := fun hc => absurd (hv.symm.trans (hbuild hc)) (by decide)
    rw [h]
    exact (hu.keepsTree.trans (hat (hu.cmd ▸ hcmd))).treeOk (hinv hv)
  | resets regs => rw [regs] at hv; exact absurd hv (by decide)
  | accepts u hu idle w h =>
    rw [h, accept_regs] at hv
    have huv : u.regs.treeValid = true := (Bool.and_eq_true_iff.1 hv).1
    have hacc : u.KeepsTree (u.accept w) := by constructor <;> rfl
    rw [h]
    exact (hu.keepsTree.trans hacc).treeOk (hinv (hu.treeValid ▸ huv))
  | host h =>
    have hkeep : s.KeepsTree t := by constructor <;> first | rw [h.ram] | rw [h.regs]
    rw [h.regs] at hv
    exact hkeep.treeOk (hinv hv)

end Sys2Proof.Machine
end

section
/-! SUPPORT. The address map (20_memory.md R52, R53) word by word, and the host's writes and reads at it. -/

namespace Sys2Proof.Machine

/-! ### The address map -/

/-- The target of an address in word `k`: the map of `target`, whose addresses drop bits 1:0 (20_memory.md R53). -/
theorem target_of_word {addr : BusAddr} {k : Nat} (h : addr.toNat / 4 = k) :
    target addr =
      if 4 * k < 0x00100 then (busReg? (4 * k)).elim .unmapped .reg
      else if 4 * k < 0x00400 then .unmapped
      else if 4 * k < 0x00800 then .freq (BitVec.ofNat 8 ((4 * k - 0x00400) / 4))
      else if 4 * k < 0x01000 then .unmapped
      else if 4 * k < 0x02000 then .node (BitVec.ofNat 9 ((4 * k - 0x01000) / 8)) ((4 * k - 0x01000) % 8 / 4)
      else if 4 * k < 0x03000 then .heap ((4 * k - 0x02000) / 16 + 1) ((4 * k - 0x02000) % 16 / 4)
      else if 4 * k < 0x03400 then .codeLen (BitVec.ofNat 8 ((4 * k - 0x03000) / 4))
      else if 4 * k < 0x04000 then .unmapped
      else if 4 * k < 0x06000 then .codeBits (BitVec.ofNat 8 ((4 * k - 0x04000) / 32)) ((4 * k - 0x04000) % 32 / 4)
      else if 4 * k < 0x10000 then .unmapped
      else .data (4 * k - 0x10000) := by
  have e : addr.toNat - addr.toNat % 4 = 4 * k := by omega
  simp only [target, e]
  cases busReg? (4 * k) <;> rfl

/-- The four byte addresses of a word have one target (20_memory.md R53). -/
theorem target_congr {addr addr' : BusAddr} (h : addr.toNat / 4 = addr'.toNat / 4) : target addr = target addr' := by
  rw [target_of_word h, target_of_word rfl]

theorem target_reg {addr : BusAddr} {k : Nat} {r : BusReg} (h : addr.toNat / 4 = k) (hk : k < 64)
    (hr : busReg? (4 * k) = some r) : target addr = .reg r := by
  rw [target_of_word h, if_pos (by omega), hr]; rfl

theorem target_freq {addr : BusAddr} {k : Nat} (h : addr.toNat / 4 = 0x100 + k) (hk : k < 256) :
    target addr = .freq (BitVec.ofNat 8 k) := by
  rw [target_of_word h, if_neg (by omega), if_neg (by omega), if_pos (by omega),
    show (4 * (0x100 + k) - 0x400) / 4 = k by omega]

theorem target_node {addr : BusAddr} {i w : Nat} (h : addr.toNat / 4 = 0x400 + 2 * i + w) (hi : i < 512) (hw : w < 2) :
    target addr = .node (BitVec.ofNat 9 i) w := by
  rw [target_of_word h, if_neg (by omega), if_neg (by omega), if_neg (by omega), if_neg (by omega), if_pos (by omega),
    show (4 * (0x400 + 2 * i + w) - 0x1000) / 8 = i by omega,
    show (4 * (0x400 + 2 * i + w) - 0x1000) % 8 / 4 = w by omega]

theorem target_heap {addr : BusAddr} {p w : Nat} (h : addr.toNat / 4 = 0x800 + 4 * (p - 1) + w) (h1 : 1 ≤ p)
    (hp : p ≤ 256) (hw : w < 4) : target addr = .heap p w := by
  rw [target_of_word h, if_neg (by omega), if_neg (by omega), if_neg (by omega), if_neg (by omega), if_neg (by omega),
    if_pos (by omega), show (4 * (0x800 + 4 * (p - 1) + w) - 0x2000) / 16 + 1 = p by omega,
    show (4 * (0x800 + 4 * (p - 1) + w) - 0x2000) % 16 / 4 = w by omega]

theorem target_codeLen {addr : BusAddr} {k : Nat} (h : addr.toNat / 4 = 0xC00 + k) (hk : k < 256) :
    target addr = .codeLen (BitVec.ofNat 8 k) := by
  rw [target_of_word h, if_neg (by omega), if_neg (by omega), if_neg (by omega), if_neg (by omega), if_neg (by omega),
    if_neg (by omega), if_pos (by omega), show (4 * (0xC00 + k) - 0x3000) / 4 = k by omega]

theorem target_codeBits {addr : BusAddr} {k w : Nat} (h : addr.toNat / 4 = 0x1000 + 8 * k + w) (hk : k < 256)
    (hw : w < 8) : target addr = .codeBits (BitVec.ofNat 8 k) w := by
  rw [target_of_word h, if_neg (by omega), if_neg (by omega), if_neg (by omega), if_neg (by omega), if_neg (by omega),
    if_neg (by omega), if_neg (by omega), if_neg (by omega), if_pos (by omega),
    show (4 * (0x1000 + 8 * k + w) - 0x4000) / 32 = k by omega,
    show (4 * (0x1000 + 8 * k + w) - 0x4000) % 32 / 4 = w by omega]

theorem target_data {addr : BusAddr} {k : Nat} (h : addr.toNat / 4 = 0x4000 + k) : target addr = .data (4 * k) := by
  rw [target_of_word h, if_neg (by omega), if_neg (by omega), if_neg (by omega), if_neg (by omega), if_neg (by omega),
    if_neg (by omega), if_neg (by omega), if_neg (by omega), if_neg (by omega), if_neg (by omega),
    show 4 * (0x4000 + k) - 0x10000 = 4 * k by omega]

/-- The register offsets from 0x050 on are reserved (10_state.md R18). -/
theorem busReg_reserved {k : Nat} (h : 20 ≤ k) : busReg? (4 * k) = none := by
  unfold busReg?
  split <;> first | rfl | omega

theorem target_unmapped {addr : BusAddr}
    (h : (0x00050 ≤ addr.toNat ∧ addr.toNat < 0x00400) ∨ (0x00800 ≤ addr.toNat ∧ addr.toNat < 0x01000) ∨
      (0x03400 ≤ addr.toNat ∧ addr.toNat < 0x04000) ∨ (0x06000 ≤ addr.toNat ∧ addr.toNat < 0x10000)) :
    target addr = .unmapped := by
  rw [target_of_word rfl, busReg_reserved (by omega)]
  rcases h with h | h | h | h
  · by_cases hr : 4 * (addr.toNat / 4) < 0x00100
    · rw [if_pos hr]; rfl
    · rw [if_neg hr, if_pos (by omega)]
  · rw [if_neg (by omega), if_neg (by omega), if_neg (by omega), if_pos (by omega)]
  · rw [if_neg (by omega), if_neg (by omega), if_neg (by omega), if_neg (by omega), if_neg (by omega), if_neg (by omega),
      if_neg (by omega), if_pos (by omega)]
  · rw [if_neg (by omega), if_neg (by omega), if_neg (by omega), if_neg (by omega), if_neg (by omega), if_neg (by omega),
      if_neg (by omega), if_neg (by omega), if_neg (by omega), if_pos (by omega)]

/-! ### Host writes -/

/-- The targets whose writes BUSY protects (10_state.md R26). -/
def Target.busyProtected : Target → Bool
  | .reg .cmd | .reg .arg0 | .reg .arg1 | .reg .arg2 | .reg .arg3 | .freq _ | .data _ => true
  | _ => false

/-- The targets that ignore every write (10_state.md R26, R29, 20_memory.md R54). -/
def Target.ignoresWrites : Target → Bool
  | .reg .ctrl | .reg .status => false
  | x => !x.busyProtected

theorem writeTarget_of_busy {s : State} (hb : s.regs.busy = true) (v : Word) {x : Target} (hx : x.busyProtected = true) :
    s.writeTarget v x = .next s.dropWrite := by
  have hdrop (w : State) : s.protectedWrite w = .next s.dropWrite := by rw [State.protectedWrite, if_pos hb]
  cases x with
  | reg r => cases r <;> first | exact hdrop _ | exact absurd hx (by decide)
  | freq b => exact hdrop _
  | data a => exact hdrop _
  | _ => exact absurd hx Bool.false_ne_true

theorem writeTarget_of_ignoresWrites (s : State) (v : Word) {x : Target} (hx : x.ignoresWrites = true) :
    s.writeTarget v x = .next s := by
  cases x with
  | reg r => cases r <;> first | rfl | exact absurd hx (by decide)
  | freq b => exact absurd hx Bool.false_ne_true
  | data a => exact absurd hx Bool.false_ne_true
  | _ => rfl

theorem target_busyProtected {addr : BusAddr}
    (h : (0x0000C ≤ addr.toNat ∧ addr.toNat < 0x00010) ∨ (0x00018 ≤ addr.toNat ∧ addr.toNat < 0x00028) ∨
      (0x00400 ≤ addr.toNat ∧ addr.toNat < 0x00800) ∨ 0x10000 ≤ addr.toNat) :
    (target addr).busyProtected = true := by
  rcases h with h | h | h | h
  · rw [target_reg (show addr.toNat / 4 = 3 by omega) (by omega) rfl]; rfl
  · obtain h | h | h | h : addr.toNat / 4 = 6 ∨ addr.toNat / 4 = 7 ∨ addr.toNat / 4 = 8 ∨ addr.toNat / 4 = 9 := by omega
    all_goals rw [target_reg h (by omega) rfl]; rfl
  · rw [target_freq (show addr.toNat / 4 = 0x100 + (addr.toNat / 4 - 0x100) by omega) (by omega)]; rfl
  · rw [target_data (show addr.toNat / 4 = 0x4000 + (addr.toNat / 4 - 0x4000) by omega)]; rfl

/-- The read-only registers below the reserved offsets are ID, VERSION, ERRCODE and those from RES0 on (10_state.md R18). -/
theorem busReg_ignoresWrites {k : Nat} (h : k < 2 ∨ k = 5 ∨ (10 ≤ k ∧ k < 20)) :
    ∃ r, busReg? (4 * k) = some r ∧ (Target.reg r).ignoresWrites = true := by
  obtain rfl | rfl | rfl | h : k = 0 ∨ k = 1 ∨ k = 5 ∨ (10 ≤ k ∧ k < 20) := by omega
  case inr.inr.inr => obtain ⟨h1, h2⟩ := h; interval_cases k <;> exact ⟨_, rfl, rfl⟩
  all_goals exact ⟨_, rfl, rfl⟩

theorem target_ignoresWrites {addr : BusAddr}
    (h : addr.toNat < 0x00008 ∨ (0x00014 ≤ addr.toNat ∧ addr.toNat < 0x00018) ∨
      (0x00028 ≤ addr.toNat ∧ addr.toNat < 0x00400) ∨ (0x00800 ≤ addr.toNat ∧ addr.toNat < 0x10000)) :
    (target addr).ignoresWrites = true := by
  by_cases hr : addr.toNat < 0x50
  · obtain ⟨r, hr, hi⟩ := busReg_ignoresWrites (k := addr.toNat / 4) (by omega)
    rwa [target_reg rfl (by omega) hr]
  · generalize hk : addr.toNat / 4 = k
    obtain h | h | h | h | h : ((0x00050 ≤ addr.toNat ∧ addr.toNat < 0x00400) ∨
        (0x00800 ≤ addr.toNat ∧ addr.toNat < 0x01000) ∨ (0x03400 ≤ addr.toNat ∧ addr.toNat < 0x04000) ∨
        (0x06000 ≤ addr.toNat ∧ addr.toNat < 0x10000)) ∨ (0x400 ≤ k ∧ k < 0x800) ∨ (0x800 ≤ k ∧ k < 0xC00) ∨
        (0xC00 ≤ k ∧ k < 0xD00) ∨ (0x1000 ≤ k ∧ k < 0x1800) := by omega
    · rw [target_unmapped h]; rfl
    · rw [target_node (show _ = 0x400 + 2 * ((k - 0x400) / 2) + (k - 0x400) % 2 by omega) (by omega) (by omega)]; rfl
    · rw [target_heap (show _ = 0x800 + 4 * ((k - 0x800) / 4 + 1 - 1) + (k - 0x800) % 4 by omega) (by omega) (by omega)
        (by omega)]; rfl
    · rw [target_codeLen (show _ = 0xC00 + (k - 0xC00) by omega) (by omega)]; rfl
    · rw [target_codeBits (show _ = 0x1000 + 8 * ((k - 0x1000) / 8) + (k - 0x1000) % 8 by omega) (by omega)
        (by omega)]; rfl

/-- Settles O9: the targets of the protected addresses are busy-protected. -/
theorem busyProtectedWriteOnlySetsWrBusy : Obligations.BusyProtectedWriteOnlySetsWrBusy := by
  intro s addr v rest hn hb ha
  rw [step_wr hn, writeTarget_of_busy (by rw [afterHost_regs]; exact hb) v (target_busyProtected ha), State.dropWrite,
    afterHost_regs]

/-- Settles O10: the targets of those addresses ignore writes. -/
theorem readOnlyAndUnmappedWritesAreIgnored : Obligations.ReadOnlyAndUnmappedWritesAreIgnored := by
  intro s addr v rest hn ha
  rw [step_wr hn, writeTarget_of_ignoresWrites _ v (target_ignoresWrites ha)]

/-- Settles O11: the written 1 bits clear, as `and not` does. -/
theorem statusWriteClearsOnlyW1CBits : Obligations.StatusWriteClearsOnlyW1CBits := by
  intro s addr v rest hn ha
  have hclear (b c : Bool) : (b && !c) = if c then false else b := by cases b <;> cases c <;> rfl
  rw [step_wr hn, target_reg ha (by omega) rfl]
  simp only [State.writeTarget, Regs.clearStatus, afterHost_regs, hclear]

/-- Settles O12: with no reset and no ABORT a write to CTRL is a write of IRQ_EN. -/
theorem ctrlWriteUpdatesIrqEnOnly : Obligations.CtrlWriteUpdatesIrqEnOnly := by
  intro s addr v rest hn ha hsrst habort
  have hno : (v.getLsbD 1 && s.regs.busy) = false := by rwa [Bool.and_eq_false_iff]
  rw [step_wr hn, target_reg ha (by omega) rfl]
  simp only [State.writeTarget, State.writeCtrl, afterHost_regs, hsrst, hno, Bool.false_eq_true, if_false]

/-- Settles O13: an idle block performs the protected write. -/
theorem argWritesStoreTheWord : Obligations.ArgWritesStoreTheWord := by
  intro s addr v rest hn hb
  refine ⟨fun ha => ?_, fun ha => ?_, fun ha => ?_, fun ha => ?_⟩
  all_goals
    rw [step_wr hn, target_reg ha (by omega) rfl]
    simp [State.writeTarget, State.protectedWrite, hb]

end Sys2Proof.Machine
end

section
/-! SUPPORT. Host reads (20_memory.md R51 to R54): the bits without storage read 0 in every read, and the layout of the windows
that pack several fields in a word. -/

namespace Sys2Proof.Machine

/-! ### Words -/

/-- Bit 31 - m of a list of 32 bits read as a binary number, first bit most significant, is its bit m. -/
theorem testBit_bitsMsbFirst (bits : List Bool) : ∀ j, (bitsMsbFirst bits).testBit j = bits.reverse.getD j false := by
  induction bits using List.reverseRecOn with
  | nil => intro j; simp [bitsMsbFirst]
  | append_singleton bits b ih =>
    intro j
    have hstep : bitsMsbFirst (bits ++ [b]) = 2 * bitsMsbFirst bits + b.toNat := by simp [bitsMsbFirst]
    have hb := Bool.toNat_le b
    rw [hstep, List.reverse_append, List.reverse_singleton, List.singleton_append]
    cases j with
    | zero => cases b <;> simp [Nat.testBit_zero]
    | succ j =>
      rw [List.getD_cons_succ, ← ih j, Nat.testBit_succ]
      congr 1
      omega

/-- Bit 31 - m of word k of the code bits is code bit 32k + m (10_state.md R35). -/
theorem getLsbD_codeBitsWord (c : CodeBits) (k : Nat) {m : Nat} (hm : m < 32) :
    (codeBitsWord c k).getLsbD (31 - m) = c.getLsbD (32 * k + m) := by
  have hlt : 31 - m < 32 := by omega
  have hm' : 31 - (31 - m) = m := by omega
  rw [codeBitsWord, BitVec.getLsbD_ofNat, testBit_bitsMsbFirst]
  simp [hlt, List.getD_eq_getElem?_getD, hm']

/-- Word 1 of a NODE entry, bit by bit (10_state.md R32). -/
theorem getLsbD_nodeWord (n : NodeEntry) (i : Nat) : (n.word 1).getLsbD i =
    if i < 8 then n.symbol.getLsbD i
    else if i - 8 < 9 then n.right.getLsbD (i - 8)
    else if i - 8 - 9 < 9 then n.left.getLsbD (i - 8 - 9)
    else if i - 8 - 9 - 9 < 5 then false
    else (BitVec.ofBool n.isLeaf).getLsbD (i - 8 - 9 - 9 - 5) := by
  show BitVec.getLsbD (BitVec.ofBool n.isLeaf ++ 0#5 ++ n.left ++ n.right ++ n.symbol) i = _
  simp only [BitVec.getLsbD_append, BitVec.getLsbD_zero]

/-- The fields of word 1 of a NODE entry (10_state.md R32). -/
theorem nodeWord_fields (n : NodeEntry) :
    (n.word 1).getLsbD 31 = n.isLeaf ∧ (n.word 1).extractLsb 30 26 = 0 ∧ (n.word 1).extractLsb 25 17 = n.left ∧
      (n.word 1).extractLsb 16 8 = n.right ∧ (n.word 1).extractLsb 7 0 = n.symbol := by
  refine ⟨?_, ?_, ?_, ?_, ?_⟩
  · rw [getLsbD_nodeWord]; simp
  all_goals
    apply BitVec.eq_of_getLsbD_eq
    intro i hi
    rw [BitVec.getLsbD_extractLsb, getLsbD_nodeWord]
  · rw [if_neg (by omega), if_neg (by omega), if_neg (by omega), if_pos (by omega)]; simp
  · rw [if_neg (by omega), if_neg (by omega), if_pos (by omega), show 17 + i - 8 - 9 = i by omega]; simp; omega
  · rw [if_neg (by omega), if_pos (by omega), show 8 + i - 8 = i by omega]; simp; omega
  · rw [if_pos (by omega)]; simp; omega

/-- STATUS as read, bit by bit (10_state.md R22). -/
theorem statusWord_bits (r : Regs) :
    r.statusWord.getLsbD 0 = r.busy ∧ r.statusWord.getLsbD 1 = r.done ∧ r.statusWord.getLsbD 2 = r.err ∧
      r.statusWord.getLsbD 3 = r.treeValid ∧ r.statusWord.getLsbD 4 = r.wrBusy ∧
      r.statusWord.getLsbD 5 = (r.irqEn && r.done) ∧ ∀ k, 6 ≤ k → r.statusWord.getLsbD k = false := by
  have bit (k : Nat) : r.statusWord.getLsbD k = BitVec.getLsbD (0#26 ++ BitVec.ofBool r.irq ++ BitVec.ofBool r.wrBusy ++
      BitVec.ofBool r.treeValid ++ BitVec.ofBool r.err ++ BitVec.ofBool r.done ++ BitVec.ofBool r.busy) k := rfl
  simp only [bit, BitVec.getLsbD_append]
  refine ⟨by simp, by simp, by simp, by simp, by simp, by simp [Regs.irq], fun k hk => ?_⟩
  rw [if_neg (by omega), if_neg (by omega), if_neg (by omega), if_neg (by omega), if_neg (by omega), if_neg (by omega),
    BitVec.getLsbD_zero]

/-! ### Bits without storage (93_implementation_defined.md section 3, log entry 3) -/

/-- The bits of a mask of the low `w` bits. -/
theorem le_of_getLsbD_mask {w k : Nat} (hk : k < 32) (h : (BitVec.ofNat 32 (2 ^ w - 1)).getLsbD k = false) : w ≤ k := by
  rw [BitVec.getLsbD_ofNat, Nat.testBit_two_pow_sub_one] at h
  simpa [hk] using h

theorem getLsbD_readBelow {m : Memory} {n a j : Nat} (h : (dataByteBits n a).getLsbD j = false) :
    (m.readBelow n a).getLsbD j = false := by
  unfold dataByteBits at h
  unfold Memory.readBelow
  split at h
  · by_cases hj : j < 8
    · interval_cases j <;> exact absurd h (by decide)
    · exact BitVec.getLsbD_of_ge _ _ (by omega)
  · rw [if_neg ‹_›]; exact BitVec.getLsbD_zero

theorem getLsbD_setWidth_of_le {w : Nat} (x : BitVec w) {k : Nat} (h : w ≤ k) : (x.setWidth 32).getLsbD k = false := by
  rw [BitVec.getLsbD_setWidth, BitVec.getLsbD_of_ge x k h, Bool.and_false]

theorem getLsbD_errcodeWord {r : Regs} {k : Nat} (h : 4 ≤ k) : r.errcodeWord.getLsbD k = false := by
  show BitVec.getLsbD (0#28 ++ r.errcode) k = false
  rw [BitVec.getLsbD_append, if_neg (by omega), BitVec.getLsbD_zero]

/-- Index 511 has no node: its slot shows the blank one (10_state.md R32). -/
theorem nodes_entry_null (n : Nodes) (w : Nat) : (n.entry 0x1FF).word w = 0 := by
  have h : n.entry 0x1FF = NodeEntry.blank := by simp [Nodes.entry]
  rw [h]
  unfold NodeEntry.word
  split <;> rfl

/-- A bit without storage is 0 in the word at its target. -/
theorem getLsbD_peek_of_not_stored (s : State) (x : Target) {k : Nat} (hk : k < 32)
    (h : (x.storedBits s.dataBytes).getLsbD k = false) : (s.peek x).getLsbD k = false := by
  have all (h : (0xFFFFFFFF : Word).getLsbD k = false) : (s.peek x).getLsbD k = false :=
    absurd (le_of_getLsbD_mask (w := 32) hk h) (by omega)
  unfold Target.storedBits at h
  split at h
  case h_1 => exact getLsbD_setWidth_of_le _ (le_of_getLsbD_mask (w := 9) hk h)
  case h_2 => exact getLsbD_setWidth_of_le _ (le_of_getLsbD_mask (w := 9) hk h)
  case h_3 => exact getLsbD_setWidth_of_le _ (le_of_getLsbD_mask (w := 9) hk h)
  case h_4 => exact getLsbD_setWidth_of_le _ (le_of_getLsbD_mask (w := 8) hk h)
  case h_5 => exact getLsbD_errcodeWord (le_of_getLsbD_mask (w := 4) hk h)
  case h_6 => exact getLsbD_setWidth_of_le _ (le_of_getLsbD_mask (w := 10) hk h)
  case h_7 i w =>
    split at h
    · next hi =>
      rw [State.peek, hi, nodes_entry_null]
      exact BitVec.getLsbD_zero
    · exact all h
  case h_8 p w =>
    split at h
    · next hw => rw [hw]; exact BitVec.getLsbD_zero
    · exact all h
  case h_9 b w =>
    split at h
    · next hw =>
      obtain rfl : k = 0 := by
        by_contra hne
        have hmask : (0xFFFFFFFE : Word).getLsbD k = (BitVec.ofNat 32 (2 ^ 31 - 1)).getLsbD (k - 1) := by
          interval_cases k <;> first | rfl | exact absurd rfl hne
        have := le_of_getLsbD_mask (by omega) (hmask ▸ h)
        omega
      rw [State.peek, hw]
      exact (getLsbD_codeBitsWord _ 7 (m := 31) (by omega)).trans (BitVec.getLsbD_of_ge _ _ (by decide))
    · exact all h
  case h_10 a =>
    have h : BitVec.getLsbD (dataByteBits s.dataBytes (a + 3) ++ dataByteBits s.dataBytes (a + 2) ++
      dataByteBits s.dataBytes (a + 1) ++ dataByteBits s.dataBytes a) k = false := h
    show BitVec.getLsbD (s.ram.data.readBelow s.dataBytes (a + 3) ++ s.ram.data.readBelow s.dataBytes (a + 2) ++
      s.ram.data.readBelow s.dataBytes (a + 1) ++ s.ram.data.readBelow s.dataBytes a) k = false
    simp only [BitVec.getLsbD_append] at h ⊢
    split_ifs at h ⊢ <;> exact getLsbD_readBelow h
  all_goals exact all h

/-- A bit without storage reads 0 at any time. -/
theorem getLsbD_readData_of_not_stored (s : State) {addr : BusAddr} {x : Target} (hx : target addr = x) {k : Nat}
    (h : k < 32 → (x.storedBits s.dataBytes).getLsbD k = false) : (s.readData addr).getLsbD k = false := by
  by_cases hk : k < 32
  · rw [State.readData, hx]
    split
    · rw [BitVec.getLsbD_and, h hk, Bool.and_false]
    · exact getLsbD_peek_of_not_stored s x hk (h hk)
  · exact BitVec.getLsbD_of_ge _ _ (by omega)

/-- A word without storage reads 0 at any time. -/
theorem readData_of_no_storage (s : State) {addr : BusAddr} {x : Target} (hx : target addr = x)
    (h : x.storedBits s.dataBytes = 0) : s.readData addr = 0 := by
  apply BitVec.eq_of_getLsbD_eq
  intro k _
  rw [getLsbD_readData_of_not_stored s hx fun _ => by rw [h]; exact BitVec.getLsbD_zero]
  exact BitVec.getLsbD_zero.symm

/-- The bits above a mask of the low `w` bits. -/
theorem getLsbD_mask_of_le {w k : Nat} (h : w ≤ k) : (BitVec.ofNat 32 (2 ^ w - 1)).getLsbD k = false := by
  rw [BitVec.getLsbD_ofNat, Nat.testBit_two_pow_sub_one]
  simp; omega

/-! ### The windows and the registers -/

/-- Settles O14: one entry of FREQ, read and stored. -/
theorem freqWindowReadsAndWritesEntries : Obligations.FreqWindowReadsAndWritesEntries := by
  intro s b addr v rest hb ha
  have ht : target addr = .freq b := by rw [target_freq ha b.isLt, BitVec.ofNat_toNat, BitVec.setWidth_eq]
  refine ⟨fun ho => by rw [readData_of_observed addr hb ho, ht]; rfl, fun hn => ?_⟩
  refine ⟨s.ram.freq.store b v, ?_, fun c => entry_store s.ram.freq b c v⟩
  rw [step_wr hn, ht]
  simp [State.writeTarget, State.protectedWrite, hb]

/-- Settles O20: the two words of an entry, and the slot without storage. -/
theorem nodeWindowLayout : Obligations.NodeWindowLayout := by
  intro s addr
  refine ⟨fun hb ho i hi => ⟨fun ha => ?_, fun ha => ?_⟩, fun h1 h2 => ?_⟩
  · rw [readData_of_observed addr hb ho, target_node (w := 0) ha (by omega) (by omega)]; rfl
  · rw [readData_of_observed addr hb ho, target_node ha (by omega) (by omega)]
    exact nodeWord_fields _
  · exact readData_of_no_storage s
      (target_node (i := 511) (w := addr.toNat / 4 - 0x7FE) (by omega) (by omega) (by omega)) rfl

/-- Settles O21: the three words of a slot, and the word without storage. -/
theorem heapWindowLayout : Obligations.HeapWindowLayout := by
  intro s p addr h1 hp
  refine ⟨fun hb ho => ⟨fun ha => ?_, fun ha => ?_, fun ha => ?_⟩, fun ha => ?_⟩
  · rw [readData_of_observed addr hb ho, target_heap (w := 0) ha h1 hp (by omega)]; rfl
  · rw [readData_of_observed addr hb ho, target_heap ha h1 hp (by omega)]; rfl
  · rw [readData_of_observed addr hb ho, target_heap ha h1 hp (by omega)]; rfl
  · exact readData_of_no_storage s (target_heap ha h1 hp (by omega)) rfl

/-- Settles O22: the lengths, the code bits first bit highest, and the bit without storage. -/
theorem codeWindowsLayout : Obligations.CodeWindowsLayout := by
  intro s b addr
  have hsym : BitVec.ofNat 8 b.toNat = b := by rw [BitVec.ofNat_toNat, BitVec.setWidth_eq]
  refine ⟨fun hb ho => ⟨fun ha => ?_, fun k m hk hm ha => ?_⟩, fun ha => ?_⟩
  · rw [readData_of_observed addr hb ho, target_codeLen ha b.isLt, hsym]; rfl
  · rw [readData_of_observed addr hb ho, target_codeBits ha b.isLt hk, hsym]
    exact getLsbD_codeBitsWord _ k hm
  · exact getLsbD_readData_of_not_stored s (target_codeBits ha b.isLt (by omega)) fun _ => by simp [Target.storedBits]

/-- The four byte addresses of a word read the same (20_memory.md R53). -/
theorem readData_congr (s : State) {addr addr' : BusAddr} (h : addr.toNat / 4 = addr'.toNat / 4) :
    s.readData addr = s.readData addr' := by
  simp only [State.readData, target_congr h]

/-- Clearing bits 1:0 of an address stays in its word. -/
theorem toNat_and_word (addr : BusAddr) : (addr &&& 0x1FFFC).toNat / 4 = addr.toNat / 4 := by
  have hlt := addr.isLt
  have hd := Nat.and_div_two_pow (a := addr.toNat) (b := 0x1FFFC) (n := 2)
  have hm := Nat.and_two_pow_sub_one_eq_mod (addr.toNat / 4) 15
  rw [BitVec.toNat_and]
  have he : BitVec.toNat (0x1FFFC : BusAddr) = 0x1FFFC := rfl
  rw [he]
  norm_num at hd hm
  omega

/-- ERRCODE reads its value while BUSY = 1 and once no completion is left to observe (70_reset_and_hazards.md R139). -/
theorem readData_errcode {s : State} {addr : BusAddr} (ht : target addr = .reg .errcode)
    (h : s.regs.busy = true ∨ s.env.observed = true) : s.readData addr = s.regs.errcodeWord := by
  have hf : s.readsFree (.reg .errcode) = false := by
    rcases h with h | h <;> simp [State.readsFree, h]
  rw [State.readData, ht, if_neg (by rw [hf]; decide)]
  rfl

/-- Settles O18: the registers at their addresses. -/
theorem registersReadTheirValues : Obligations.RegistersReadTheirValues := by
  intro s
  have plain (addr : BusAddr) {r : BusReg} (ht : target addr = .reg r) (hc : (Target.reg r).commandControlled = false)
      (he : r ≠ .errcode) : s.readData addr = s.regs.read r := by
    rw [readData_of_plain s addr (ht ▸ hc) (by rw [ht]; simpa using he), ht]; rfl
  have stuck (addr : BusAddr) {x : Target} (ht : target addr = x) (w : Nat)
      (hx : x.storedBits s.dataBytes = BitVec.ofNat 32 (2 ^ w - 1)) (k : Nat) (hk : w ≤ k) :
      (s.readData addr).getLsbD k = false :=
    getLsbD_readData_of_not_stored s ht fun _ => by rw [hx]; exact getLsbD_mask_of_le hk
  have status : s.readData 0x00010 = s.regs.statusWord := plain _ (r := .status) rfl rfl (by decide)
  obtain ⟨s0, s1, s2, s3, s4, s5, s6⟩ := statusWord_bits s.regs
  rw [status]
  refine ⟨plain _ (r := .id) rfl rfl (by decide), plain _ (r := .version) rfl rfl (by decide), ?_,
    plain _ (r := .cmd) rfl rfl (by decide), fun h => ?_, stuck _ (x := .reg .errcode) rfl 4 rfl,
    plain _ (r := .arg0) rfl rfl (by decide), plain _ (r := .arg1) rfl rfl (by decide),
    plain _ (r := .arg2) rfl rfl (by decide), plain _ (r := .arg3) rfl rfl (by decide),
    s0, s1, s2, s3, s4, s5, s6, fun addr => readData_congr s (toNat_and_word addr).symm, fun k hk => ⟨?_, ?_, ?_⟩,
    stuck _ (x := .reg .treeMaxlen) rfl 8 rfl, stuck _ (x := .reg .nodeCount) rfl 10 rfl, fun hb ho => ?_⟩
  · rw [plain _ (r := .ctrl) rfl rfl (by decide)]
    show 0#31 ++ BitVec.ofBool s.regs.irqEn = _
    cases s.regs.irqEn <;> rfl
  · rw [readData_errcode rfl h]
    have hlt := s.regs.errcode.isLt
    apply BitVec.eq_of_toNat_eq
    show BitVec.toNat (0#28 ++ s.regs.errcode) = _
    rw [BitVec.toNat_append, BitVec.toNat_setWidth, Nat.mod_eq_of_lt (by omega)]
    simp
  · exact stuck _ (x := .reg .treeNleaf) rfl 9 rfl k hk
  · exact stuck _ (x := .reg .treeRoot) rfl 9 rfl k hk
  · exact stuck _ (x := .reg .pqSize) rfl 9 rfl k hk
  · have exactly (addr : BusAddr) {x : Target} (ht : target addr = x) : s.readData addr = s.peek x := by
      rw [readData_of_observed addr hb ho, ht]
    exact ⟨exactly _ (x := .reg .res0) rfl, exactly _ (x := .reg .res1) rfl, exactly _ (x := .reg .res2) rfl,
      exactly _ (x := .reg .treeNleaf) rfl, exactly _ (x := .reg .treeRoot) rfl, exactly _ (x := .reg .treeTotal) rfl,
      exactly _ (x := .reg .treeMaxlen) rfl, exactly _ (x := .reg .nodeCount) rfl, exactly _ (x := .reg .pqSize) rfl,
      exactly _ (x := .reg .pqSeq) rfl⟩

end Sys2Proof.Machine
end

section
/-! SUPPORT. What a step can do to DATA, said once: commands, a stopped command's write set and host writes store bytes inside
the DATA RAM and do nothing else to it (20_memory.md R54, R60). The canonical form of DATA and its bound follow. -/

namespace Sys2Proof.Machine

/-! ### Writes inside a buffer -/

/-- `m'` is `m` after any number of byte writes inside the buffer [a, a + n). -/
def Memory.WrittenIn (m : Memory) (a n : Nat) (m' : Memory) : Prop :=
  Relation.ReflTransGen (fun m₁ m₂ => ∃ k < n, ∃ v, m₂ = m₁.write (a + k) v) m m'

theorem Memory.WrittenIn.refl (m : Memory) (a n : Nat) : m.WrittenIn a n m := Relation.ReflTransGen.refl

theorem Memory.WrittenIn.trans {m₁ m₂ m₃ : Memory} {a n : Nat} (h : m₁.WrittenIn a n m₂) (h' : m₂.WrittenIn a n m₃) :
    m₁.WrittenIn a n m₃ := Relation.ReflTransGen.trans h h'

theorem write_writtenIn (m : Memory) (a : Nat) {k n : Nat} (hk : k < n) (v : Byte) :
    m.WrittenIn a n (m.write (a + k) v) := Relation.ReflTransGen.single ⟨k, hk, v, rfl⟩

/-- A buffer inside the DATA RAM is written inside the DATA RAM. -/
theorem Memory.WrittenIn.inside {m m' : Memory} {a n bound : Nat} (h : m.WrittenIn a n m') (hb : a + n ≤ bound) :
    m.WrittenIn 0 bound m' := by
  refine Relation.ReflTransGen.mono ?_ m m' h
  rintro m₁ m₂ ⟨k, hk, v, e⟩
  exact ⟨a + k, by omega, v, by rw [e, Nat.zero_add]⟩

/-- Writes inside the DATA RAM keep the canonical form and its bound. -/
theorem Memory.WrittenIn.inRam {m m' : Memory} {bound : Nat} (h : m.WrittenIn 0 bound m') (hm : m.inRam bound) :
    m'.inRam bound := by
  induction h with
  | refl => exact hm
  | tail _ hw ih =>
    obtain ⟨k, hk, v, e⟩ := hw
    rw [e, Nat.zero_add]
    exact inRam_write _ _ _ _ ih hk

theorem fill_writtenIn (m : Memory) (a : Nat) (f : Nat → Byte) {k n : Nat} (hk : k ≤ n) :
    m.WrittenIn a n (m.fill a f k) := by
  induction k with
  | zero => exact .refl m a n
  | succ k ih => exact (ih (by omega)).trans (write_writtenIn _ a hk (f k))

theorem writeBelow_writtenIn (m : Memory) (n a : Nat) (v : Byte) : m.WrittenIn 0 n (m.writeBelow n a v) := by
  unfold Memory.writeBelow
  split
  · next ha => exact Nat.zero_add a ▸ write_writtenIn m 0 ha v
  · exact .refl m 0 n

theorem writeWord_writtenIn (m : Memory) (n a : Nat) (v : Word) : m.WrittenIn 0 n (m.writeWord n a v) :=
  (((writeBelow_writtenIn _ _ _ _).trans (writeBelow_writtenIn _ _ _ _)).trans (writeBelow_writtenIn _ _ _ _)).trans
    (writeBelow_writtenIn _ _ _ _)

/-! ### ENCODE and DECODE write their output buffer (43_bitstream_codec.md R106, R109) -/

theorem flush_writtenIn {p q : Packer} {dst cap : Nat} (h : p.flush dst cap = .ok q ∨ p.flush dst cap = .error q) :
    p.data.WrittenIn dst cap q.data := by
  unfold Packer.flush at h
  split at h
  · obtain h | h := h <;> cases h
    exact .refl _ dst cap
  · next hc =>
    obtain h | h := h <;> cases h
    exact write_writtenIn _ dst (by omega) _

theorem pushBit_writtenIn {p q : Packer} {dst cap : Nat} {b : Bool}
    (h : p.pushBit dst cap b = .ok q ∨ p.pushBit dst cap b = .error q) : p.data.WrittenIn dst cap q.data := by
  unfold Packer.pushBit at h
  dsimp only at h
  split at h
  · exact (flush_writtenIn h :)
  · obtain h | h := h <;> cases h
    exact .refl _ dst cap

theorem pushBits_writtenIn {dst cap : Nat} {q : Packer} (bits : List Bool) : ∀ {p : Packer},
    (p.pushBits dst cap bits = .ok q ∨ p.pushBits dst cap bits = .error q) → p.data.WrittenIn dst cap q.data := by
  induction bits with
  | nil =>
    intro p h
    obtain h | h := h <;> cases h
    exact .refl _ dst cap
  | cons b bits ih =>
    intro p h
    unfold Packer.pushBits at h
    split at h
    · next hok => exact (pushBit_writtenIn (.inl hok)).trans (ih h)
    · next herr =>
      obtain h | h := h <;> cases h
      exact pushBit_writtenIn (.inr herr)

theorem pad_writtenIn (p : Packer) (dst cap len : Nat) : p.data.WrittenIn dst cap (p.pad dst cap len).packer.data := by
  unfold Packer.pad
  split
  · exact .refl _ dst cap
  · split
    · next hok => exact (flush_writtenIn (.inl hok) :)
    · next herr => exact (flush_writtenIn (.inr herr) :)

theorem packBytes_writtenIn (ram : Rams) (src dst cap todo : Nat) : ∀ (i : Nat) (p : Packer),
    p.data.WrittenIn dst cap (packBytes ram src dst cap todo i p).packer.data := by
  induction todo with
  | zero => exact fun i p => pad_writtenIn p dst cap i
  | succ todo ih =>
    intro i p
    unfold packBytes
    split
    · exact .refl _ dst cap
    · split
      · next hok => exact (pushBits_writtenIn _ (.inl hok)).trans (ih _ _)
      · next herr => exact pushBits_writtenIn _ (.inr herr)

/-- DECODE's loop stores TREE_TOTAL symbols at most. -/
theorem walkBits_writtenIn (node : Nodes) (r : Regs) (todo : Nat) : ∀ w : Walker,
    w.data.WrittenIn r.dst r.treeTotal.toNat (walkBits node r todo w).1.data := by
  induction todo with
  | zero =>
    intro w
    unfold walkBits
    split <;> exact .refl _ _ _
  | succ todo ih =>
    intro w
    have emits (hn : w.nsym < r.treeTotal.toNat) (x : Byte) (v : Walker) (hv : v.data = w.data.write (r.dst + w.nsym) x) :
        w.data.WrittenIn r.dst r.treeTotal.toNat (walkBits node r todo v).1.data :=
      (write_writtenIn _ r.dst hn x).trans (hv ▸ ih v)
    unfold walkBits
    split
    · next hn =>
      extract_lets bit w1 cur
      split
      · split
        · exact .refl _ _ _
        · exact emits hn _ _ rfl
      · split
        · exact emits hn _ _ rfl
        · exact ih { w1 with cur := cur }
    · exact .refl _ _ _

/-- The output buffer lies inside the DATA RAM once the buffer checks have passed (43_bitstream_codec.md R105). -/
theorem dst_fits_of_bufferError {s : State} (h : s.bufferError = none) : s.regs.dst + s.regs.cap ≤ s.dataBytes := by
  unfold State.bufferError at h
  dsimp only at h
  split at h
  · cases h
  · split at h
    · cases h
    · next hfit => simp [fits] at hfit; exact hfit.2

/-! ### What a step does to DATA -/

/-- From `s` to `t` DATA is written inside the DATA RAM and nowhere else. -/
structure State.WritesData (s t : State) : Prop where
  dataBytes : t.dataBytes = s.dataBytes
  data : s.ram.data.WrittenIn 0 s.dataBytes t.ram.data

theorem writesData_of_eq {s t : State} (hn : t.dataBytes = s.dataBytes) (hd : t.ram.data = s.ram.data) :
    s.WritesData t := ⟨hn, hd ▸ .refl _ _ _⟩

theorem State.WritesData.trans {s u t : State} (h : s.WritesData u) (h' : u.WritesData t) : s.WritesData t :=
  ⟨h'.dataBytes.trans h.dataBytes, h.data.trans (h.dataBytes ▸ h'.data)⟩

theorem State.WritesData.memoryOk {s t : State} (h : s.WritesData t) (hs : s.memoryOk) : t.memoryOk := by
  have := h.data.inRam hs
  rwa [← h.dataBytes] at this

theorem State.SameBlock.writesData {s u : State} (h : s.SameBlock u) : s.WritesData u :=
  writesData_of_eq h.dataBytes (by rw [h.ram])

theorem drawn_writesData (s : State) : s.WritesData s.drawn := writesData_of_eq rfl rfl

theorem withProgram_writesData (s : State) (p : List Input) : s.WritesData (s.withProgram p) := writesData_of_eq rfl rfl

/-- What a command does to DATA. -/
theorem exec_writesData {i : Instr} {s t : State} (h : exec i s = .next t) : s.WritesData t := by
  cases i
  case build =>
    rcases execBuild_cases s with ⟨e, he⟩ | ⟨-, -, he⟩ <;> cases h.symm.trans he <;> exact writesData_of_eq rfl rfl
  all_goals replace h := Host.Outcome.next.inj h
  case encode =>
    split at h
    · cases h; exact writesData_of_eq rfl rfl
    · next hbuf =>
      have hdata := (packBytes_writtenIn s.ram s.regs.src s.regs.dst s.regs.cap s.regs.len 0
        ⟨s.ram.data, 0, 0, 0, 0⟩).inside (dst_fits_of_bufferError hbuf)
      dsimp only at h
      split at h <;> cases h <;> exact ⟨rfl, hdata⟩
  case decode =>
    split at h
    · cases h; exact writesData_of_eq rfl rfl
    · next hbuf =>
      have hfit := dst_fits_of_bufferError hbuf
      dsimp only at h
      split at h
      · cases h; exact writesData_of_eq rfl rfl
      · have hdata := (walkBits_writtenIn s.ram.node s.regs (8 * s.regs.len)
          ⟨s.ram.data, s.regs.treeRoot, 0, 0⟩).inside (bound := s.dataBytes) (by omega)
        split at h <;> cases h <;> exact ⟨rfl, hdata⟩
  -- No other command works on DATA.
  all_goals
    repeat' split at h
    all_goals cases h; exact writesData_of_eq rfl rfl

theorem engineStep_writesData {s t : State} (h : s.engineStep = .next t) : s.WritesData t := by
  rcases engineStep_cases s with ⟨i, -, e⟩ | ⟨_, -, e⟩ <;> rw [e] at h
  · exact exec_writesData h
  · cases h; exact writesData_of_eq rfl rfl

/-- What a stopped command's write set does to DATA (60_exceptions.md R127). -/
theorem spoil_writesData (s : State) (c : Option Instr) (k : Nat) : s.WritesData (s.spoil c k) := by
  have out : s.WritesData (s.spoilOutput k) := by
    unfold State.spoilOutput
    split
    · exact writesData_of_eq rfl rfl
    · next hbuf => exact ⟨rfl, (fill_writtenIn _ _ _ le_rfl).inside (dst_fits_of_bufferError hbuf)⟩
  rcases c with _ | i
  · exact writesData_of_eq rfl rfl
  · cases i with
    | encode => exact out
    | decode => exact out
    | _ => refine writesData_of_eq ?_ ?_ <;> simp [State.spoil]

theorem abort_writesData (s : State) : s.WritesData s.abort :=
  (spoil_writesData s (command? s.regs.cmd) s.env.draws).trans (writesData_of_eq rfl rfl)

theorem softReset_writesData (s : State) : s.WritesData s.softReset := by
  unfold State.softReset
  split
  · exact (spoil_writesData s (command? s.regs.cmd) s.env.draws).trans (writesData_of_eq rfl rfl)
  · exact writesData_of_eq rfl rfl

theorem powerOnReset_writesData (s : State) : s.WritesData s.powerOnReset :=
  ⟨rfl, fill_writtenIn _ 0 _ le_rfl⟩

theorem writeCtrl_writesData {s t : State} {v : Word} (h : s.writeCtrl v = .next t) : s.WritesData t := by
  have irq : s.WritesData { s with regs.irqEn := v.getLsbD 0 } := writesData_of_eq rfl rfl
  unfold State.writeCtrl at h
  split at h
  · cases h; exact softReset_writesData s
  · dsimp only at h
    split at h
    · split at h
      · cases h; exact (irq.trans (abort_writesData _)).trans (drawn_writesData _)
      · exact (irq.trans (drawn_writesData _)).trans (engineStep_writesData h)
    · cases h; exact irq

theorem protectedWrite_writesData {s w t : State} (h : s.protectedWrite w = .next t) (hw : s.WritesData w) :
    s.WritesData t := by
  unfold State.protectedWrite at h
  cases h
  split
  · exact writesData_of_eq rfl rfl
  · exact hw

/-- What a host write does to DATA: a word stored below DATA_BYTES, or what a write to CTRL does. -/
theorem writeTarget_writesData {s t : State} {v : Word} {x : Target} (h : s.writeTarget v x = .next t) :
    s.WritesData t := by
  unfold State.writeTarget at h
  split at h
  case h_1 => exact writeCtrl_writesData h
  case h_10 a => exact protectedWrite_writesData h ⟨rfl, writeWord_writtenIn _ _ a v⟩
  case h_2 | h_4 | h_5 | h_6 | h_7 | h_9 => exact protectedWrite_writesData h (writesData_of_eq rfl rfl)
  all_goals cases h; exact writesData_of_eq rfl rfl

theorem hostRead_writesData (s : State) (addr : BusAddr) : s.WritesData (s.hostRead addr) :=
  writesData_of_eq (hostRead_dataBytes s addr) (by rw [hostRead_ram])

/-- What a step does to DATA. -/
theorem step_writesData {s t : State} (h : step s = .next t) : s.WritesData t := by
  have turn := (useTurn_sameBlock s).writesData
  rcases step_cases s with ⟨-, e⟩ | ⟨-, -, e⟩ | ⟨addr, v, rest, -, e⟩ | ⟨addr, rest, -, e⟩ | ⟨addr, mask, v, rest, -, e⟩ |
    ⟨rest, -, e⟩ <;> rw [e] at h
  · exact turn.trans (engineStep_writesData h)
  · cases h; exact turn
  · exact (afterHost_sameBlock s rest _).writesData.trans (writeTarget_writesData h)
  · cases h; exact (turn.trans (hostRead_writesData _ addr)).trans (withProgram_writesData _ rest)
  · cases h
    split
    · exact (turn.trans (hostRead_writesData _ addr)).trans (withProgram_writesData _ rest)
    · exact turn.trans (hostRead_writesData _ addr)
  · cases h; exact (turn.trans (withProgram_writesData _ rest)).trans (powerOnReset_writesData _)

/-- Settles O56: a step writes DATA inside the DATA RAM only. -/
theorem stepKeepsDataInsideItsRam : Obligations.StepKeepsDataInsideItsRam := by
  intro s t hs h
  exact (step_writesData h).memoryOk hs

end Sys2Proof.Machine
end

section
/-! SUPPORT. The DATA window byte by byte (20_memory.md R54, R55), what reads leave and observe (R51, R62), and the engine's
step (R61). -/

namespace Sys2Proof.Machine

/-! ### Bytes of a word -/

/-- Byte j of four bytes put together, the first lowest (20_memory.md R55). -/
theorem extractLsb'_append_bytes (b : Nat → Byte) {j : Nat} (hj : j < 4) :
    (b 3 ++ b 2 ++ b 1 ++ b 0).extractLsb' (8 * j) 8 = b j := by
  apply BitVec.eq_of_getLsbD_eq
  intro i hi
  rw [BitVec.getLsbD_extractLsb', decide_eq_true hi, Bool.true_and]
  simp only [BitVec.getLsbD_append]
  obtain rfl | rfl | rfl | rfl : j = 0 ∨ j = 1 ∨ j = 2 ∨ j = 3 := by omega
  · rw [if_pos (by omega), show 8 * 0 + i = i by omega]
  · rw [if_neg (by omega), if_pos (by omega), show 8 * 1 + i - 8 = i by omega]
  · rw [if_neg (by omega), if_neg (by omega), if_pos (by omega), show 8 * 2 + i - 8 - 8 = i by omega]
  · rw [if_neg (by omega), if_neg (by omega), if_neg (by omega), show 8 * 3 + i - 8 - 8 - 8 = i by omega]

theorem readWord_byte (m : Memory) (n a : Nat) {j : Nat} (hj : j < 4) :
    (m.readWord n a).extractLsb' (8 * j) 8 = m.readBelow n (a + j) :=
  extractLsb'_append_bytes (fun j => m.readBelow n (a + j)) hj

theorem storedBits_data_byte (n a : Nat) {j : Nat} (hj : j < 4) :
    ((Target.data a).storedBits n).extractLsb' (8 * j) 8 = dataByteBits n (a + j) :=
  extractLsb'_append_bytes (fun j => dataByteBits n (a + j)) hj

/-- A DATA byte at or above DATA_BYTES reads 0 at any time (20_memory.md R54, log entry 3). -/
theorem readData_byte_above (s : State) {addr : BusAddr} {a j : Nat} (ht : target addr = .data a) (hj : j < 4)
    (h : s.dataBytes ≤ a + j) : (s.readData addr).extractLsb' (8 * j) 8 = 0 := by
  apply BitVec.eq_of_getLsbD_eq
  intro i hi
  have hbyte := storedBits_data_byte s.dataBytes a hj
  rw [dataByteBits, if_neg (by omega)] at hbyte
  have hbit := congrArg (BitVec.getLsbD · i) hbyte
  simp only [BitVec.getLsbD_extractLsb', hi, decide_true, Bool.true_and] at hbit ⊢
  rw [getLsbD_readData_of_not_stored s ht fun _ => hbit.trans BitVec.getLsbD_zero]
  exact BitVec.getLsbD_zero.symm

/-- Settles O15: the bytes of the word at offset 4k, read and stored. -/
theorem dataWindowIsLittleEndian : Obligations.DataWindowIsLittleEndian := by
  intro s k addr v rest ha
  have ht := target_data ha
  refine ⟨fun j hj h => readData_byte_above s ht hj h, fun hb => ⟨fun ho j hj => ?_, fun hn => ?_⟩⟩
  · rw [readData_of_observed addr hb ho, ht]
    exact readWord_byte _ _ _ hj
  · refine ⟨s.ram.data.writeWord s.dataBytes (4 * k) v, ?_, fun j hj => ?_, fun a h => ?_⟩
    · rw [step_wr hn, ht]
      simp [State.writeTarget, State.protectedWrite, hb]
    · rw [read_writeWord, Nat.add_sub_cancel_left]
      exact if_congr (by omega) rfl rfl
    · rw [read_writeWord, if_neg (by omega)]

/-- Settles O19: an unmapped address is no command-controlled state, so that it reads exactly, and what it reads is 0. -/
theorem unmappedReadsAreZero : Obligations.UnmappedReadsAreZero := by
  intro s addr ha
  have ht := target_unmapped ha
  rw [readData_of_plain s addr (by rw [ht]; rfl) (by rw [ht]; decide), ht]
  rfl

/-! ### Reads and the observation of a completion -/

/-- STATUS is the word at 0x10 only: every other address is that of CTRL, is busy-protected or ignores writes. -/
theorem target_eq_status_iff (addr : BusAddr) : target addr = .reg .status ↔ addr.toNat / 4 = 4 := by
  refine ⟨fun h => ?_, fun h => target_reg h (by omega) rfl⟩
  by_contra hne
  obtain hctrl | hprot | hign : addr.toNat / 4 = 2 ∨
      ((0x0000C ≤ addr.toNat ∧ addr.toNat < 0x00010) ∨ (0x00018 ≤ addr.toNat ∧ addr.toNat < 0x00028) ∨
        (0x00400 ≤ addr.toNat ∧ addr.toNat < 0x00800) ∨ 0x10000 ≤ addr.toNat) ∨
      (addr.toNat < 0x00008 ∨ (0x00014 ≤ addr.toNat ∧ addr.toNat < 0x00018) ∨
        (0x00028 ≤ addr.toNat ∧ addr.toNat < 0x00400) ∨ (0x00800 ≤ addr.toNat ∧ addr.toNat < 0x10000)) := by omega
  · rw [target_reg hctrl (by omega) rfl] at h; cases h
  · have := target_busyProtected hprot
    rw [h] at this
    exact absurd this (by decide)
  · have := target_ignoresWrites hign
    rw [h] at this
    exact absurd this (by decide)

/-- A read observes the completion exactly when it is of STATUS and shows BUSY = 0 or DONE = 1 (20_memory.md R62). -/
theorem observes_iff (s : State) (addr : BusAddr) :
    s.observes addr = true ↔ addr.toNat / 4 = 4 ∧ (s.regs.busy = false ∨ s.regs.done = true) := by
  simp [State.observes, target_eq_status_iff]

@[simp] theorem useTurn_readData (s : State) (addr : BusAddr) : s.useTurn.readData addr = s.readData addr := by
  unfold State.useTurn
  split <;> rfl

/-- Settles O16: a read is recorded, and its only other trace is the observation. -/
theorem readsHaveNoSideEffect : Obligations.ReadsHaveNoSideEffect := by
  intro s addr rest hn
  have hiff := observes_iff s.useTurn addr
  rw [useTurn_regs] at hiff
  refine ⟨(s.useTurn.hostRead addr).withProgram rest, ?_, by simp, by simp, by simp, rfl, by simp, fun h4 hshow => ?_,
    fun hnot => ?_⟩
  · simp only [step_of_host hn.1, State.hostStep, useTurn_program, hn.2]
  · have ho := hiff.2 ⟨h4, hshow⟩
    simp [ho]
  · have ho : s.useTurn.observes addr = false := by
      rw [← Bool.not_eq_true, hiff]
      rintro ⟨h4, hshow⟩
      rcases hnot with hne | ⟨hb, hd⟩
      · exact hne h4
      · exact absurd hshow (by simp [hb, hd])
    simp [ho]

/-! ### The engine's step -/

/-- An engine event on a word that decodes executes its command. -/
theorem engineStep_of_decode {s : State} {i : Instr} (h : decodeWord s.regs.cmd = .ok i) : s.engineStep = exec i s := by
  rw [State.engineStep, h]

theorem decodeWord_of_command {w : Word} {i : Instr} (h : command? w = some i) : decodeWord w = .ok i := by
  unfold command? at h
  cases hd : decodeWord w with
  | ok j => rw [hd] at h; exact congrArg Except.ok (Option.some.inj h)
  | error e => rw [hd] at h; cases h

/-- After `withFetchWord` the engine moves, and its turn is used up in the state of the acceptance. -/
theorem step_withFetchWord (s : State) (w : Nat) :
    step (s.withFetchWord 32 w) = (s.accept (BitVec.ofNat 32 (w % 2 ^ 32))).engineStep := rfl

/-- Settles O4: the engine's event on a decoded word, in the state with the turn used up. -/
theorem engineStepExecutesTheCommandInCmd : Obligations.EngineStepExecutesTheCommandInCmd := by
  refine ⟨fun s i hm hd => ?_, fun s w i hw => ?_⟩
  · rw [step_of_engine hm, engineStep_of_decode (by rwa [useTurn_regs])]
  · unfold decodeTableWord at hw
    split at hw
    · next hlt =>
      rw [step_withFetchWord, Nat.mod_eq_of_lt hlt.2]
      exact engineStep_of_decode (s := s.accept (BitVec.ofNat 32 w)) (decodeWord_of_command hw)
    · cases hw

end Sys2Proof.Machine
end

section
/-! SUPPORT. The decoder by its two fields (30_encoding.md R68 to R71): the encoder is its inverse, and the words outside the
opcode map are the illegal ones. -/

namespace Sys2Proof.Machine

/-- Decoding the word of a command gives the command (30_encoding.md R70). -/
@[simp] theorem decodeWord_encode (i : Instr) : decodeWord (encode i) = .ok i := by
  cases i <;> decide

/-- The valid words are the words of the commands, one each. -/
theorem decodeWord_eq_ok_iff {w : Word} {i : Instr} : decodeWord w = .ok i ↔ w = encode i :=
  ⟨eq_encode_of_decodeWord, fun h => h ▸ decodeWord_encode i⟩

/-- RSVD is looked at first (30_encoding.md R71). -/
theorem decodeWord_of_rsvd_ne_zero {w : Word} (h : rsvdField w ≠ 0) : decodeWord w = .error .reservedBits := if_pos h

theorem decodeWord_of_rsvd_eq_zero {w : Word} (h : rsvdField w = 0) : decodeWord w = decodeOp (opField w) :=
  if_neg (not_not.2 h)

/-- The opcode map ends at 0x8 (30_encoding.md R69). -/
theorem decodeOp_of_nine_le {op : BitVec 4} (h : 9 ≤ op.toNat) : decodeOp op = .error .reservedOpcode := by
  unfold decodeOp
  split
  case h_10 => rfl
  all_goals omega

/-- A number of at most 32 bits stands for what its word decodes to. -/
theorem decodeTableWord_of_lt {w : Nat} (h : w < 2 ^ 32) :
    decodeTableWord 32 w = (decodeWord (BitVec.ofNat 32 w)).toOption := if_pos ⟨le_rfl, h⟩

/-- The number of a command's word stands for the command. -/
theorem decodeTableWord_encode (i : Instr) : decodeTableWord 32 (encode i).toNat = some i := by
  rw [decodeTableWord_of_lt (encode i).isLt, BitVec.ofNat_toNat, BitVec.setWidth_eq, decodeWord_encode]
  rfl

/-- Settles O1: the table's words, row by row. -/
theorem decodeOfEncodeIsTheCommand : Obligations.DecodeOfEncodeIsTheCommand := decodeWord_encode

/-- Settles O2: the valid words are those of the encoder; the others fail by RSVD, then by OP. -/
theorem validWordsAreExactlyTheTable : Obligations.ValidWordsAreExactlyTheTable := by
  refine ⟨fun w i => ?_, fun w hr => decodeWord_of_rsvd_ne_zero hr, fun w hr hop => ?_⟩
  · rw [decodeWord_eq_ok_iff]
    cases i <;> simp [encode]
  · rw [decodeWord_of_rsvd_eq_zero hr]
    exact decodeOp_of_nine_le hop

/-- Settles O3: the nine rows are the encoder's; OP = 9 and RSVD != 0 stand for no command. -/
theorem opcodeTableWordsDecode : Obligations.OpcodeTableWordsDecode := by
  refine ⟨decodeTableWord_encode .nop, decodeTableWord_encode .freqClear, decodeTableWord_encode .freqCount,
    decodeTableWord_encode .build, decodeTableWord_encode .encode, decodeTableWord_encode .decode,
    decodeTableWord_encode .pqInit, decodeTableWord_encode .pqInsert, decodeTableWord_encode .pqExtract, ?_, ?_⟩
  · rw [decodeTableWord_of_lt (by decide), decodeWord_of_rsvd_eq_zero (by decide), decodeOp_of_nine_le (by decide)]
    rfl
  · rw [decodeTableWord_of_lt (by decide), decodeWord_of_rsvd_ne_zero (by decide)]
    rfl

end Sys2Proof.Machine
end

section
/-! SUPPORT. POLL (30_encoding.md R74): one read, after which the program is what the condition says. -/

namespace Sys2Proof.Machine

@[simp] theorem useTurn_observes (s : State) (addr : BusAddr) : s.useTurn.observes addr = s.observes addr := by
  simp [State.observes]

/-- A read does not observe the completion exactly when it is not of STATUS or shows a command still running
(20_memory.md R62). -/
theorem observes_eq_false_iff (s : State) (addr : BusAddr) :
    s.observes addr = false ↔ addr.toNat / 4 ≠ 4 ∨ (s.regs.busy = true ∧ s.regs.done = false) := by
  rw [← Bool.not_eq_true, observes_iff, not_and_or, not_or, Bool.not_eq_false, Bool.not_eq_true]

theorem withProgram_self {s : State} {p : List Input} (h : s.env.program = p) : s.withProgram p = s := by
  subst h; rfl

/-- A POLL is one read; it stays at the head of the program until its condition holds. -/
theorem step_poll {s : State} {addr : BusAddr} {mask v : Word} {rest : List Input}
    (h : s.hostNext (.poll addr mask v) rest) :
    step s = .next ((s.useTurn.hostRead addr).withProgram
      (if s.readData addr &&& mask = v then rest else s.env.program)) := by
  have stay : (s.useTurn.hostRead addr).withProgram s.env.program = s.useTurn.hostRead addr :=
    withProgram_self (by simp)
  rw [step_of_host h.1, apply_ite (State.withProgram _), stay]
  simp only [State.hostStep, useTurn_program, h.2, useTurn_readData]

/-- Settles O17: the read leaves the block, and the condition on its word alone decides whether the POLL is done. -/
theorem pollRepeatsUntilItsConditionHolds : Obligations.PollRepeatsUntilItsConditionHolds := by
  intro s addr mask v rest hn
  refine ⟨_, step_poll hn, by simp, by simp, by simp, by simp, fun hc => if_pos hc, fun hc => if_neg hc,
    fun h4 hshow => ?_, fun hnot => ?_⟩
  · simp [(observes_iff s addr).2 ⟨h4, hshow⟩]
  · simp [(observes_eq_false_iff s addr).2 hnot]

end Sys2Proof.Machine
end

section
/-! SUPPORT. The heap invariant of the queue: the order of entries as a number, the loops that restore it, and the primitives that keep
it (40_priority_queue.md R79, R80, R82, R83). -/

namespace Sys2Proof.Machine

/-! ### The order as a number -/

/-- An entry's place in the order (KEY, SEQ) as one number (40_priority_queue.md R79). -/
def HeapEntry.rank (e : HeapEntry) : Nat := e.key.toNat * 2 ^ 32 + e.seq.toNat

theorem rank_le_iff (a b : HeapEntry) :
    a.rank ≤ b.rank ↔ a.key.toNat < b.key.toNat ∨ (a.key = b.key ∧ a.seq.toNat ≤ b.seq.toNat) := by
  have ha := a.seq.isLt
  have hb := b.seq.isLt
  rw [← BitVec.toNat_inj, HeapEntry.rank, HeapEntry.rank]
  omega

theorem less_iff_rank (a b : HeapEntry) : a.less b = true ↔ a.rank < b.rank := by
  have ha := a.seq.isLt
  have hb := b.seq.isLt
  rw [less_iff, ← BitVec.toNat_inj, HeapEntry.rank, HeapEntry.rank]
  omega

theorem less_eq_false_iff_rank (a b : HeapEntry) : a.less b = false ↔ b.rank ≤ a.rank := by
  rw [← Bool.not_eq_true, less_iff_rank, Nat.not_lt]

/-! ### The heap invariant of a queue, by its entries -/

/-- In positions 1 to n no entry is less than its parent (40_priority_queue.md R80). -/
def Heap.Ordered (h : Heap) (n : Nat) : Prop := ∀ i, 2 ≤ i → i ≤ n → (h.slot (i / 2)).rank ≤ (h.slot i).rank

/-- The SEQ values of the first n positions are distinct exactly when they are so as a list. -/
theorem nodup_seq_iff (q : Queue) : (q.live.map HeapEntry.seq).Nodup ↔
    ∀ i j, 1 ≤ i → i < j → j ≤ q.size → (q.heap.slot i).seq ≠ (q.heap.slot j).seq := by
  rw [Queue.live, List.map_map, List.nodup_iff_pairwise_ne, List.pairwise_map, List.pairwise_iff_getElem]
  simp only [List.length_range, List.getElem_range, Function.comp_apply]
  constructor
  · intro h i j h1 hij hj
    have := h (i - 1) (j - 1) (by omega) (by omega) (by omega)
    rwa [Nat.sub_add_cancel h1, Nat.sub_add_cancel (by omega)] at this
  · intro h i j hi hj hij
    exact h (i + 1) (j + 1) (by omega) (by omega) (by omega)

/-- The heap invariant in the terms of the order of positions and of the entries as a list, which the primitives
permute. -/
theorem Queue.ok_iff (q : Queue) : q.ok ↔ q.size ≤ 256 ∧ q.heap.Ordered q.size ∧
    (q.live.map HeapEntry.seq).Nodup ∧ ∀ e ∈ q.live, e.seq.toNat < q.seq := by
  have below : (∀ e ∈ q.live, e.seq.toNat < q.seq) ↔ ∀ i, 1 ≤ i → i ≤ q.size → (q.heap.slot i).seq.toNat < q.seq := by
    simp only [mem_live]
    exact ⟨fun h i h1 h2 => h _ ⟨i, h1, h2, rfl⟩, fun h e ⟨i, h1, h2, he⟩ => he ▸ h i h1 h2⟩
  rw [nodup_seq_iff, below, Queue.ok, Heap.Ordered]
  simp only [less_eq_false_iff_rank]

theorem Queue.ok.size_le {q : Queue} (h : q.ok) : q.size ≤ 256 := by
  obtain ⟨hsize, -⟩ := h
  exact hsize

/-- An empty queue meets the invariant. -/
theorem Queue.ok_of_empty {q : Queue} (h : q.size = 0) : q.ok := by
  refine ⟨by omega, ?_, ?_, ?_⟩ <;> intros <;> omega

/-- With the heap invariant the root is least (40_priority_queue.md R80). -/
theorem Heap.Ordered.root_le {h : Heap} {n : Nat} (ho : h.Ordered n) (p : Nat) :
    1 ≤ p → p ≤ n → (h.slot 1).rank ≤ (h.slot p).rank := by
  induction p using Nat.strong_induction_on with
  | _ p ih =>
    intro h1 h2
    rcases Nat.eq_or_lt_of_le h1 with rfl | hp
    · exact le_rfl
    · exact (ih (p / 2) (by omega) (by omega) (by omega)).trans (ho p hp h2)

/-! ### Sifting up keeps the order (40_priority_queue.md R82) -/

/-- In positions 1 to n only the entry of position i may be less than its parent, and the entries below it are no less
than that parent. -/
structure Heap.OrderedButUp (h : Heap) (n i : Nat) : Prop where
  pair : ∀ j, 2 ≤ j → j ≤ n → j ≠ i → (h.slot (j / 2)).rank ≤ (h.slot j).rank
  skip : ∀ j, j ≤ n → j / 2 = i → 2 ≤ i → (h.slot (i / 2)).rank ≤ (h.slot j).rank

/-- Where nothing is out of order the heap is ordered. -/
theorem Heap.OrderedButUp.ordered {h : Heap} {n i : Nat} (ho : h.OrderedButUp n i)
    (hi : 2 ≤ i → (h.slot (i / 2)).rank ≤ (h.slot i).rank) : h.Ordered n := by
  intro j h2 hj
  by_cases e : j = i
  · subst e; exact hi h2
  · exact ho.pair j h2 hj e

/-- A swap of a lesser entry with its parent moves the place that may be out of order one position up. -/
theorem Heap.OrderedButUp.swap {h : Heap} {n i : Nat} (ho : h.OrderedButUp n i) (hn : n ≤ 256) (hi : i ≤ n)
    (h1 : 1 < i) (hlt : (h.slot i).rank < (h.slot (i / 2)).rank) : (h.swap i (i / 2)).OrderedButUp n (i / 2) := by
  have hs (q : Nat) := slot_swap h i (i / 2) q (by omega) (by omega) (by omega) (by omega)
  have up : (h.swap i (i / 2)).slot (i / 2) = h.slot i := by rw [hs, if_pos rfl]
  have down : (h.swap i (i / 2)).slot i = h.slot (i / 2) := by rw [hs, if_neg (by omega), if_pos rfl]
  have other (q : Nat) (h1 : q ≠ i) (h2 : q ≠ i / 2) : (h.swap i (i / 2)).slot q = h.slot q := by
    rw [hs, if_neg h2, if_neg h1]
  constructor
  case pair =>
    intro j h2 hj hne
    by_cases e : j = i
    · subst e; rw [up, down]; omega
    rw [other j e hne]
    have old := ho.pair j h2 hj e
    by_cases ec : j / 2 = i
    · rw [ec, down]; exact ho.skip j hj ec (by omega)
    by_cases es : j / 2 = i / 2
    · rw [es, up]; rw [es] at old; omega
    · rw [other _ ec es]; exact old
  case skip =>
    intro j hj he h2
    have top := ho.pair (i / 2) h2 (by omega) (by omega)
    rw [other (i / 2 / 2) (by omega) (by omega)]
    by_cases e : j = i
    · subst e; rw [down]; exact top
    · have old := ho.pair j (by omega) hj e
      rw [he] at old
      rw [other j e (by omega)]; exact top.trans old

/-- Sifting up ends with an ordered heap, with enough fuel. -/
theorem Heap.OrderedButUp.siftUp (fuel : Nat) : ∀ {h : Heap} {n i : Nat}, h.OrderedButUp n i → n ≤ 256 → i ≤ n →
    i ≤ fuel → (Heap.siftUp fuel h i).Ordered n := by
  induction fuel with
  | zero => intro h n i ho _ _ hf; exact ho.ordered (by omega)
  | succ fuel ih =>
    intro h n i ho hn hi hf
    rw [Heap.siftUp]
    split
    · next hc =>
      exact ih (ho.swap hn hi hc.1 ((less_iff_rank _ _).1 hc.2)) hn (by omega) (by omega)
    · next hc =>
      refine ho.ordered fun h2 => ?_
      rw [← less_eq_false_iff_rank, ← Bool.not_eq_true]
      exact fun hl => hc ⟨h2, hl⟩

/-! ### Sifting down keeps the order (40_priority_queue.md R83) -/

/-- In positions 1 to n only the children of position i may be less than their parent, and they are no less than the parent
of i. -/
structure Heap.OrderedButDown (h : Heap) (n i : Nat) : Prop where
  pair : ∀ j, 2 ≤ j → j ≤ n → j / 2 ≠ i → (h.slot (j / 2)).rank ≤ (h.slot j).rank
  skip : ∀ j, j ≤ n → j / 2 = i → 2 ≤ i → (h.slot (i / 2)).rank ≤ (h.slot j).rank

/-- The child that pq_extract swaps with is no greater than the other child. -/
theorem Heap.swapsWith.le_sibling {h : Heap} {n p c j : Nat} {x : HeapEntry} (hc : h.swapsWith n x p c)
    (hj : j = 2 * p ∨ j = 2 * p + 1) (hn : j ≤ n) : (h.slot c).rank ≤ (h.slot j).rank := by
  obtain ⟨hchild, -, hless, hleft, hright⟩ := hc
  rw [less_iff_rank] at hless
  rcases hchild with rfl | rfl <;> rcases hj with rfl | rfl
  · exact le_rfl
  · rw [← less_eq_false_iff_rank]; exact hleft rfl hn
  · simp only [less_iff_rank, true_implies] at hright; omega
  · exact le_rfl

/-- A swap with the smaller child moves the place that may be out of order to that child. -/
theorem Heap.OrderedButDown.swap {h : Heap} {n i c : Nat} (ho : h.OrderedButDown n i) (hn : n ≤ 256) (h1 : 1 ≤ i)
    (hc : h.swapsWith n (h.slot i) i c) : (h.swap i c).OrderedButDown n c := by
  obtain ⟨hchild, hcn, hless, -, -⟩ := id hc
  rw [less_iff_rank] at hless
  have hs (q : Nat) := slot_swap h i c q h1 (by omega) (by omega) (by omega)
  have down : (h.swap i c).slot c = h.slot i := by rw [hs, if_pos rfl]
  have up : (h.swap i c).slot i = h.slot c := by rw [hs, if_neg (by omega), if_pos rfl]
  have other (q : Nat) (h1 : q ≠ i) (h2 : q ≠ c) : (h.swap i c).slot q = h.slot q := by
    rw [hs, if_neg h2, if_neg h1]
  constructor
  case pair =>
    intro j h2 hj hne
    by_cases ep : j / 2 = i
    · rw [ep, up]
      by_cases e : j = c
      · subst e; rw [down]; omega
      · rw [other j (by omega) e]; exact hc.le_sibling (by omega) hj
    · rw [other _ ep hne]
      by_cases e : j = i
      · subst e; rw [up]; exact ho.skip c hcn (by omega) h2
      · rw [other j e (by omega)]; exact ho.pair j h2 hj ep
  case skip =>
    intro j hj he h2
    have old := ho.pair j (by omega) hj (by omega)
    rw [he] at old
    rw [show c / 2 = i by omega, up, other j (by omega) (by omega)]
    exact old

/-- Sifting down ends with an ordered heap, with enough fuel. -/
theorem Heap.OrderedButDown.siftDown (fuel : Nat) : ∀ {h : Heap} {n i : Nat}, h.OrderedButDown n i → n ≤ 256 →
    1 ≤ i → n < fuel + i → (Heap.siftDown fuel h n i).Ordered n := by
  induction fuel with
  | zero => intro h n i ho _ h1 hf j h2 hj; exact ho.pair j h2 hj (by omega)
  | succ fuel ih =>
    intro h n i ho hn h1 hf
    rw [Heap.siftDown]
    rcases smallest_spec h n i with ⟨e, stop⟩ | sw
    · rw [if_pos e]
      intro j h2 hj
      by_cases ep : j / 2 = i
      · rw [ep, ← less_eq_false_iff_rank]; exact stop j (by omega) hj
      · exact ho.pair j h2 hj ep
    · obtain ⟨hchild, -⟩ := id sw
      rw [if_neg (by omega)]
      exact ih (ho.swap hn h1 sw) hn (by omega) (by omega)

/-! ### The primitives keep the heap invariant -/

/-- Appending an entry leaves all in order but that entry, which is sifted up. -/
theorem insert_ordered {q : Queue} (key : Word) (tag : NodeIdx) (ho : q.heap.Ordered q.size) (h : q.size < 256) :
    (q.insert key tag).heap.Ordered (q.size + 1) := by
  have hs (p : Nat) (hp : p ≠ q.size + 1) :=
    (slot_setSlot q.heap (q.size + 1) p ⟨key, BitVec.ofNat 32 q.seq, tag⟩ (by omega) (by omega)).trans (if_neg hp)
  refine Heap.OrderedButUp.siftUp _ (i := q.size + 1) ⟨fun j h2 hj hne => ?_, fun j hj he => by omega⟩ (by omega)
    le_rfl le_rfl
  rw [hs j hne, hs (j / 2) (by omega)]
  exact ho j h2 (by omega)

/-- Putting the last entry at the root leaves all in order but the root, which is sifted down. -/
theorem pop_ordered {q : Queue} (ho : q.heap.Ordered q.size) (h1 : 1 ≤ q.size) (h2 : q.size ≤ 256) :
    q.pop.heap.Ordered (q.size - 1) := by
  have hs (p : Nat) (hp : p ≠ 1) (hq : p ≠ q.size) : (q.heap.swap 1 q.size).slot p = q.heap.slot p := by
    rw [slot_swap _ _ _ _ (by omega) (by omega) h1 h2, if_neg hq, if_neg hp]
  refine Heap.OrderedButDown.siftDown _ (i := 1) ⟨fun j hj hn hne => ?_, fun j _ _ h2 => by omega⟩ (by omega) le_rfl
    (by omega)
  rw [hs j (by omega) (by omega), hs (j / 2) hne (by omega)]
  exact ho j hj (by omega)

/-- pq_insert keeps the heap invariant (40_priority_queue.md R80, R82). -/
theorem Queue.ok.insert {q : Queue} (hq : q.ok) (key : Word) (tag : NodeIdx) (hsize : q.size < 256)
    (hseq : q.seq < 0xFFFFFFFF) : (q.insert key tag).ok := by
  obtain ⟨-, ho, hnodup, hbelow⟩ := q.ok_iff.1 hq
  obtain ⟨hperm, -⟩ := insert_spec q key tag hsize
  have hnew : (BitVec.ofNat 32 q.seq).toNat = q.seq := Nat.mod_eq_of_lt (by omega)
  refine (Queue.ok_iff _).2 ⟨hsize, insert_ordered key tag ho hsize, ?_, fun e he => ?_⟩
  · rw [(hperm.map _).nodup_iff, List.map_cons, List.nodup_cons]
    refine ⟨fun hm => ?_, hnodup⟩
    obtain ⟨e, he, hes⟩ := List.mem_map.1 hm
    have := hbelow e he
    rw [hes, hnew] at this
    exact absurd this (lt_irrefl _)
  · rw [insert_seq]
    rcases List.mem_cons.1 (hperm.subset he) with rfl | he
    · exact hnew.trans_lt (Nat.lt_succ_self _)
    · exact (hbelow e he).trans (Nat.lt_succ_self _)

/-- pq_extract keeps the heap invariant (40_priority_queue.md R80, R83). -/
theorem Queue.ok.pop {q : Queue} (hq : q.ok) (h1 : 1 ≤ q.size) : q.pop.ok := by
  obtain ⟨hsize, ho, hnodup, hbelow⟩ := q.ok_iff.1 hq
  obtain ⟨hperm, -, -⟩ := pop_spec q h1 hsize
  rw [← (hperm.map _).nodup_iff, List.map_cons, List.nodup_cons] at hnodup
  exact (Queue.ok_iff _).2 ⟨by rw [pop_size]; omega, pop_ordered ho h1 hsize, hnodup.2,
    fun e he => hbelow e (hperm.subset (List.mem_cons_of_mem _ he))⟩

/-- Settles O32: the order by the sift loops, the SEQ values by the permutation of the entries. -/
theorem heapPrimitivesKeepTheHeapInvariant : Obligations.HeapPrimitivesKeepTheHeapInvariant :=
  fun _ hq => ⟨fun key tag => hq.insert key tag, hq.pop⟩

/-- Settles O31: the root is least by (KEY, SEQ) as one number. -/
theorem extractReturnsTheLeastEntry : Obligations.ExtractReturnsTheLeastEntry := by
  intro q hq h1
  obtain ⟨-, ho, -, -⟩ := q.ok_iff.1 hq
  refine ⟨(mem_live q _).2 ⟨1, le_rfl, h1, rfl⟩, fun e he => ?_⟩
  obtain ⟨p, hp1, hp2, rfl⟩ := (mem_live q e).1 he
  exact (rank_le_iff _ _).1 (ho.root_le p hp1 hp2)

end Sys2Proof.Machine
end

section
/-! SUPPORT. The commands of the queue, one equation for each of their ends (40_priority_queue.md R85 to R87). -/

namespace Sys2Proof.Machine

/-! ### The commands of the queue (40_priority_queue.md R85 to R87) -/

theorem execPqInsert_of_full {s : State} (h : s.queue.size = 256) :
    exec .pqInsert s = .next (s.raise .queueFull) := congrArg Host.Outcome.next (if_pos h)

theorem execPqInsert_of_lastSeq {s : State} (h : s.queue.size ≠ 256) (hseq : s.queue.seq = 0xFFFFFFFF) :
    exec .pqInsert s = .next (s.raise .seqOverflow) :=
  congrArg Host.Outcome.next ((if_neg h).trans (if_pos hseq))

theorem execPqInsert_of_room {s : State} (h : s.queue.size ≠ 256) (hseq : s.queue.seq ≠ 0xFFFFFFFF) :
    exec .pqInsert s =
      .next ((s.withQueue (s.queue.insert s.regs.key s.regs.tag)).withRes0 s.queue.seq).finish :=
  congrArg Host.Outcome.next ((if_neg h).trans (if_neg hseq))

theorem execPqExtract_of_empty {s : State} (h : s.queue.size = 0) :
    exec .pqExtract s = .next (s.raise .emptyQueue) := congrArg Host.Outcome.next (if_pos h)

theorem execPqExtract_of_nonempty {s : State} (h : s.queue.size ≠ 0) :
    exec .pqExtract s = .next ((s.withQueue s.queue.pop).withRes
      s.queue.top.key.toNat s.queue.top.tag.toNat s.queue.top.seq.toNat).finish :=
  congrArg Host.Outcome.next (if_neg h)

/-- Settles O27: the two counters, and the completion. -/
theorem pqInitEmptiesTheQueue : Obligations.PqInitEmptiesTheQueue := fun _ => rfl

/-- Settles O29: each check alone decides its error, QUEUE_FULL before SEQ_OVERFLOW. -/
theorem queueErrors : Obligations.QueueErrors := by
  intro s
  refine ⟨fun h => ?_, fun h hseq => ?_, fun h => ?_⟩
  · exact execPqInsert_of_full (by rw [queue_size, h]; rfl)
  · exact execPqInsert_of_lastSeq (fun e => h (BitVec.eq_of_toNat_eq e)) (by rw [queue_seq, hseq]; rfl)
  · exact execPqExtract_of_empty (by rw [queue_size, h]; rfl)

/-- Settles O28: the heap is that of pq_insert, and the counters are counted up in their registers. -/
theorem pqInsertAddsTheEntry : Obligations.PqInsertAddsTheEntry := by
  intro s hsize hseq
  have hroom : s.queue.size ≠ 256 := Nat.ne_of_lt hsize
  have hseq' : s.queue.seq ≠ 0xFFFFFFFF := fun e => hseq (BitVec.eq_of_toNat_eq e)
  obtain ⟨hperm, hframe⟩ := insert_spec s.queue s.regs.key s.regs.tag hsize
  have hpath := insert_path s.queue s.regs.key s.regs.tag hsize
  have hentry : (⟨s.regs.key, BitVec.ofNat 32 s.queue.seq, s.regs.tag⟩ : HeapEntry) =
      ⟨s.regs.arg0, s.regs.pqSeq, s.regs.arg1.extractLsb 8 0⟩ := by
    rw [queue_seq, BitVec.ofNat_toNat, BitVec.setWidth_eq]; rfl
  rw [hentry] at hperm hpath
  refine ⟨_, ?_, hperm, hpath, hframe⟩
  rw [execPqInsert_of_room hroom hseq']
  simp [State.finish, State.withRes0, State.withQueue, insert_size, insert_seq, BitVec.ofNat_add]

/-- Settles O30: the heap is that of pq_extract, and the results are the fields of HEAP[1]. -/
theorem pqExtractRemovesTheRoot : Obligations.PqExtractRemovesTheRoot := by
  intro s h1 h2
  obtain ⟨hperm, hlast, hframe⟩ := pop_spec s.queue h1 h2
  refine ⟨_, ?_, hperm, pop_path s.queue h1 h2, hlast, hframe⟩
  have hsize : BitVec.ofNat 9 (s.regs.pqSize.toNat - 1) = s.regs.pqSize - 1 := by
    bv_omega
  rw [execPqExtract_of_nonempty (Nat.ne_of_gt h1)]
  simp [State.finish, State.withRes, State.withQueue, pop_size, pop_seq, hsize, Queue.top]

end Sys2Proof.Machine
end

section
/-! SUPPORT. The heap invariant along a run (40_priority_queue.md R80): BUILD, every other command, an ABORT, a reset and the host
keep it. -/

namespace Sys2Proof.Machine

/-! ### BUILD keeps the heap invariant (41_tree_builder.md R93, R95) -/

/-- LOAD's body keeps the heap invariant while the queue has room. -/
theorem loadSymbol_queue_ok {t : Forest} (h : t.queue.ok) (hsize : t.queue.size < 256)
    (hseq : t.queue.seq < 0xFFFFFFFF) (s : Byte) (f : Word) : (t.loadSymbol s f).queue.ok := by
  unfold Forest.loadSymbol
  split
  · exact h
  · exact h.insert f _ hsize hseq

/-- From pq_init on LOAD keeps the heap invariant: each symbol it has gone through made at most one entry. -/
theorem foldl_loadSymbol_queue_ok (q : Queue) (node : Nodes) (freq : SymTable Word) (syms : List Byte) :
    syms.length ≤ 256 →
    (syms.foldl (fun (t : Forest) s => t.loadSymbol s (freq.entry s)) ⟨q.init, node, 0, 0⟩).queue.ok := by
  induction syms using List.reverseRecOn with
  | nil => exact fun _ => Queue.ok_of_empty rfl
  | append_singleton syms s ih =>
    intro hlen
    rw [List.length_append, List.length_singleton] at hlen
    have hp := length_present_le freq syms
    have hload := loaded_foldl syms (loaded_nil q node freq) (by simp; omega)
    rw [List.nil_append] at hload
    rw [List.foldl_append]
    exact loadSymbol_queue_ok (ih (by omega)) (by rw [hload.size_eq]; omega) (by rw [hload.seq_eq]; omega) s _

/-- LOAD leaves a queue with the heap invariant, from any queue. -/
theorem load_queue_ok (q : Queue) (node : Nodes) (freq : SymTable Word) : (Forest.load q node freq).queue.ok := by
  unfold Forest.load
  rw [pairs_eq_map, List.foldl_map]
  exact foldl_loadSymbol_queue_ok q node freq allSymbols length_allSymbols.le

/-- MERGE's body keeps the heap invariant. -/
theorem mergeOnce_queue_ok {t : Forest} (h : t.queue.ok) (h2 : 2 ≤ t.queue.size) (hseq : t.queue.seq < 0xFFFFFFFF) :
    t.mergeOnce.queue.ok := by
  have hsize := h.size_le
  have hpop := (h.pop (by omega)).pop (by rw [pop_size]; omega)
  exact hpop.insert _ _ (by rw [pop_size, pop_size]; omega) hseq

/-- MERGE keeps the heap invariant, and counts PQ_SEQ up at most once each time. -/
theorem merge_queue_ok (fuel : Nat) : ∀ {t : Forest}, t.queue.ok → t.queue.seq + fuel ≤ 0xFFFFFFFF →
    (Forest.merge fuel t).queue.ok ∧ (Forest.merge fuel t).queue.seq ≤ t.queue.seq + fuel := by
  induction fuel with
  | zero => exact fun h _ => ⟨h, le_rfl⟩
  | succ fuel ih =>
    intro t h hseq
    rw [Forest.merge]
    split
    · next hgt =>
      have hnext : t.mergeOnce.queue.seq = t.queue.seq + 1 := rfl
      obtain ⟨hok, hle⟩ := ih (mergeOnce_queue_ok h hgt (by omega)) (by omega)
      exact ⟨hok, by omega⟩
    · exact ⟨h, by omega⟩

/-- A queue that fits its registers is stored whole. -/
theorem withQueue_queue (s : State) {q : Queue} (hsize : q.size ≤ 256) (hseq : q.seq < 2 ^ 32) :
    (s.withQueue q).queue = q := by
  simp only [State.queue, withQueue_ram, withQueue_regs, BitVec.toNat_ofNat]
  rw [Nat.mod_eq_of_lt (show q.size < 2 ^ 9 by omega), Nat.mod_eq_of_lt hseq]

/-- What is stored of a queue that meets the heap invariant meets it. -/
theorem withQueue_queue_ok (s : State) {q : Queue} (h : q.ok) (hseq : q.seq < 2 ^ 32) : (s.withQueue q).queue.ok := by
  rw [withQueue_queue s h.size_le hseq]; exact h

theorem loaded_seq_le (s : State) : s.loaded.queue.seq ≤ 256 :=
  (loaded_load s.queue s.ram.node s.ram.freq).seq_eq.trans_le (length_alphabet_le s.ram)

theorem loaded_queue_ok (s : State) : s.loaded.queue.ok := load_queue_ok s.queue s.ram.node s.ram.freq

/-- BUILD leaves the heap invariant, however it ends. -/
theorem execBuild_queue_ok {s t : State} (h : exec .build s = .next t) : t.queue.ok := by
  have hseq := loaded_seq_le s
  rcases execBuild_cases s with ⟨e, he⟩ | ⟨hne, hsum, he⟩ <;> cases h.symm.trans he
  · exact withQueue_queue_ok s (loaded_queue_ok s) (by omega)
  · have hlen := length_alphabet_le s.ram
    obtain ⟨-, h1, -, -⟩ := merged_holds hne hsum
    obtain ⟨hok, hle⟩ := merge_queue_ok s.ram.alphabet.length (loaded_queue_ok s) (by omega)
    exact withQueue_queue_ok s (q := s.merged.queue.pop) (hok.pop h1.ge)
      (show s.merged.queue.seq < 2 ^ 32 from by rw [State.merged]; omega)

/-! ### Every step keeps the heap invariant (40_priority_queue.md R80) -/

/-- Every command keeps the heap invariant. -/
theorem exec_queue_ok {i : Instr} {s t : State} (hs : s.queue.ok) (h : exec i s = .next t) : t.queue.ok := by
  cases i
  case build => exact execBuild_queue_ok h
  case pqInit => cases h; exact Queue.ok_of_empty rfl
  case pqInsert =>
    by_cases hfull : s.queue.size = 256
    · cases h.symm.trans (execPqInsert_of_full hfull); exact hs
    by_cases hlast : s.queue.seq = 0xFFFFFFFF
    · cases h.symm.trans (execPqInsert_of_lastSeq hfull hlast); exact hs
    cases h.symm.trans (execPqInsert_of_room hfull hlast)
    have hsize : s.queue.size < 256 := lt_of_le_of_ne hs.size_le hfull
    have hseq : s.queue.seq < 2 ^ 32 := s.regs.pqSeq.isLt
    exact withQueue_queue_ok s (hs.insert _ _ hsize (by omega)) (by rw [insert_seq]; omega)
  case pqExtract =>
    by_cases hempty : s.queue.size = 0
    · cases h.symm.trans (execPqExtract_of_empty hempty); exact hs
    cases h.symm.trans (execPqExtract_of_nonempty hempty)
    exact withQueue_queue_ok s (hs.pop (Nat.pos_of_ne_zero hempty)) (q := s.queue.pop) s.regs.pqSeq.isLt
  -- No other command works on the queue.
  case nop | freqClear => cases h; exact hs
  case freqCount =>
    replace h := Host.Outcome.next.inj h
    repeat' split at h
    all_goals cases h; exact hs
  case encode | decode =>
    replace h := Host.Outcome.next.inj h
    split at h
    · cases h; exact hs
    · dsimp only at h
      repeat' split at h
      all_goals cases h; exact hs

theorem engineStep_queue_ok {s t : State} (hs : s.queue.ok) (h : s.engineStep = .next t) : t.queue.ok := by
  rcases engineStep_cases s with ⟨i, -, e⟩ | ⟨_, -, e⟩ <;> rw [e] at h
  · exact exec_queue_ok hs h
  · cases h; exact hs

/-- A stopped command's write set leaves the queue or empties it (60_exceptions.md R127). -/
theorem spoil_queue_ok {s : State} (hs : s.queue.ok) (c : Option Instr) (k : Nat) : (s.spoil c k).queue.ok := by
  have out : (s.spoilOutput k).queue.ok := by unfold State.spoilOutput; split <;> exact hs
  rcases c with _ | i
  · exact hs
  · cases i with
    | nop | freqClear | freqCount => simpa [State.spoil, State.queue] using hs
    | encode | decode => exact out
    | build | pqInit | pqInsert | pqExtract => exact Queue.ok_of_empty (by simp [State.spoil])

theorem State.SameBlock.queue {s u : State} (h : s.SameBlock u) : u.queue = s.queue := by
  unfold State.queue; rw [h.regs, h.ram]

theorem State.HostChanges.queue {s t : State} (h : s.HostChanges t) : t.queue = s.queue := by
  unfold State.queue; rw [h.regs, h.ram]

/-- Settles O57: the primitives keep the invariant, an ABORT and a reset leave the queue or empty it, and no other event
reaches it. -/
theorem stepKeepsTheHeapInvariant : Obligations.StepKeepsTheHeapInvariant := by
  intro s t hs h
  cases step_effect h with
  | completes u hu busy h => exact engineStep_queue_ok (hu.queue ▸ hs) h
  | aborts u hu busy h => rw [h]; exact spoil_queue_ok (hu.queue ▸ hs) _ _
  | resets regs => exact Queue.ok_of_empty (by rw [queue_size, regs]; rfl)
  | accepts u hu idle w h => rw [h]; exact (hu.queue ▸ hs : u.queue.ok)
  | host h => rw [h.queue]; exact hs

end Sys2Proof.Machine
end


section
/-! SUPPORT. NOP and the frequency table commands (41_tree_builder.md R89 to R91): FREQ_COUNT by its three ends, and which of
them the numbers of occurrences in the buffer decide. -/

namespace Sys2Proof.Machine

/-! ### Occurrences in a buffer -/

/-- A buffer begins with each shorter buffer at the same offset. -/
theorem bytes_sublist (m : Memory) (a : Nat) {k n : Nat} (h : k ≤ n) : (m.bytes a k).Sublist (m.bytes a n) :=
  (List.range_sublist.2 h).map _

/-- Byte `k` of a buffer counts once more than in the `k` bytes before it. -/
theorem count_bytes_lt (m : Memory) (a : Nat) {k n : Nat} (h : k < n) :
    (m.bytes a k).count (m.read (a + k)) < (m.bytes a n).count (m.read (a + k)) := by
  have hle := (bytes_sublist m a (show k + 1 ≤ n from h)).count_le (m.read (a + k))
  rw [bytes_succ, List.count_append, List.count_singleton_self] at hle
  exact hle

/-! ### The ends of FREQ_COUNT (41_tree_builder.md R91) -/

/-- The loop of FREQ_COUNT in state `s`. -/
def State.counted (s : State) : SymTable Word × Option Nat :=
  countBytes s.ram.data s.regs.src s.regs.len 0 s.ram.freq

theorem execFreqCount_of_outside {s : State} (h : s.dataBytes < s.regs.src + s.regs.len) :
    exec .freqCount s = .next (s.raise .range) := by
  refine congrArg Host.Outcome.next (if_pos ?_)
  simp [fits, h]

theorem execFreqCount_of_none {s : State} {freq : SymTable Word} (h : s.regs.src + s.regs.len ≤ s.dataBytes)
    (hc : s.counted = (freq, none)) :
    exec .freqCount s = .next ({ s with ram.freq := freq }.withRes0 s.regs.len).finish := by
  rw [State.counted] at hc
  simp [exec, execFreqCount, fits, h, hc]

theorem execFreqCount_of_some {s : State} {freq : SymTable Word} {k : Nat} (h : s.regs.src + s.regs.len ≤ s.dataBytes)
    (hc : s.counted = (freq, some k)) :
    exec .freqCount s = .next (({ s with ram.freq := freq }.withRes0 k).raise .freqOverflow) := by
  rw [State.counted] at hc
  simp [exec, execFreqCount, fits, h, hc]

/-- A loop that stops at byte `k`: its entry is full with the `k` bytes before it, which are counted. -/
theorem counted_some {s : State} {freq : SymTable Word} {k : Nat} (h : s.counted = (freq, some k)) :
    k < s.regs.len ∧
    (s.ram.freq.entry (s.ram.data.read (s.regs.src + k))).toNat +
      (s.ram.data.bytes s.regs.src k).count (s.ram.data.read (s.regs.src + k)) = 0xFFFFFFFF ∧
    ∀ b, (freq.entry b).toNat = (s.ram.freq.entry b).toNat + (s.ram.data.bytes s.regs.src k).count b := by
  obtain ⟨-, hk, hfull, hcount⟩ := countBytes_some _ _ _ _ _ _ _ h
  rw [Nat.zero_add] at hk
  rw [Nat.add_zero, Nat.sub_zero] at hcount
  exact ⟨hk, by rw [← hcount, hfull]; rfl, hcount⟩

/-- A loop that stops nowhere has counted the whole buffer. -/
theorem counted_none {s : State} {freq : SymTable Word} (h : s.counted = (freq, none)) (b : Byte) :
    (freq.entry b).toNat = (s.ram.freq.entry b).toNat + s.input.count b := by
  have := countBytes_none _ _ _ _ _ _ h b
  rwa [Nat.add_zero] at this

/-- The loop does not stop at a byte before the end of `n` bytes whose counts all fit. -/
theorem le_of_counted_some {s : State} {freq : SymTable Word} {k n : Nat} (h : s.counted = (freq, some k))
    (hfit : ∀ b : Byte, (s.ram.freq.entry b).toNat + (s.ram.data.bytes s.regs.src n).count b ≤ 0xFFFFFFFF) : n ≤ k := by
  obtain ⟨-, hfull, -⟩ := counted_some h
  by_contra hlt
  have hcount := count_bytes_lt s.ram.data s.regs.src (show k < n by omega)
  have := hfit (s.ram.data.read (s.regs.src + k))
  omega

/-- A table with the counts of `n` bytes holds no byte more than fills an entry. -/
theorem le_of_counts_full {m : Memory} {a i n : Nat} {old freq : SymTable Word}
    (hcount : ∀ b, (freq.entry b).toNat = (old.entry b).toNat + (m.bytes a n).count b)
    (hfull : (old.entry (m.read (a + i))).toNat + (m.bytes a i).count (m.read (a + i)) = 0xFFFFFFFF) : n ≤ i := by
  by_contra hlt
  have hmore := count_bytes_lt m a (show i < n by omega)
  have hbyte := hcount (m.read (a + i))
  have hword := (freq.entry (m.read (a + i))).isLt
  omega

/-! ### The statements -/

/-- Settles O23: NOP is `finish`. -/
theorem nopOnlyCompletes : Obligations.NopOnlyCompletes := fun _ => rfl

/-- Settles O24: the table FREQ_CLEAR stores has 0 in every entry. -/
theorem freqClearZeroesEveryEntry : Obligations.FreqClearZeroesEveryEntry :=
  fun _ => ⟨_, rfl, entry_replicate 0⟩

/-- Settles O25: with counts that all fit the loop stops nowhere. -/
theorem freqCountAddsOccurrences : Obligations.FreqCountAddsOccurrences := by
  intro s hbuf hfit
  rcases hc : s.counted with ⟨freq, _ | k⟩
  · refine ⟨freq, ?_, counted_none hc⟩
    rw [execFreqCount_of_none hbuf hc]
    simp [State.finish, State.withRes0, Regs.len]
  · have hle := le_of_counted_some hc hfit
    obtain ⟨hlt, -⟩ := counted_some hc
    omega

/-- Settles O26: the loop stops at the first byte whose entry is full, neither before it nor after it. -/
theorem freqCountErrors : Obligations.FreqCountErrors := by
  intro s
  refine ⟨execFreqCount_of_outside, fun i hbuf hi hfit hfull => ?_⟩
  rcases hc : s.counted with ⟨freq, _ | k⟩
  · have hle := le_of_counts_full (counted_none hc) hfull
    omega
  · obtain ⟨-, -, hcount⟩ := counted_some hc
    obtain rfl : k = i := Nat.le_antisymm (le_of_counts_full hcount hfull) (le_of_counted_some hc hfit)
    refine ⟨freq, ?_, hcount⟩
    rw [execFreqCount_of_some hbuf hc]
    rfl

end Sys2Proof.Machine
end

section
/-! SUPPORT. The body of MERGE (41_tree_builder.md R95): with distinct SEQ values the entry pq_extract returns is less than
every entry that stays. -/

namespace Sys2Proof.Machine

/-- The root is less than every entry that stays in the queue (40_priority_queue.md R79, R80). -/
theorem Queue.ok.top_less {q : Queue} (hq : q.ok) (h1 : 1 ≤ q.size) : ∀ e ∈ q.pop.live, q.top.less e = true := by
  intro e he
  obtain ⟨hsize, -, hnodup, -⟩ := q.ok_iff.1 hq
  obtain ⟨hperm, -, -⟩ := pop_spec q h1 hsize
  rw [← (hperm.map _).nodup_iff, List.map_cons, List.nodup_cons] at hnodup
  have hseq : q.top.seq.toNat ≠ e.seq.toNat := fun h =>
    hnodup.1 (BitVec.eq_of_toNat_eq h ▸ List.mem_map_of_mem he)
  obtain ⟨-, hleast⟩ := extractReturnsTheLeastEntry q hq h1
  rw [less_iff]
  rcases hleast e (hperm.subset (List.mem_cons_of_mem _ he)) with hlt | ⟨hkey, hle⟩
  · exact .inl hlt
  · exact .inr ⟨hkey, Nat.lt_of_le_of_ne hle hseq⟩

/-- Settles O36: two extractions, each of the least entry, and an insertion. -/
theorem mergeJoinsTheTwoLeastEntries : Obligations.MergeJoinsTheTwoLeastEntries := by
  intro t hq h2
  have hsize := hq.size_le
  have hpop := hq.pop (by omega)
  have h1 : 1 ≤ t.queue.pop.size := by rw [pop_size]; omega
  obtain ⟨hx, -, -⟩ := pop_spec t.queue (by omega) hsize
  obtain ⟨hy, -, -⟩ := pop_spec t.queue.pop h1 hpop.size_le
  obtain ⟨hins, -⟩ := insert_spec t.queue.pop.pop (t.queue.top.key + t.queue.pop.top.key) (BitVec.ofNat 9 t.next)
    (by rw [pop_size, pop_size]; omega)
  obtain ⟨hymem, -⟩ := extractReturnsTheLeastEntry t.queue.pop hpop h1
  exact ⟨t.queue.top, t.queue.pop.top, t.queue.pop.pop.live, ((hy.cons _).trans hx).symm,
    hq.top_less (by omega) _ hymem, hpop.top_less h1, rfl, hins, rfl, rfl⟩

end Sys2Proof.Machine
end

section
/-! SUPPORT. What BUILD writes and what it leaves (41_tree_builder.md R93 to R96): HEAP above slot n, NODE outside the tree, and
the registers of its three ends. -/

namespace Sys2Proof.Machine

/-! ### LOAD symbol by symbol -/

/-- What holds of two runs of LOAD over one frequency table, symbol by symbol: there is room for a leaf of each. -/
theorem load_induction₂ {R : Forest → Forest → Prop} {q q' : Queue} {node node' : Nodes} {freq : SymTable Word}
    (init : R ⟨q.init, node, 0, 0⟩ ⟨q'.init, node', 0, 0⟩)
    (symbol : ∀ (t u : Forest) (s : Byte) (f : Word), t.queue.size < 256 → t.next < 256 → R t u →
      R (t.loadSymbol s f) (u.loadSymbol s f)) :
    R (Forest.load q node freq) (Forest.load q' node' freq) := by
  unfold Forest.load
  rw [pairs_eq_map, List.foldl_map, List.foldl_map]
  have hlen := length_allSymbols.le
  revert hlen
  induction allSymbols using List.reverseRecOn with
  | nil => exact fun _ => init
  | append_singleton syms s ih =>
    intro hlen
    rw [List.length_append, List.length_singleton] at hlen
    have hp := length_present_le freq syms
    have hload := loaded_foldl syms (loaded_nil q node freq) (by simp; omega)
    rw [List.nil_append] at hload
    rw [List.foldl_append, List.foldl_append]
    exact symbol _ _ s _ (by rw [hload.size_eq]; omega) (by rw [hload.next_eq]; omega) (ih (by omega))

/-- What holds of a run of LOAD, symbol by symbol. -/
theorem load_induction {P : Forest → Prop} {q : Queue} {node : Nodes} {freq : SymTable Word}
    (init : P ⟨q.init, node, 0, 0⟩)
    (symbol : ∀ (t : Forest) (s : Byte) (f : Word), t.queue.size < 256 → P t → P (t.loadSymbol s f)) :
    P (Forest.load q node freq) :=
  load_induction₂ (R := fun t _ => P t) (q' := q) (node' := node) init
    (fun t _ s f hsize _ h => symbol t s f hsize h)

/-- LOAD of an empty alphabet only empties the queue. -/
theorem load_of_alphabet_nil (q : Queue) {r : Rams} (h : r.alphabet = []) :
    Forest.load q r.node r.freq = ⟨q.init, r.node, 0, 0⟩ := by
  have hzero (s : Byte) : r.freq.entry s = 0 := by
    simpa using List.filter_eq_nil_iff.1 h s (mem_allSymbols s)
  unfold Forest.load
  rw [pairs_eq_map, List.foldl_map]
  exact List.foldl_fixed' (fun s => if_pos (hzero s)) _

/-! ### HEAP above the slots of the leaves -/

/-- LOAD leaves the slots above its last entry. -/
theorem load_slot (q : Queue) (r : Rams) : ∀ p, r.alphabet.length < p →
    (Forest.load q r.node r.freq).queue.heap.slot p = q.heap.slot p := by
  rw [← load_size q r]
  refine load_induction (P := fun t => ∀ p, t.queue.size < p → t.queue.heap.slot p = q.heap.slot p) (fun p _ => rfl)
    fun t s f hsize h => ?_
  unfold Forest.loadSymbol
  split
  · exact h
  · intro p hp
    have hp : t.queue.size + 1 < p := hp
    obtain ⟨-, hframe⟩ := insert_spec t.queue f (BitVec.ofNat 9 t.next) hsize
    exact (hframe p hp).trans (h p (by omega))

/-- MERGE's body leaves the slots above the queue. -/
theorem mergeOnce_slot {t : Forest} (h2 : 2 ≤ t.queue.size) (h256 : t.queue.size ≤ 256) {p : Nat}
    (hp : t.queue.size < p) : t.mergeOnce.queue.heap.slot p = t.queue.heap.slot p := by
  obtain ⟨-, -, hpop⟩ := pop_spec t.queue (by omega) h256
  obtain ⟨-, -, hpop'⟩ := pop_spec t.queue.pop (by rw [pop_size]; omega) (by rw [pop_size]; omega)
  obtain ⟨-, hins⟩ := insert_spec t.queue.pop.pop (t.queue.top.key + t.queue.pop.top.key) (BitVec.ofNat 9 t.next)
    (by rw [pop_size, pop_size]; omega)
  calc t.mergeOnce.queue.heap.slot p
      = t.queue.pop.pop.heap.slot p := hins p (by rw [pop_size, pop_size]; omega)
    _ = t.queue.pop.heap.slot p := hpop' p (by rw [pop_size]; omega)
    _ = t.queue.heap.slot p := hpop p hp

theorem mergeOnce_size {t : Forest} (h2 : 2 ≤ t.queue.size) : t.mergeOnce.queue.size = t.queue.size - 1 := by
  show t.queue.size - 1 - 1 + 1 = _
  omega

/-- MERGE leaves the slots above the queue, and counts PQ_SEQ up once for each node it makes. -/
theorem merge_slot_seq (fuel : Nat) : ∀ {t : Forest}, t.queue.size ≤ 256 →
    (∀ p, t.queue.size < p → (Forest.merge fuel t).queue.heap.slot p = t.queue.heap.slot p) ∧
      (Forest.merge fuel t).queue.seq + t.next = (Forest.merge fuel t).next + t.queue.seq := by
  induction fuel with
  | zero => exact fun _ => ⟨fun _ _ => rfl, Nat.add_comm _ _⟩
  | succ fuel ih =>
    intro t h256
    rw [Forest.merge]
    split
    · next hgt =>
      have hsize := mergeOnce_size hgt
      have hseq : t.mergeOnce.queue.seq = t.queue.seq + 1 := rfl
      have hnext : t.mergeOnce.next = t.next + 1 := rfl
      obtain ⟨hslot, hcount⟩ := ih (t := t.mergeOnce) (by omega)
      exact ⟨fun p hp => (hslot p (by omega)).trans (mergeOnce_slot hgt h256 hp), by omega⟩
    · exact ⟨fun _ _ => rfl, Nat.add_comm _ _⟩

/-! ### The two ends of BUILD -/

theorem loaded_size (s : State) : s.loaded.queue.size = s.ram.alphabet.length := load_size s.queue s.ram

theorem loaded_seq (s : State) : s.loaded.queue.seq = s.ram.alphabet.length :=
  (loaded_load s.queue s.ram.node s.ram.freq).seq_eq

/-- LOAD leaves the leaves, and the nodes above them as they were. -/
theorem loaded_leavesFrom (s : State) :
    ({ s.ram with node := s.loaded.node }).leavesFrom s.ram s.ram.alphabet.length :=
  ⟨load_leaf s.queue s.ram, (loaded_load s.queue s.ram.node s.ram.freq).above_eq⟩

/-- Settles O33: a BUILD that ends in an error stores what LOAD left. -/
theorem buildErrors : Obligations.BuildErrors := by
  intro s
  refine ⟨fun h => ?_, fun h => ⟨s.loaded.node, s.loaded.queue.heap, ?_, loaded_leavesFrom s, ?_, ?_⟩⟩
  · rw [execBuild_of_empty h, State.loaded, load_of_alphabet_nil s.queue h]
    rfl
  · rw [execBuild_of_overflow h]
    simp [State.raise, State.withForest, State.withQueue, loaded_size, loaded_seq, ErrorKind.code]
  · rw [live_seq s.loaded.queue.heap _ 0 s.loaded.queue.seq, ← loaded_size]
    exact load_live_perm s.queue s.ram
  · exact load_slot s.queue s.ram

/-- MERGE has given a SEQ to each node. -/
theorem merged_seq (s : State) : s.merged.queue.seq = s.merged.next := by
  have hle := length_alphabet_le s.ram
  obtain ⟨-, hcount⟩ := merge_slot_seq s.ram.alphabet.length (t := s.loaded) (by rw [loaded_size]; omega)
  rw [loaded_seq, show s.loaded.next = s.ram.alphabet.length from load_next s.queue s.ram] at hcount
  exact Nat.add_right_cancel hcount

section
variable {s : State} (hne : s.ram.alphabet ≠ []) (h : s.ram.freqSum ≤ 0xFFFFFFFF)
include hne h

/-- MERGE leaves the leaves, and the nodes above the tree as they were before the BUILD. -/
theorem merged_leavesFrom :
    ({ s.ram with node := s.merged.node }).leavesFrom s.ram (2 * s.ram.alphabet.length - 1) := by
  obtain ⟨-, -, -, hframe⟩ := merged_holds hne h
  obtain ⟨-, habove⟩ := loaded_leavesFrom s
  have hpos : 1 ≤ s.ram.alphabet.length := List.length_pos_iff.2 hne
  exact ⟨merged_leaf hne h, fun k hk h511 => (hframe k h511 (.inr hk)).trans (habove k (by omega) h511)⟩

/-- The root is the last node MERGE made. -/
theorem merged_root : s.merged.queue.top.tag = BitVec.ofNat 9 (2 * s.ram.alphabet.length - 2) := by
  obtain ⟨t, ht, htag⟩ := merged_spans hne h
  rw [htag, ht.root_eq]

/-- LOAD, MERGE and the extraction of the root leave HEAP above slot n. -/
theorem built_slot : ∀ p, s.ram.alphabet.length < p → s.merged.queue.pop.heap.slot p = s.ram.heap.slot p := by
  intro p hp
  have hle := length_alphabet_le s.ram
  have hpos : 1 ≤ s.ram.alphabet.length := List.length_pos_iff.2 hne
  obtain ⟨-, h1, -, -⟩ := merged_holds hne h
  obtain ⟨-, -, hpop⟩ := pop_spec s.merged.queue (by omega) (by omega)
  obtain ⟨hmerge, -⟩ := merge_slot_seq s.ram.alphabet.length (t := s.loaded) (by rw [loaded_size]; omega)
  calc s.merged.queue.pop.heap.slot p
      = s.merged.queue.heap.slot p := hpop p (by omega)
    _ = s.loaded.queue.heap.slot p := hmerge p (by rw [loaded_size]; exact hp)
    _ = s.ram.heap.slot p := load_slot s.queue s.ram p hp

end

/-- Settles O34: what LOAD and MERGE leave, and the final writes. -/
theorem buildCompletes : Obligations.BuildCompletes := by
  intro s hne h
  obtain ⟨-, h1, htotal, -⟩ := merged_holds hne h
  refine ⟨s.merged.node, s.merged.queue.pop.heap, s.buildCodes.len, s.buildCodes.bits, BitVec.ofNat 8 s.buildCodes.maxlen,
    ?_, merged_leavesFrom hne h, built_slot hne h⟩
  rw [execBuild_of_fits hne h]
  simp [State.built, State.finish, State.withTree, State.withCodes, State.withForest, State.withQueue, merged_root hne h,
    merged_seq, merged_next hne h, htotal, pop_size, pop_seq, h1]

end Sys2Proof.Machine
end

section
/-! SUPPORT. BUILD as a function of FREQ (41_tree_builder.md R98): two runs of LOAD, MERGE and CODEGEN over one frequency table
agree on all that they write, whatever the queue and NODE held before. -/

namespace Sys2Proof.Machine

/-! ### Heaps that agree on their first slots -/

/-- Slots 1 to n of two heaps are the same. -/
def Heap.AgreesTo (h k : Heap) (n : Nat) : Prop := ∀ p, 1 ≤ p → p ≤ n → h.slot p = k.slot p

theorem Heap.AgreesTo.swap {h k : Heap} {n i j : Nat} (e : h.AgreesTo k n) (hn : n ≤ 256) (hi : 1 ≤ i) (hin : i ≤ n)
    (hj : 1 ≤ j) (hjn : j ≤ n) : (h.swap i j).AgreesTo (k.swap i j) n := by
  intro p h1 hp
  rw [slot_swap h i j p hi (by omega) hj (by omega), slot_swap k i j p hi (by omega) hj (by omega), e i hi hin, e j hj hjn,
    e p h1 hp]

theorem Heap.AgreesTo.siftUp (fuel : Nat) : ∀ {h k : Heap} {n i : Nat}, h.AgreesTo k n → n ≤ 256 → i ≤ n →
    (Heap.siftUp fuel h i).AgreesTo (Heap.siftUp fuel k i) n := by
  induction fuel with
  | zero => exact fun e _ _ => e
  | succ fuel ih =>
    intro h k n i e hn hi
    rw [Heap.siftUp, Heap.siftUp]
    by_cases h1 : 1 < i
    · rw [e i (by omega) hi, e (i / 2) (by omega) (by omega)]
      split
      · exact ih (e.swap hn (by omega) hi (by omega) (by omega)) hn (by omega)
      · exact e
    · rw [if_neg fun hc => h1 hc.1, if_neg fun hc => h1 hc.1]
      exact e

/-- The choice among a position and its children reads slots of the queue only. -/
theorem Heap.AgreesTo.smallest {h k : Heap} {n size i : Nat} (e : h.AgreesTo k n) (hs : size ≤ n) (h1 : 1 ≤ i)
    (hi : i ≤ n) : h.smallest size i = k.smallest size i := by
  have left : (2 * i ≤ size ∧ (h.slot (2 * i)).less (h.slot i) = true) ↔
      (2 * i ≤ size ∧ (k.slot (2 * i)).less (k.slot i) = true) :=
    and_congr_right fun hle => by rw [e (2 * i) (by omega) (by omega), e i h1 hi]
  unfold Heap.smallest
  simp only [left]
  have right (c : Nat) (hc : c = 2 * i ∨ c = i) : (2 * i + 1 ≤ size ∧ (h.slot (2 * i + 1)).less (h.slot c) = true) ↔
      (2 * i + 1 ≤ size ∧ (k.slot (2 * i + 1)).less (k.slot c) = true) :=
    and_congr_right fun hle => by rw [e (2 * i + 1) (by omega) (by omega), e c (by omega) (by omega)]
  simp only [right _ (ite_eq_or_eq _ _ _)]

theorem Heap.AgreesTo.siftDown (fuel : Nat) : ∀ {h k : Heap} {n size i : Nat}, h.AgreesTo k n → n ≤ 256 → size ≤ n →
    1 ≤ i → i ≤ n → (Heap.siftDown fuel h size i).AgreesTo (Heap.siftDown fuel k size i) n := by
  induction fuel with
  | zero => exact fun e _ _ _ _ => e
  | succ fuel ih =>
    intro h k n size i e hn hs h1 hi
    simp only [Heap.siftDown, e.smallest hs h1 hi]
    split
    · exact e
    · have hc := smallest_cases k size i
      exact ih (e.swap hn h1 hi (by omega) (by omega)) hn hs (by omega) (by omega)

/-! ### Queues that agree -/

/-- Two queues with the same counters and the same first n slots. -/
structure Queue.Agrees (q r : Queue) (n : Nat) : Prop where
  size : q.size = r.size
  seq : q.seq = r.seq
  heap : q.heap.AgreesTo r.heap n

theorem Queue.Agrees.top {q r : Queue} {n : Nat} (h : q.Agrees r n) (hn : 1 ≤ n) : q.top = r.top :=
  h.heap 1 (Nat.le_refl 1) hn

/-- pq_insert writes the slot after the last, and goes on inside the queue (40_priority_queue.md R82). -/
theorem Queue.Agrees.insert {q r : Queue} {n n' : Nat} (h : q.Agrees r n) (key : Word) (tag : NodeIdx) (hq : q.size ≤ n)
    (hq' : q.size + 1 ≤ n') (hn : n' ≤ max n (q.size + 1)) (h256 : n' ≤ 256) :
    (q.insert key tag).Agrees (r.insert key tag) n' := by
  refine ⟨congrArg (· + 1) h.size, congrArg (· + 1) h.seq, ?_⟩
  unfold Queue.insert
  rw [← h.size, ← h.seq]
  refine Heap.AgreesTo.siftUp _ (fun p h1 hp => ?_) h256 hq'
  rw [slot_setSlot _ _ _ _ (by omega) (by omega), slot_setSlot _ _ _ _ (by omega) (by omega)]
  by_cases e : p = q.size + 1
  · rw [if_pos e, if_pos e]
  · rw [if_neg e, if_neg e]
    exact h.heap p h1 (by omega)

/-- pq_extract works inside the queue (40_priority_queue.md R83). -/
theorem Queue.Agrees.pop {q r : Queue} {n : Nat} (h : q.Agrees r n) (h1 : 1 ≤ q.size) (hq : q.size ≤ n) (hn : n ≤ 256) :
    q.pop.Agrees r.pop n := by
  refine ⟨congrArg (· - 1) h.size, h.seq, ?_⟩
  unfold Queue.pop
  rw [← h.size]
  exact Heap.AgreesTo.siftDown _ (h.heap.swap hn (by omega) (by omega) h1 hq) hn (by omega) (by omega) (by omega)

/-! ### LOAD and MERGE -/

/-- Two runs of BUILD at the same point: the same counters and sum, the same first n slots of HEAP, and the same nodes made
so far. -/
structure Forest.Agrees (t u : Forest) (n : Nat) : Prop where
  queue : t.queue.Agrees u.queue n
  next : t.next = u.next
  total : t.total = u.total
  node : ∀ i < t.next, t.node.no i = u.node.no i

/-- One node more, the same in both. -/
theorem no_store_agrees {node node' : Nodes} {k : Nat} (hk : k < 511) (x : NodeEntry)
    (h : ∀ i < k, node.no i = node'.no i) :
    ∀ i < k + 1, (node.store (BitVec.ofNat 9 k) x).no i = (node'.store (BitVec.ofNat 9 k) x).no i := by
  intro i hi
  rw [no_store node x hk (by omega), no_store node' x hk (by omega)]
  by_cases e : i = k
  · rw [if_pos e, if_pos e]
  · rw [if_neg e, if_neg e]
    exact h i (by omega)

/-- LOAD's body keeps the agreement, up to the new last slot. -/
theorem Forest.Agrees.loadSymbol {t u : Forest} (h : t.Agrees u t.queue.size) (hsize : t.queue.size < 256)
    (hnext : t.next < 256) (s : Byte) (f : Word) :
    (t.loadSymbol s f).Agrees (u.loadSymbol s f) (t.loadSymbol s f).queue.size := by
  unfold Forest.loadSymbol
  split
  · exact h
  · rw [← h.next, ← h.total]
    exact ⟨h.queue.insert f _ (Nat.le_refl _) (Nat.le_refl _) (Nat.le_max_right _ _) hsize, rfl, rfl,
      no_store_agrees (by omega) _ h.node⟩

/-- MERGE's body keeps the agreement. -/
theorem Forest.Agrees.mergeOnce {t u : Forest} {n : Nat} (h : t.Agrees u n) (h2 : 2 ≤ t.queue.size) (hn : t.queue.size ≤ n)
    (h256 : n ≤ 256) (hnext : t.next < 511) : t.mergeOnce.Agrees u.mergeOnce n := by
  have hpop := h.queue.pop (by omega) hn h256
  have hpop' := hpop.pop (by rw [pop_size]; omega) (by rw [pop_size]; omega) h256
  unfold Forest.mergeOnce
  dsimp only
  rw [← h.next, ← h.queue.top (by omega), ← hpop.top (by omega)]
  exact ⟨hpop'.insert _ _ (by rw [pop_size, pop_size]; omega) (by rw [pop_size, pop_size]; omega) (Nat.le_max_left _ _) h256,
    rfl, h.total, no_store_agrees hnext _ h.node⟩

/-- MERGE keeps the agreement: each node it makes stands for two entries extracted and one inserted. -/
theorem Forest.Agrees.merge {n : Nat} (h256 : n ≤ 256) (fuel : Nat) : ∀ {t u : Forest}, t.Agrees u n → t.queue.size ≤ n →
    t.next + t.queue.size ≤ 512 → (Forest.merge fuel t).Agrees (Forest.merge fuel u) n := by
  induction fuel with
  | zero => exact fun h _ _ => h
  | succ fuel ih =>
    intro t u h hn hnext
    rw [Forest.merge, Forest.merge, ← h.queue.size]
    split
    · next hgt =>
      have hsize := mergeOnce_size hgt
      have hnext' : t.mergeOnce.next = t.next + 1 := rfl
      exact ih (h.mergeOnce hgt hn h256 (by omega)) (by omega) (by omega)
    · exact h

/-! ### CODEGEN -/

/-- NODE that agrees on the nodes of the tree holds it with the same leaves. -/
theorem CodeTree.Spans.congr {t : CodeTree} {node node' : Nodes} {n : Nat} (h : t.Spans node n)
    (e : ∀ i < 2 * n - 1, node.no i = node'.no i) : t.Spans node' n := by
  have hpos := h.pos
  have leaf (i : Nat) (hi : i < n) : node'.no i = node.no i := (e i (by omega)).symm
  exact { h with
    held := h.held.congr fun i hi => (e i ((h.mem_nodes i).1 hi)).symm
    leaf_eq := fun i hi => by rw [leaf i hi]; exact h.leaf_eq i hi
    ascends := fun i hi j hj => by rw [leaf i hi, leaf j (by omega)]; exact h.ascends i hi j hj }

/-- The codes of a tree depend on the symbols of its leaves only. -/
theorem CodeTree.codes_congr {t : CodeTree} {node node' : Nodes} (e : ∀ i ∈ t.leaves, node.no i = node'.no i) :
    t.codes node = t.codes node' := by
  cases t with
  | leaf i => simp only [CodeTree.codes, e i (List.mem_singleton_self i)]
  | join i l r =>
    refine List.map_congr_left fun x hx => ?_
    rw [e x.1 (by rw [← CodeTree.map_fst_paths]; exact List.mem_map_of_mem hx)]

/-- CODEGEN writes the same table for the same tree. -/
theorem CodeTree.Spans.codegen_congr {t : CodeTree} {node node' : Nodes} {n : Nat} (h : t.Spans node n)
    (e : ∀ i < 2 * n - 1, node.no i = node'.no i) :
    codegen node n (BitVec.ofNat 9 t.root) = codegen node' n (BitVec.ofNat 9 t.root) := by
  have hpos := h.pos
  rw [h.codegen_eq, (h.congr e).codegen_eq,
    CodeTree.codes_congr fun i hi => e i (by have := (h.mem_leaves i).1 hi; omega)]

/-! ### BUILD -/

section
variable {s s' : State} (hf : s.ram.freq = s'.ram.freq)
include hf

theorem alphabet_congr : s'.ram.alphabet = s.ram.alphabet := by rw [Rams.alphabet, ← hf]; rfl

theorem freqSum_congr : s'.ram.freqSum = s.ram.freqSum := by rw [Rams.freqSum, ← hf]; rfl

theorem loaded_agrees : s.loaded.Agrees s'.loaded s.ram.alphabet.length := by
  rw [← loaded_size, State.loaded, State.loaded, ← hf]
  exact load_induction₂ (R := fun t u => t.Agrees u t.queue.size)
    ⟨⟨rfl, rfl, fun p h1 hp => by have : p ≤ 0 := hp; omega⟩, rfl, rfl, fun i hi => absurd hi (Nat.not_lt_zero i)⟩
    fun _ _ s f hsize hnext h => h.loadSymbol hsize hnext s f

theorem merged_agrees : s.merged.Agrees s'.merged s.ram.alphabet.length := by
  have hle := length_alphabet_le s.ram
  have hnext : s.loaded.next = s.ram.alphabet.length := load_next s.queue s.ram
  rw [State.merged, State.merged, alphabet_congr hf]
  exact (loaded_agrees hf).merge hle _ (loaded_size s).le (by rw [loaded_size]; omega)

theorem buildCodes_congr (hne : s.ram.alphabet ≠ []) (h : s.ram.freqSum ≤ 0xFFFFFFFF) :
    s.buildCodes = s'.buildCodes := by
  obtain ⟨t, ht, htag⟩ := merged_spans hne h
  have hm := merged_agrees hf
  have hnode := hm.node
  rw [merged_next hne h] at hnode
  rw [State.buildCodes, State.buildCodes, alphabet_congr hf, ← hm.queue.top ht.pos, htag]
  exact ht.codegen_congr hnode

end

/-- A BUILD that does not succeed stores what LOAD left. -/
theorem execBuild_of_not_fits {s : State} (h : ¬(s.ram.alphabet ≠ [] ∧ s.ram.freqSum ≤ 0xFFFFFFFF)) :
    ∃ e, exec .build s = .next ((s.withForest s.loaded).raise e) :=
  (execBuild_cases s).resolve_right fun ⟨hne, hsum, _⟩ => h ⟨hne, hsum⟩

/-- Settles O38: the two runs agree after LOAD, after MERGE and after CODEGEN. -/
theorem buildIsAFunctionOfFreq : Obligations.BuildIsAFunctionOfFreq := by
  intro s s' t t' hf h h'
  by_cases hfits : s.ram.alphabet ≠ [] ∧ s.ram.freqSum ≤ 0xFFFFFFFF
  · obtain ⟨hne, hsum⟩ := id hfits
    rw [← alphabet_congr hf, ← freqSum_congr hf] at hfits
    cases h.symm.trans (execBuild_of_fits hne hsum)
    cases h'.symm.trans (execBuild_of_fits hfits.1 hfits.2)
    have hpos : 1 ≤ s.ram.alphabet.length := List.length_pos_iff.2 hne
    have hle := length_alphabet_le s.ram
    have hm := merged_agrees hf
    have hcodes := buildCodes_congr hf hne hsum
    obtain ⟨-, h1, -, -⟩ := merged_holds hne hsum
    have hpop := hm.queue.pop (by omega) (by omega) hle
    have hnext := merged_next hne hsum
    have hcount : s.built.finish.regs.nodeCount.toNat = s.merged.next := Nat.mod_eq_of_lt (by omega)
    exact ⟨congrArg (BitVec.ofNat 9) hpop.size, congrArg (BitVec.ofNat 32) hpop.seq, hpop.heap,
      fun k hk => hm.node k (by omega), fun _ _ => ⟨fun k hk => hm.node k (hcount ▸ hk),
        congrArg (fun a : List Byte => BitVec.ofNat 9 a.length) (alphabet_congr hf).symm, congrArg HeapEntry.tag (hm.queue.top hpos),
        congrArg (BitVec.ofNat 32) hm.total, congrArg (fun c : CodeTable => BitVec.ofNat 8 c.maxlen) hcodes,
        congrArg (BitVec.ofNat 10) hm.next, congrArg CodeTable.len hcodes, congrArg CodeTable.bits hcodes⟩⟩
  · obtain ⟨e, he⟩ := execBuild_of_not_fits hfits
    obtain ⟨e', he'⟩ := execBuild_of_not_fits (s := s') (by rwa [alphabet_congr hf, freqSum_congr hf])
    cases h.symm.trans he
    cases h'.symm.trans he'
    have hl := loaded_agrees hf
    have hnext : s.loaded.next = s.ram.alphabet.length := load_next s.queue s.ram
    exact ⟨congrArg (BitVec.ofNat 9) hl.queue.size, congrArg (BitVec.ofNat 32) hl.queue.seq, hl.queue.heap,
      fun k hk => hl.node k (by omega),
      fun hne hsum => absurd ⟨hne, hsum⟩ hfits⟩

end Sys2Proof.Machine
end

section
/-! SUPPORT. The tree as a snapshot (41_tree_builder.md R99): which events leave the tree, the code table, the tree registers and
TREE_VALID. -/

namespace Sys2Proof.Machine

/-! ### Events that leave the snapshot -/

/-- `t` agrees with `s` in the tree, the code table, the tree registers and TREE_VALID. -/
def State.KeepsSnapshot (s t : State) : Prop := s.KeepsTree t ∧ t.regs.treeValid = s.regs.treeValid

theorem State.KeepsSnapshot.trans {s u t : State} (h : s.KeepsSnapshot u) (h' : u.KeepsSnapshot t) : s.KeepsSnapshot t :=
  ⟨h.1.trans h'.1, h'.2.trans h.2⟩

theorem State.SameBlock.keepsSnapshot {s u : State} (h : s.SameBlock u) : s.KeepsSnapshot u := ⟨h.keepsTree, h.treeValid⟩

theorem State.HostChanges.keepsSnapshot {s t : State} (h : s.HostChanges t) : s.KeepsSnapshot t := by
  refine ⟨?_, by rw [h.regs]⟩
  constructor <;> first | rw [h.ram] | rw [h.regs]

/-- The engine's event leaves the snapshot unless it is a BUILD. -/
theorem engineStep_keepsSnapshot {s t : State} (h : s.engineStep = .next t) (hcmd : s.regs.cmd ≠ 0x00000003) :
    s.KeepsSnapshot t := by
  obtain ⟨u, -, htree, hcomp⟩ := engineStep_completes h
  obtain ⟨hkeep, hvalid⟩ := htree hcmd
  exact ⟨hkeep.trans hcomp.keepsTree, hcomp.treeValid.trans hvalid⟩

/-- A write to CTRL that neither resets nor aborts a BUILD leaves the snapshot. -/
theorem writeCtrl_keepsSnapshot {s t : State} {v : Word} (h : s.writeCtrl v = .next t) (hreset : v.getLsbD 2 = false)
    (habort : v.getLsbD 1 = false ∨ s.regs.busy = false ∨ s.regs.cmd ≠ 0x00000003) : s.KeepsSnapshot t := by
  have hirq : s.KeepsSnapshot { s with regs.irqEn := v.getLsbD 0 } := ⟨by constructor <;> rfl, rfl⟩
  unfold State.writeCtrl at h
  rw [if_neg (by rw [hreset]; decide)] at h
  dsimp only at h
  split at h
  · next hrun =>
    obtain ⟨h1, hb⟩ := Bool.and_eq_true_iff.1 hrun
    have hb : s.regs.busy = true := hb
    have hcmd : s.regs.cmd ≠ 0x00000003 := (habort.resolve_left (by simp [h1])).resolve_left (by simp [hb])
    split at h
    · cases h
      obtain ⟨hvalid, htree⟩ := abort_keepsTree { s with regs.irqEn := v.getLsbD 0 }
      exact hirq.trans ⟨htree hcmd, hvalid⟩
    · have hdrawn : s.KeepsSnapshot { s with regs.irqEn := v.getLsbD 0 }.drawn := ⟨by constructor <;> rfl, rfl⟩
      exact hdrawn.trans (engineStep_keepsSnapshot h hcmd)
  · cases h
    exact hirq

/-- A busy-protected write is dropped, or performed while the block is idle (10_state.md R26). -/
theorem protectedWrite_cases {s w t : State} (h : s.protectedWrite w = .next t) :
    t = s.dropWrite ∨ (s.regs.busy = false ∧ t = w) := by
  unfold State.protectedWrite at h
  cases h
  cases s.regs.busy with
  | true => exact .inl rfl
  | false => exact .inr ⟨rfl, rfl⟩

theorem dropWrite_keepsSnapshot (s : State) : s.KeepsSnapshot s.dropWrite := ⟨by constructor <;> rfl, rfl⟩

/-- A busy-protected write leaves the snapshot if what it would write does. -/
theorem protectedWrite_keepsSnapshot {s w t : State} (h : s.protectedWrite w = .next t) (hw : s.KeepsSnapshot w) :
    s.KeepsSnapshot t := by
  rcases protectedWrite_cases h with rfl | ⟨-, rfl⟩
  · exact dropWrite_keepsSnapshot s
  · exact hw

theorem accept_keepsTree (s : State) (w : Word) : s.KeepsTree (s.accept w) := by constructor <;> rfl

/-- The acceptance of a command other than BUILD leaves the snapshot (60_exceptions.md R116). -/
theorem accept_keepsSnapshot (s : State) {w : Word} (h : w ≠ 0x00000003) : s.KeepsSnapshot (s.accept w) := by
  refine ⟨accept_keepsTree s w, ?_⟩
  show (s.regs.treeValid && w != 0x00000003) = s.regs.treeValid
  rw [bne_iff_ne.2 h, Bool.and_true]

/-- From `s` to `t` BUILD is accepted: TREE_VALID is cleared, and the tree is left. -/
structure State.AcceptsBuild (s t : State) : Prop where
  idle : s.regs.busy = false
  tree : s.KeepsTree t
  treeValid : t.regs.treeValid = false

/-- A write to CMD leaves the snapshot, or is the acceptance of BUILD. -/
theorem writeCmd_snapshot {s t : State} {v : Word} (h : s.writeTarget v (.reg .cmd) = .next t) :
    s.KeepsSnapshot t ∨ (v = 0x00000003 ∧ s.AcceptsBuild t) := by
  have h : s.protectedWrite (s.accept v) = .next t := h
  rcases protectedWrite_cases h with rfl | ⟨hidle, rfl⟩
  · exact .inl (dropWrite_keepsSnapshot s)
  · by_cases hv : v = 0x00000003
    · exact .inr ⟨hv, hidle, accept_keepsTree s v, by simp [hv]⟩
    · exact .inl (accept_keepsSnapshot s hv)

/-- A write anywhere but to CTRL and CMD leaves the snapshot. -/
theorem writeTarget_keepsSnapshot {s t : State} {v : Word} {x : Target} (h : s.writeTarget v x = .next t)
    (hctrl : x ≠ .reg .ctrl) (hcmd : x ≠ .reg .cmd) : s.KeepsSnapshot t := by
  unfold State.writeTarget at h
  split at h
  case h_1 => exact absurd rfl hctrl
  case h_2 => exact absurd rfl hcmd
  case h_4 | h_5 | h_6 | h_7 | h_9 | h_10 => exact protectedWrite_keepsSnapshot h ⟨by constructor <;> rfl, rfl⟩
  all_goals cases h; exact ⟨by constructor <;> rfl, rfl⟩

/-! ### The words of CTRL and CMD -/

/-- An address that reaches a register is in its word (10_state.md R18). -/
theorem busReg_of_target {addr : BusAddr} {r : BusReg} (h : target addr = .reg r) :
    busReg? (4 * (addr.toNat / 4)) = some r := by
  rw [target_of_word rfl] at h
  split_ifs at h
  cases hb : busReg? (4 * (addr.toNat / 4)) with
  | none => rw [hb] at h; cases h
  | some r' => rw [hb] at h; cases h; rfl

theorem eq_of_busReg_ctrl {a : Nat} (h : busReg? a = some .ctrl) : a = 0x008 := by
  unfold busReg? at h
  split at h <;> cases h
  rfl

theorem eq_of_busReg_cmd {a : Nat} (h : busReg? a = some .cmd) : a = 0x00C := by
  unfold busReg? at h
  split at h <;> cases h
  rfl

/-! ### A step -/

/-- A host write that neither resets nor aborts a BUILD leaves the snapshot, or is the acceptance of BUILD. -/
theorem hostWrite_snapshot {s t : State} {addr : BusAddr} {v : Word} (h : s.writeTarget v (target addr) = .next t)
    (hctrl : addr.toNat / 4 = 2 →
      v.getLsbD 2 = false ∧ (v.getLsbD 1 = false ∨ s.regs.busy = false ∨ s.regs.cmd ≠ 0x00000003)) :
    s.KeepsSnapshot t ∨ (addr.toNat / 4 = 3 ∧ v = 0x00000003 ∧ s.AcceptsBuild t) := by
  by_cases hx : target addr = .reg .ctrl
  · have ha := eq_of_busReg_ctrl (busReg_of_target hx)
    obtain ⟨hreset, habort⟩ := hctrl (by omega)
    rw [hx] at h
    exact .inl (writeCtrl_keepsSnapshot h hreset habort)
  by_cases hy : target addr = .reg .cmd
  · have ha := eq_of_busReg_cmd (busReg_of_target hy)
    rw [hy] at h
    exact (writeCmd_snapshot h).imp_right fun hbuild => ⟨by omega, hbuild⟩
  · exact .inl (writeTarget_keepsSnapshot h hx hy)

theorem State.SameBlock.acceptsBuild {s u t : State} (h : s.SameBlock u) (hb : u.AcceptsBuild t) : s.AcceptsBuild t where
  idle := h.busy ▸ hb.idle
  tree := h.keepsTree.trans hb.tree
  treeValid := hb.treeValid

/-- A step that is no BUILD, no reset and no ABORT of a BUILD leaves the snapshot, or is the acceptance of BUILD. -/
theorem step_snapshot {s t : State} (h : step s = .next t) (hengine : s.mover = .engine → s.regs.cmd ≠ 0x00000003)
    (hpower : ∀ rest, ¬ s.hostNext .powerOn rest)
    (hctrl : ∀ addr v rest, s.hostNext (.wr addr v) rest → addr.toNat / 4 = 2 →
      v.getLsbD 2 = false ∧ (v.getLsbD 1 = false ∨ s.regs.busy = false ∨ s.regs.cmd ≠ 0x00000003)) :
    s.KeepsSnapshot t ∨
      (∃ addr rest, s.hostNext (.wr addr 0x00000003) rest ∧ addr.toNat / 4 = 3 ∧ s.AcceptsBuild t) := by
  have hturn := (useTurn_sameBlock s).keepsSnapshot
  rcases step_cases s with ⟨hm, e⟩ | ⟨-, -, e⟩ | ⟨addr, v, rest, hnext, e⟩ | ⟨addr, rest, -, e⟩ |
    ⟨addr, mask, v, rest, -, e⟩ | ⟨rest, hnext, -⟩
  case inr.inr.inr.inr.inr => exact absurd hnext (hpower rest)
  all_goals rw [e] at h
  · exact .inl (hturn.trans (engineStep_keepsSnapshot h (by rw [useTurn_regs]; exact hengine hm)))
  · cases h
    exact .inl hturn
  · have hafter := afterHost_sameBlock s rest ⟨.write, addr, v⟩
    rcases hostWrite_snapshot h (by rw [afterHost_regs]; exact hctrl addr v rest hnext) with hkeep | ⟨ha, rfl, hbuild⟩
    · exact .inl (hafter.keepsSnapshot.trans hkeep)
    · exact .inr ⟨addr, rest, hnext, ha, hafter.acceptsBuild hbuild⟩
  · cases h
    exact .inl (hturn.trans ((hostRead_changes _ addr).withProgram rest).keepsSnapshot)
  · cases h
    split
    · exact .inl (hturn.trans ((hostRead_changes _ addr).withProgram rest).keepsSnapshot)
    · exact .inl (hturn.trans (hostRead_changes _ addr).keepsSnapshot)

/-- Settles O53: a step leaves the tree, and TREE_VALID unless it is the acceptance of BUILD. -/
theorem treeIsASnapshot : Obligations.TreeIsASnapshot := by
  intro s t h hengine hpower hctrl
  obtain ⟨hk, hv⟩ : s.KeepsTree t ∧ (t.regs.treeValid = s.regs.treeValid ∨
      (∃ addr rest, s.hostNext (.wr addr 0x00000003) rest ∧ addr.toNat / 4 = 3 ∧ s.regs.busy = false ∧
        t.regs.treeValid = false)) := by
    rcases step_snapshot h hengine hpower hctrl with ⟨hk, hv⟩ | ⟨addr, rest, hnext, ha, hbuild⟩
    · exact ⟨hk, .inl hv⟩
    · exact ⟨hbuild.tree, .inr ⟨addr, rest, hnext, ha, hbuild.idle, hbuild.treeValid⟩⟩
  exact ⟨hk.node, hk.codeLen, hk.codeBits, hk.treeNleaf, hk.treeRoot, hk.treeTotal, hk.treeMaxlen, hk.nodeCount, hv⟩

end Sys2Proof.Machine
end

section
/-! SUPPORT. The code table BUILD leaves (42_code_table.md R102): the symbols of its codes are the alphabet, its lengths are
those of the paths of the tree MERGE made, and the powers 2^-length of these paths sum to 1. -/

namespace Sys2Proof.Machine

/-! ### The Kraft sum of a tree -/

namespace CodeTree

/-- Every join has two children, so the powers 2^-length of the paths sum to 1, here times 2^m (42_code_table.md R102). -/
theorem sum_paths (t : CodeTree) : ∀ m, t.leaves.length ≤ m + 1 →
    (t.paths.map fun x => 2 ^ (m - x.2.length)).sum = 2 ^ m := by
  induction t with
  | leaf i => intro m _; simp [paths]
  | join i l r ihl ihr =>
    intro m hm
    have hl := l.length_leaves_pos
    have hr := r.length_leaves_pos
    rw [leaves, List.length_append] at hm
    obtain ⟨k, rfl⟩ : ∃ k, m = k + 1 := ⟨m - 1, by omega⟩
    rw [Nat.pow_succ, Nat.mul_two]
    nth_rw 1 [← ihl k (by omega)]
    rw [← ihr k (by omega)]
    simp [paths, Function.comp_def]

/-- For two leaves or more the codes are the paths. -/
theorem sum_codes (node : Nodes) (t : CodeTree) {m : Nat} (h2 : 2 ≤ t.leaves.length) (hm : t.leaves.length ≤ m + 1) :
    ((t.codes node).map fun x => 2 ^ (m - x.2.length)).sum = 2 ^ m := by
  cases t with
  | leaf i => exact absurd h2 (by simp [leaves])
  | join i l r =>
    rw [codes, List.map_map]
    exact sum_paths _ m hm

end CodeTree

/-! ### The table in the terms of the alphabet -/

theorem mem_alphabet_iff {r : Rams} {b : Byte} : b ∈ r.alphabet ↔ r.freq.entry b ≠ 0 := by simp [Rams.alphabet]

section
variable {s : State} (hne : s.ram.alphabet ≠ []) (h : s.ram.freqSum ≤ 0xFFFFFFFF)
include hne h

/-- The `k`-th leaf has the `k`-th symbol of the alphabet. -/
theorem built_symbol (k : Nat) (hk : k < s.ram.alphabet.length) : (s.built.ram.nodeNo k).symbol = s.ram.alphabet[k] :=
  congrArg NodeEntry.symbol (merged_leaf hne h k hk)

/-- The symbols of the leaves are those with a frequency (41_tree_builder.md R93). -/
theorem exists_leaf_symbol_iff (b : Byte) :
    (∃ k < s.ram.alphabet.length, (s.built.ram.nodeNo k).symbol = b) ↔ s.ram.freq.entry b ≠ 0 := by
  rw [← mem_alphabet_iff, List.mem_iff_getElem]
  exact exists_congr fun k => ⟨fun ⟨hk, e⟩ => ⟨hk, built_symbol hne h k hk ▸ e⟩,
    fun ⟨hk, e⟩ => ⟨hk, (built_symbol hne h k hk).trans e⟩⟩

/-- The tree registers and the code table of a successful BUILD, for a tree of as many leaves as the alphabet has symbols. -/
theorem built_shapes : s.built.treeRegsShape s.ram.alphabet.length ∧
    s.built.ram.codesShape s.ram.alphabet.length (2 * s.ram.alphabet.length - 2) := by
  have hle := length_alphabet_le s.ram
  have hnleaf : s.built.finish.regs.treeNleaf.toNat = s.ram.alphabet.length := by
    show (BitVec.ofNat 9 s.ram.alphabet.length).toNat = _
    rw [BitVec.toNat_ofNat, Nat.mod_eq_of_lt (by omega)]
  have hok := built_treeOk hne h
  unfold State.treeOk at hok
  rw [hnleaf] at hok
  obtain ⟨-, -, hregs, -, hcodes⟩ := hok
  exact ⟨hregs, hcodes⟩

/-- The codes of the tree MERGE made: their symbols are the alphabet, their lengths are in CODE_LEN. -/
theorem built_codes : ∃ t : CodeTree, t.leaves.length = s.ram.alphabet.length ∧
    ((t.codes s.merged.node).map Prod.fst).Perm s.ram.alphabet ∧
    ∀ x ∈ t.codes s.merged.node, (s.built.ram.codeLen.entry x.1).toNat = x.2.length := by
  obtain ⟨t, ht, htag⟩ := merged_spans hne h
  have hcodes : s.buildCodes = codegen s.merged.node s.ram.alphabet.length (BitVec.ofNat 9 t.root) := by
    rw [State.buildCodes, htag]
  have hsymbols : (List.range s.ram.alphabet.length).map (fun i => (s.merged.node.no i).symbol) = s.ram.alphabet :=
    List.ext_getElem (by simp) fun k _ hk => by
      rw [List.getElem_map, List.getElem_range]
      exact built_symbol hne h k hk
  refine ⟨t, ht.length_leaves, ?_, fun x hx => ?_⟩
  · rw [CodeTree.map_fst_codes]
    exact (ht.leaves.map _).trans (.of_eq hsymbols)
  · exact (ht.code_eq (congrArg CodeTable.len hcodes) (congrArg CodeTable.bits hcodes) hx).2.1

/-- The Kraft sum of the code table is 1 (42_code_table.md R102). -/
theorem built_kraft (h2 : 2 ≤ s.ram.alphabet.length) :
    (s.ram.alphabet.map fun b => 2 ^ (255 - (s.built.ram.codeLen.entry b).toNat)).sum = 2 ^ 255 := by
  obtain ⟨t, hcount, hperm, hlen⟩ := built_codes hne h
  have hle := length_alphabet_le s.ram
  rw [← (hperm.map _).sum_eq, List.map_map, ← t.sum_codes s.merged.node (by omega) (by omega)]
  exact congrArg List.sum (List.map_congr_left fun x hx => by simp [hlen x hx])

/-- A code has at least one bit, and at most one bit less than there are symbols, or one (42_code_table.md R102). -/
theorem built_codeLen_bounds {b : Byte} (hb : s.ram.freq.entry b ≠ 0) : 1 ≤ (s.built.ram.codeLen.entry b).toNat ∧
    (s.built.ram.codeLen.entry b).toNat ≤ max 1 (s.ram.alphabet.length - 1) := by
  obtain ⟨t, hcount, hperm, hlen⟩ := built_codes hne h
  obtain ⟨x, hx, rfl⟩ := List.mem_map.1 (hperm.symm.subset (mem_alphabet_iff.2 hb))
  rw [hlen x hx, ← hcount]
  exact t.length_code _ x hx

/-- Exactly the symbols with a frequency have a code (42_code_table.md R102). -/
theorem built_codeLen_ne_zero_iff (b : Byte) : s.built.ram.codeLen.entry b ≠ 0 ↔ s.ram.freq.entry b ≠ 0 := by
  obtain ⟨-, hcoded, -⟩ := built_shapes hne h
  exact (hcoded b (mem_allSymbols b)).1.trans (exists_leaf_symbol_iff hne h b)

/-- The code of a symbol leads to its leaf from TREE_ROOT (10_state.md R38 item 4). -/
theorem built_follow (h2 : 2 ≤ s.ram.alphabet.length) {b : Byte} (hb : s.ram.freq.entry b ≠ 0) :
    ∃ k, ∃ hk : k < s.ram.alphabet.length, s.ram.alphabet[k] = b ∧
      s.built.ram.node.follow s.built.regs.treeRoot (s.built.ram.code b) = some (BitVec.ofNat 9 k) := by
  obtain ⟨-, -, -, hfollow, -⟩ := built_shapes hne h
  obtain ⟨k, hk, e⟩ := List.mem_iff_getElem.1 (mem_alphabet_iff.2 hb)
  refine ⟨k, hk, e, ?_⟩
  rw [← e, ← built_symbol hne h k hk, show s.built.regs.treeRoot = _ from merged_root hne h]
  exact hfollow h2 k hk

/-- The codes are prefix-free (42_code_table.md R102). -/
theorem built_prefix_free {b c : Byte} (hb : s.ram.freq.entry b ≠ 0) (hc : s.ram.freq.entry c ≠ 0)
    (hpre : s.built.ram.code b <+: s.built.ram.code c) : b = c := by
  obtain ⟨-, -, -, -, hfree⟩ := built_shapes hne h
  obtain ⟨i, hi, rfl⟩ := (exists_leaf_symbol_iff hne h b).2 hb
  obtain ⟨j, hj, rfl⟩ := (exists_leaf_symbol_iff hne h c).2 hc
  by_cases hij : i = j
  · rw [hij]
  · have hnot := hfree i hi j hj hij
    rw [List.isPrefixOf_iff_prefix.2 hpre] at hnot
    exact absurd hnot (by simp)

/-- TREE_MAXLEN bounds the length of every code. -/
theorem built_codeLen_le_maxlen (b : Byte) : (s.built.ram.codeLen.entry b).toNat ≤ s.built.regs.treeMaxlen.toNat := by
  obtain ⟨⟨-, -, -, -, -, hmax, -⟩, -⟩ := built_shapes hne h
  by_cases hb : s.built.ram.codeLen.entry b = 0
  · simp [hb]
  · obtain ⟨i, hi, rfl⟩ := (exists_leaf_symbol_iff hne h b).2 ((built_codeLen_ne_zero_iff hne h b).1 hb)
    exact hmax i hi

/-- TREE_MAXLEN is the length of a symbol's code. -/
theorem exists_codeLen_eq_maxlen :
    ∃ b, s.ram.freq.entry b ≠ 0 ∧ s.built.ram.codeLen.entry b = s.built.regs.treeMaxlen := by
  obtain ⟨⟨-, -, -, -, -, -, i, hi, e⟩, -⟩ := built_shapes hne h
  exact ⟨_, (exists_leaf_symbol_iff hne h _).1 ⟨i, hi, rfl⟩, e⟩

end

/-- Settles O37: the codes are the paths of the tree MERGE made. -/
theorem codeTableProperties : Obligations.CodeTableProperties := by
  intro s t hne h ht
  rw [execBuild_of_fits hne h, Host.Outcome.next.injEq] at ht
  subst ht
  obtain ⟨b, hb, hmax⟩ := exists_codeLen_eq_maxlen hne h
  obtain ⟨hpos, hle⟩ := built_codeLen_bounds hne h hb
  rw [hmax] at hpos hle
  refine ⟨built_codeLen_ne_zero_iff hne h, fun h2 _ => built_follow hne h h2, fun _ _ => built_prefix_free hne h,
    built_kraft hne h, built_codeLen_le_maxlen hne h, ⟨b, hmax⟩, fun h2 => ⟨hpos, ?_⟩, fun h1 => ?_⟩
  · exact hle.trans (by omega)
  · rw [h1] at hle
    exact BitVec.eq_of_toNat_eq (Nat.le_antisymm hle hpos)

end Sys2Proof.Machine
end

section
/-! SUPPORT. The checks ENCODE and DECODE share (43_bitstream_codec.md R105), and the ends of both commands, one equation for
each. -/

namespace Sys2Proof.Machine

/-! ### The buffer checks -/

theorem bufferError_of_noTree {s : State} (h : s.regs.treeValid = false) : s.bufferError = some .noTree := by
  simp [State.bufferError, h]

theorem bufferError_of_outside {s : State} (hv : s.regs.treeValid = true)
    (h : s.dataBytes < s.regs.src + s.regs.len ∨ s.dataBytes < s.regs.dst + s.regs.cap) :
    s.bufferError = some .range := by
  simp [State.bufferError, fits, hv, h]

theorem bufferError_of_inside {s : State} (hv : s.regs.treeValid = true) (hsrc : s.regs.src + s.regs.len ≤ s.dataBytes)
    (hdst : s.regs.dst + s.regs.cap ≤ s.dataBytes) : s.bufferError =
      if overlap s.regs.src s.regs.len s.regs.dst s.regs.cap then some .overlap else none := by
  simp [State.bufferError, fits, hv, hsrc, hdst]

/-- Two buffers overlap where an offset lies in both (43_bitstream_codec.md R105). -/
theorem overlap_of_common {a la b lb x : Nat} (ha : a ≤ x) (hla : x < a + la) (hb : b ≤ x) (hlb : x < b + lb) :
    overlap a la b lb = true := by
  simp [overlap]; omega

/-- Past the checks no byte of the input buffer is a byte of the output buffer. -/
theorem src_ne_dst_of_bufferError {s : State} (h : s.bufferError = none) {i k : Nat} (hi : i < s.regs.len)
    (hk : k < s.regs.cap) : s.regs.src + i ≠ s.regs.dst + k := by
  intro e
  have hover : overlap s.regs.src s.regs.len s.regs.dst s.regs.cap = true :=
    overlap_of_common (x := s.regs.src + i) (by omega) (by omega) (by omega) (by omega)
  simp only [State.bufferError, hover] at h
  split_ifs at h

/-! ### The ends of the commands -/

theorem exec_of_bufferError {s : State} {i : Instr} {e : ErrorKind} (hi : i = .encode ∨ i = .decode)
    (h : s.bufferError = some e) : exec i s = .next (s.raise e) := by
  obtain rfl | rfl := hi
  · simp [exec, execEncode, h]
  · simp [exec, execDecode, h]

/-- How the loop of ENCODE stops in state `s`. -/
def State.packEnd (s : State) : PackEnd :=
  packBytes s.ram s.regs.src s.regs.dst s.regs.cap s.regs.len 0 ⟨s.ram.data, 0, 0, 0, 0⟩

theorem execEncode_of_success {s : State} {p : Packer} {c : Nat} (h : s.bufferError = none)
    (hz : s.packEnd = ⟨p, c, none⟩) :
    exec .encode s = .next ({ s with ram.data := p.data }.withRes p.nout p.nbits c).finish := by
  rw [State.packEnd] at hz
  simp only [exec, execEncode, h, hz]

theorem execEncode_of_error {s : State} {p : Packer} {c : Nat} {e : ErrorKind} (h : s.bufferError = none)
    (hz : s.packEnd = ⟨p, c, some e⟩) :
    exec .encode s = .next (({ s with ram.data := p.data }.withRes p.nout p.nbits c).raise e) := by
  rw [State.packEnd] at hz
  simp only [exec, execEncode, h, hz]

/-- How the loop of DECODE stops in state `s`. -/
def State.walkEnd (s : State) : Walker × Option ErrorKind :=
  walkBits s.ram.node s.regs (8 * s.regs.len) ⟨s.ram.data, s.regs.treeRoot, 0, 0⟩

theorem execDecode_of_overflow {s : State} (h : s.bufferError = none) (hcap : s.regs.cap < s.regs.treeTotal.toNat) :
    exec .decode s = .next (s.raise .outOverflow) := by
  simp [exec, execDecode, h, hcap]

theorem execDecode_of_success {s : State} {w : Walker} (h : s.bufferError = none)
    (hcap : s.regs.treeTotal.toNat ≤ s.regs.cap) (hz : s.walkEnd = (w, none)) :
    exec .decode s = .next ({ s with ram.data := w.data }.withRes01 w.nsym w.nbits).finish := by
  rw [State.walkEnd] at hz
  simp only [exec, execDecode, h, hcap.not_gt, if_false, hz]

theorem execDecode_of_error {s : State} {w : Walker} {e : ErrorKind} (h : s.bufferError = none)
    (hcap : s.regs.treeTotal.toNat ≤ s.regs.cap) (hz : s.walkEnd = (w, some e)) :
    exec .decode s = .next (({ s with ram.data := w.data }.withRes01 w.nsym w.nbits).raise e) := by
  rw [State.walkEnd] at hz
  simp only [exec, execDecode, h, hcap.not_gt, if_false, hz]

/-! ### The statements -/

/-- Settles O39: the three checks in their order, each of which ends the command in `raise`. -/
theorem codecBufferChecks : Obligations.CodecBufferChecks := by
  intro s i hi
  refine ⟨fun hv => ?_, fun hv hout => ?_, fun hv hsrc hdst ⟨a, ha, hla, hb, hlb⟩ => ?_⟩
  · rw [exec_of_bufferError hi (bufferError_of_noTree hv)]; rfl
  · rw [exec_of_bufferError hi (bufferError_of_outside hv hout)]; rfl
  · rw [exec_of_bufferError hi ((bufferError_of_inside hv hsrc hdst).trans (if_pos (overlap_of_common ha hla hb hlb)))]
    rfl

/-- Settles O44: the check of TREE_TOTAL stands before the loop. -/
theorem decodeOutOverflow : Obligations.DecodeOutOverflow := by
  intro s h hcap
  rw [execDecode_of_overflow h hcap]
  rfl

end Sys2Proof.Machine
end

section
/-! SUPPORT. ENCODE (43_bitstream_codec.md R106 to R108): the working values after `t` bits of a bit stream as a function of the
stream and `t`, what the loop makes of them, and its ends. -/

namespace Sys2Proof.Machine

/-! ### The bytes of a bit stream (20_memory.md R56) -/

/-- The first `j` bits of byte `k` of a bit stream as a number, first bit most significant; past its end the stream has 0
bits (43_bitstream_codec.md R107). -/
def streamBits (bits : List Bool) (k j : Nat) : Nat :=
  bitsMsbFirst ((List.range j).map fun m => bits.getD (8 * k + m) false)

@[simp] theorem streamBits_zero (bits : List Bool) (k : Nat) : streamBits bits k 0 = 0 := rfl

theorem streamBits_succ (bits : List Bool) (k j : Nat) :
    streamBits bits k (j + 1) = 2 * streamBits bits k j + (bits.getD (8 * k + j) false).toNat := by
  simp [streamBits, bitsMsbFirst, List.range_succ]

theorem streamBits_lt (bits : List Bool) (k j : Nat) : streamBits bits k j < 2 ^ j := by
  induction j with
  | zero => simp
  | succ j ih =>
    have hbit := Bool.toNat_le (bits.getD (8 * k + j) false)
    rw [streamBits_succ, Nat.pow_succ]
    omega

/-- Past the end of the stream each further bit doubles the number. -/
theorem streamBits_add {bits : List Bool} {k j : Nat} (h : bits.length ≤ 8 * k + j) (i : Nat) :
    streamBits bits k (j + i) = streamBits bits k j * 2 ^ i := by
  induction i with
  | zero => simp
  | succ i ih =>
    have hbit : bits.getD (8 * k + (j + i)) false = false := List.getD_eq_default _ _ (by omega)
    rw [← Nat.add_assoc, streamBits_succ, ih, hbit, Nat.pow_succ]
    simp only [Bool.toNat_false]
    ring

/-- DATA with the first `n` bytes of a bit stream stored from offset `a`. -/
def Memory.packed (m : Memory) (a : Nat) (bits : List Bool) (n : Nat) : Memory :=
  m.fill a (fun k => BitVec.ofNat 8 (streamBits bits k 8)) n

/-- The bits stored are those of the stream. -/
theorem streamBit_packed (m : Memory) (a : Nat) (bits : List Bool) {n t : Nat} (h : t < 8 * n) :
    (m.packed a bits n).streamBit a t = bits.getD t false := by
  have hbyte : (m.packed a bits n).read (a + t / 8) = BitVec.ofNat 8 (streamBits bits (t / 8) 8) := by
    rw [Memory.packed, read_fill, if_pos (by omega), Nat.add_sub_cancel_left]
  have hlt : t % 8 < 8 := Nat.mod_lt _ (by decide)
  have hpos : 7 - (7 - t % 8) = t % 8 := by omega
  rw [Memory.streamBit, hbyte, BitVec.getLsbD_ofNat, streamBits, testBit_bitsMsbFirst]
  simp [List.getD_eq_getElem?_getD, show 7 - t % 8 < 8 by omega, hpos, Nat.div_add_mod]

/-- No other byte changes. -/
theorem read_packed (m : Memory) (a : Nat) (bits : List Bool) (n b : Nat) (h : b < a ∨ a + n ≤ b) :
    (m.packed a bits n).read b = m.read b := by
  rw [Memory.packed, read_fill, if_neg (by omega)]

/-! ### The working values (43_bitstream_codec.md R106) -/

/-- ENCODE's working values after the first `t` bits of a bit stream. -/
def Packer.after (m : Memory) (dst : Nat) (bits : List Bool) (t : Nat) : Packer where
  data := m.packed dst bits (t / 8)
  acc := BitVec.ofNat 8 (streamBits bits (t / 8) (t % 8))
  nacc := t % 8
  nout := t / 8
  nbits := t

/-- ENCODE's working values when a byte is complete for which the buffer of `cap` bytes has no room. -/
def Packer.full (m : Memory) (dst : Nat) (bits : List Bool) (cap : Nat) : Packer where
  data := m.packed dst bits cap
  acc := BitVec.ofNat 8 (streamBits bits cap 8)
  nacc := 8
  nout := cap
  nbits := 8 * (cap + 1)

section
variable {m : Memory} {dst cap : Nat} {bits : List Bool} {t : Nat}

theorem toNat_acc (bits : List Bool) (k : Nat) {j : Nat} (hj : j ≤ 8) :
    (BitVec.ofNat 8 (streamBits bits k j)).toNat = streamBits bits k j := by
  rw [BitVec.toNat_ofNat]
  exact Nat.mod_eq_of_lt ((streamBits_lt bits k j).trans_le (Nat.pow_le_pow_right (by decide) hj))

/-- The accumulator takes the next bit of its byte. -/
theorem acc_succ (bits : List Bool) (k : Nat) {j : Nat} (hj : j < 8) :
    BitVec.ofNat 8 (2 * (BitVec.ofNat 8 (streamBits bits k j)).toNat + (bits.getD (8 * k + j) false).toNat) =
      BitVec.ofNat 8 (streamBits bits k (j + 1)) := by
  rw [toNat_acc bits k hj.le, streamBits_succ]

/-- The padding step fills the accumulator with the bits past the end of the stream. -/
theorem acc_pad (bits : List Bool) (k : Nat) {j : Nat} (hj : j ≤ 8) (hend : bits.length ≤ 8 * k + j) :
    BitVec.ofNat 8 ((BitVec.ofNat 8 (streamBits bits k j)).toNat * 2 ^ (8 - j)) =
      BitVec.ofNat 8 (streamBits bits k 8) := by
  rw [toNat_acc bits k hj, ← streamBits_add hend, Nat.add_sub_cancel' hj]

theorem after_zero (m : Memory) (dst : Nat) (bits : List Bool) : Packer.after m dst bits 0 = ⟨m, 0, 0, 0, 0⟩ := rfl

theorem pushBit_after (hfit : (t + 1) / 8 ≤ cap) :
    (Packer.after m dst bits t).pushBit dst cap (bits.getD t false) = .ok (Packer.after m dst bits (t + 1)) := by
  have hacc := acc_succ bits (t / 8) (Nat.mod_lt t (show 0 < 8 by decide))
  rw [Nat.div_add_mod] at hacc
  simp only [Packer.pushBit, Packer.after, hacc]
  by_cases hfull : t % 8 + 1 = 8
  · have hdiv : (t + 1) / 8 = t / 8 + 1 := by omega
    have hmod : (t + 1) % 8 = 0 := by omega
    simp [Packer.flush, hfull, hdiv, hmod, Memory.packed, Memory.fill, show ¬ cap ≤ t / 8 by omega]
  · have hdiv : (t + 1) / 8 = t / 8 := by omega
    have hmod : (t + 1) % 8 = t % 8 + 1 := by omega
    simp [hfull, hdiv, hmod]

theorem pushBit_full (hfull : t + 1 = 8 * (cap + 1)) :
    (Packer.after m dst bits t).pushBit dst cap (bits.getD t false) = .error (Packer.full m dst bits cap) := by
  have hacc := acc_succ bits (t / 8) (Nat.mod_lt t (show 0 < 8 by decide))
  have hdiv : t / 8 = cap := by omega
  have hmod : t % 8 = 7 := by omega
  rw [Nat.div_add_mod, hdiv, hmod] at hacc
  simp only [Packer.pushBit, Packer.after, hdiv, hmod, hacc]
  simp [Packer.flush, Packer.full, hfull]

/-- A list of bits at position `t` of a stream: its first bit, and the others one position on. -/
theorem cons_prefix_drop {b : Bool} {rest : List Bool} (h : b :: rest <+: bits.drop t) :
    bits.getD t false = b ∧ rest <+: bits.drop (t + 1) := by
  obtain ⟨tail, e⟩ := h
  have hhead := congrArg (fun l => l.getD 0 false) e
  have htail := congrArg List.tail e
  rw [List.tail_drop] at htail
  exact ⟨by simpa [List.getD_eq_getElem?_getD] using hhead.symm, tail, htail⟩

theorem pushBits_after (code : List Bool) : ∀ {t : Nat}, code <+: bits.drop t → (t + code.length) / 8 ≤ cap →
    (Packer.after m dst bits t).pushBits dst cap code = .ok (Packer.after m dst bits (t + code.length)) := by
  induction code with
  | nil => intro t _ _; rfl
  | cons b code ih =>
    intro t hcode hfit
    obtain ⟨rfl, hrest⟩ := cons_prefix_drop hcode
    rw [List.length_cons] at hfit ⊢
    rw [Packer.pushBits, pushBit_after (by omega), Nat.add_comm code.length, ← Nat.add_assoc]
    exact ih hrest (by omega)

/-- A code whose bits complete the byte at index `cap`. -/
theorem pushBits_full (code : List Bool) : ∀ {t : Nat}, code <+: bits.drop t → t < 8 * (cap + 1) →
    8 * (cap + 1) ≤ t + code.length →
    (Packer.after m dst bits t).pushBits dst cap code = .error (Packer.full m dst bits cap) := by
  induction code with
  | nil => intro t _ hlt hle; rw [List.length_nil] at hle; omega
  | cons b code ih =>
    intro t hcode hlt hle
    obtain ⟨rfl, hrest⟩ := cons_prefix_drop hcode
    rw [List.length_cons] at hle
    rw [Packer.pushBits]
    by_cases hfull : t + 1 = 8 * (cap + 1)
    · rw [pushBit_full hfull]
    · rw [pushBit_after (by omega)]
      exact ih hrest (by omega) (by omega)

/-- ENCODE's working values after the padding step (43_bitstream_codec.md R107). -/
def Packer.padded (m : Memory) (dst : Nat) (bits : List Bool) : Packer where
  data := m.packed dst bits ((bits.length + 7) / 8)
  acc := 0
  nacc := 0
  nout := (bits.length + 7) / 8
  nbits := bits.length

theorem pad_after (hfit : (bits.length + 7) / 8 ≤ cap) (len : Nat) :
    (Packer.after m dst bits bits.length).pad dst cap len = ⟨Packer.padded m dst bits, len, none⟩ := by
  by_cases hmod : bits.length % 8 = 0
  · have hdiv : (bits.length + 7) / 8 = bits.length / 8 := by omega
    simp [Packer.pad, Packer.after, Packer.padded, hmod, hdiv]
  · have hdiv : (bits.length + 7) / 8 = bits.length / 8 + 1 := by omega
    have hlt := Nat.mod_lt bits.length (show 0 < 8 by decide)
    have hacc := acc_pad bits (bits.length / 8) hlt.le (by omega)
    simp only [Packer.pad, Packer.after, hmod, hacc]
    simp [Packer.padded, Packer.flush, hdiv, show ¬ cap ≤ bits.length / 8 by omega, Memory.packed, Memory.fill]

theorem pad_full (hdiv : bits.length / 8 = cap) (hmod : bits.length % 8 ≠ 0) (len : Nat) :
    (Packer.after m dst bits bits.length).pad dst cap len =
      ⟨{ Packer.after m dst bits bits.length with
          acc := BitVec.ofNat 8 ((Packer.after m dst bits bits.length).acc.toNat * 2 ^ (8 - bits.length % 8)) },
        len, some .outOverflow⟩ := by
  simp [Packer.pad, Packer.flush, Packer.after, hmod, hdiv]

end

/-! ### The loop -/

theorem length_code (r : Rams) (b : Byte) : (r.code b).length = (r.codeLen.entry b).toNat := by simp [Rams.code]

theorem code_eq_nil_iff (r : Rams) (b : Byte) : r.code b = [] ↔ r.codeLen.entry b = 0 := by
  rw [← List.length_eq_zero_iff, length_code]
  exact BitVec.toNat_eq (y := 0#8).symm

theorem stream_append (r : Rams) (x y : List Byte) : r.stream (x ++ y) = r.stream x ++ r.stream y := List.flatMap_append

theorem stream_singleton (r : Rams) (b : Byte) : r.stream [b] = r.code b := by simp [Rams.stream]

theorem stream_bytes_succ (r : Rams) (m : Memory) (a i : Nat) :
    r.stream (m.bytes a (i + 1)) = r.stream (m.bytes a i) ++ r.code (m.read (a + i)) := by
  rw [bytes_succ, stream_append, stream_singleton]

/-- The stream of a buffer begins with that of each shorter buffer at the same offset. -/
theorem stream_bytes_prefix (r : Rams) (m : Memory) (a : Nat) {i n : Nat} (h : i ≤ n) :
    r.stream (m.bytes a i) <+: r.stream (m.bytes a n) := by
  induction n, h using Nat.le_induction with
  | base => exact List.prefix_refl _
  | succ n _ ih => exact ih.trans (stream_bytes_succ r m a n ▸ List.prefix_append _ _)

/-- A list that goes on after `x` with `y` has `y` at position `x.length`. -/
theorem prefix_drop_of_append_prefix {x y l : List Bool} (h : x ++ y <+: l) : y <+: l.drop x.length := by
  simpa using h.drop x.length

section
variable {ram : Rams} {src dst cap todo i : Nat} {p : Packer} {b : Byte}

theorem packBytes_of_unknown (hread : p.data.read (src + i) = b) (h : ram.code b = []) :
    packBytes ram src dst cap (todo + 1) i p = ⟨p, i, some .unknownSymbol⟩ := by
  rw [packBytes, hread, h]

theorem packBytes_of_ok {q : Packer} (hread : p.data.read (src + i) = b) (h : ram.code b ≠ [])
    (hq : p.pushBits dst cap (ram.code b) = .ok q) :
    packBytes ram src dst cap (todo + 1) i p = packBytes ram src dst cap todo (i + 1) q := by
  rw [packBytes, hread]
  split
  · next hnil => exact absurd hnil h
  · rw [hq]

theorem packBytes_of_error {q : Packer} (hread : p.data.read (src + i) = b) (h : ram.code b ≠ [])
    (hq : p.pushBits dst cap (ram.code b) = .error q) :
    packBytes ram src dst cap (todo + 1) i p = ⟨q, i, some .outOverflow⟩ := by
  rw [packBytes, hread]
  split
  · next hnil => exact absurd hnil h
  · rw [hq]

end

section
variable {s : State} (h : s.bufferError = none)
include h

/-- What ENCODE has written does not change its input. -/
theorem read_input_after (bits : List Bool) {t i : Nat} (ht : t / 8 ≤ s.regs.cap) (hi : i < s.regs.len) :
    (Packer.after s.ram.data s.regs.dst bits t).data.read (s.regs.src + i) = s.ram.data.read (s.regs.src + i) := by
  refine read_packed _ _ _ _ _ ?_
  by_contra hin
  exact src_ne_dst_of_bufferError h hi (k := s.regs.src + i - s.regs.dst) (by omega) (by omega)

/-- Where the loop is after `i` input bytes that have codes whose whole bytes fit the buffer, for any bit stream that begins
with these codes. -/
theorem packEnd_eq {bits : List Bool} {i : Nat} : i ≤ s.regs.len →
    (∀ b ∈ s.ram.data.bytes s.regs.src i, s.ram.codeLen.entry b ≠ 0) →
    s.ram.stream (s.ram.data.bytes s.regs.src i) <+: bits →
    (s.ram.stream (s.ram.data.bytes s.regs.src i)).length / 8 ≤ s.regs.cap →
    s.packEnd = packBytes s.ram s.regs.src s.regs.dst s.regs.cap (s.regs.len - i) i
      (Packer.after s.ram.data s.regs.dst bits (s.ram.stream (s.ram.data.bytes s.regs.src i)).length) := by
  induction i with
  | zero =>
    intros
    rw [show s.ram.stream (s.ram.data.bytes s.regs.src 0) = [] from rfl, List.length_nil, after_zero]
    rfl
  | succ i ih =>
    intro hi hcoded hbits hfit
    rw [bytes_succ] at hcoded
    rw [stream_bytes_succ] at hbits hfit ⊢
    rw [List.length_append] at hfit ⊢
    have hread := read_input_after h bits (t := (s.ram.stream (s.ram.data.bytes s.regs.src i)).length) (by omega)
      (show i < s.regs.len from hi)
    have hcode : s.ram.code (s.ram.data.read (s.regs.src + i)) ≠ [] := by
      rw [ne_eq, code_eq_nil_iff]
      exact hcoded _ (by simp)
    rw [ih (by omega) (fun b hb => hcoded b (by simp [hb])) ((List.prefix_append _ _).trans hbits) (by omega),
      show s.regs.len - i = s.regs.len - (i + 1) + 1 by omega,
      packBytes_of_ok hread hcode (pushBits_after _ (prefix_drop_of_append_prefix hbits) hfit)]

end

/-! ### The statements -/

theorem ofNat_len (r : Regs) : BitVec.ofNat 32 r.len = r.arg1 := by simp [Regs.len]

theorem ofNat_cap (r : Regs) : BitVec.ofNat 32 r.cap = r.arg3 := by simp [Regs.cap]

/-- ENCODE of an input whose bytes all have a code and whose packed stream fits the buffer (43_bitstream_codec.md R106). -/
theorem execEncode_of_fits {s : State} (h : s.bufferError = none) (hcoded : ∀ b ∈ s.input, s.ram.codeLen.entry b ≠ 0)
    (hfit : ((s.ram.stream s.input).length + 7) / 8 ≤ s.regs.cap) :
    exec .encode s = .next
      ({ s with
          ram.data :=
            s.ram.data.packed s.regs.dst (s.ram.stream s.input) (((s.ram.stream s.input).length + 7) / 8) }.withRes
        (((s.ram.stream s.input).length + 7) / 8) (s.ram.stream s.input).length s.regs.len).finish := by
  have hwhole : (s.ram.stream s.input).length / 8 ≤ s.regs.cap := by omega
  have hend := packEnd_eq h le_rfl hcoded (List.prefix_refl _) hwhole
  rw [Nat.sub_self, packBytes] at hend
  exact execEncode_of_success h (hend.trans (pad_after hfit _))

/-- Settles O40: the working values after every code of the input, then the padding step. -/
theorem encodePacksTheCodeStream : Obligations.EncodePacksTheCodeStream := by
  intro s h hcoded hfit
  refine ⟨_, ?_, fun t ht => streamBit_packed _ _ _ ht, fun a ha => read_packed _ _ _ _ _ ha⟩
  rw [execEncode_of_fits h hcoded hfit]
  simp [State.finish, State.withRes, ofNat_len]

/-- Settles O41: the loop stops at byte `i` with the working values after the codes before it. -/
theorem encodeStopsAtAnUnknownSymbol : Obligations.EncodeStopsAtAnUnknownSymbol := by
  intro s i h hi hcoded hunknown hfit
  have hread := read_input_after h (s.ram.stream (s.ram.data.bytes s.regs.src i)) hfit hi
  have hend : s.packEnd = ⟨Packer.after s.ram.data s.regs.dst (s.ram.stream (s.ram.data.bytes s.regs.src i))
      (s.ram.stream (s.ram.data.bytes s.regs.src i)).length, i, some .unknownSymbol⟩ := by
    rw [packEnd_eq h hi.le hcoded (List.prefix_refl _) hfit, show s.regs.len - i = s.regs.len - (i + 1) + 1 by omega]
    exact packBytes_of_unknown hread (by rwa [code_eq_nil_iff])
  refine ⟨_, ?_, fun t ht => streamBit_packed _ _ _ ht, fun a ha => read_packed _ _ _ _ _ ha⟩
  rw [execEncode_of_error h hend]
  rfl

/-- The code of byte `i` completes a byte for which the buffer has no room (43_bitstream_codec.md R106). -/
theorem packEnd_of_full {s : State} (h : s.bufferError = none) {i : Nat} (hi : i < s.regs.len)
    (hcoded : ∀ b ∈ s.ram.data.bytes s.regs.src (i + 1), s.ram.codeLen.entry b ≠ 0)
    (hlt : (s.ram.stream (s.ram.data.bytes s.regs.src i)).length < 8 * (s.regs.cap + 1))
    (hle : 8 * (s.regs.cap + 1) ≤ (s.ram.stream (s.ram.data.bytes s.regs.src (i + 1))).length) :
    s.packEnd =
      ⟨Packer.full s.ram.data s.regs.dst (s.ram.stream s.input) s.regs.cap, i, some .outOverflow⟩ := by
  rw [bytes_succ] at hcoded
  have hread := read_input_after h (s.ram.stream s.input)
    (t := (s.ram.stream (s.ram.data.bytes s.regs.src i)).length) (by omega) hi
  have hcode : s.ram.code (s.ram.data.read (s.regs.src + i)) ≠ [] := by
    rw [ne_eq, code_eq_nil_iff]
    exact hcoded _ (by simp)
  have hbits : s.ram.stream (s.ram.data.bytes s.regs.src (i + 1)) <+: s.ram.stream s.input :=
    stream_bytes_prefix s.ram s.ram.data s.regs.src hi
  rw [stream_bytes_succ] at hle hbits
  rw [List.length_append] at hle
  rw [packEnd_eq h hi.le (fun b hb => hcoded b (by simp [hb])) ((List.prefix_append _ _).trans hbits) (by omega),
    show s.regs.len - i = s.regs.len - (i + 1) + 1 by omega,
    packBytes_of_error hread hcode (pushBits_full _ (prefix_drop_of_append_prefix hbits) hlt hle)]

/-- Settles O42: a byte completed at index CAP inside a code, and one completed there by the padding step. -/
theorem encodeOutOverflow : Obligations.EncodeOutOverflow := by
  intro s h
  constructor
  · intro i hi hcoded hlt hle
    refine ⟨_, ?_, fun t ht => streamBit_packed _ _ _ ht, fun a ha => read_packed _ _ _ _ _ ha⟩
    rw [execEncode_of_error h (packEnd_of_full h hi hcoded hlt hle)]
    simp [State.raise, State.withRes, Packer.full, ErrorKind.code, ofNat_cap]
  · intro hcoded hlt hle
    have hdiv : (s.ram.stream s.input).length / 8 = s.regs.cap := by omega
    have hmod : (s.ram.stream s.input).length % 8 ≠ 0 := by omega
    have hend := packEnd_eq h le_rfl hcoded (List.prefix_refl _) hdiv.le
    rw [Nat.sub_self, packBytes] at hend
    refine ⟨s.ram.data.packed s.regs.dst (s.ram.stream s.input) s.regs.cap, ?_, fun t ht => streamBit_packed _ _ _ ht,
      fun a ha => read_packed _ _ _ _ _ ha⟩
    rw [execEncode_of_error h (hend.trans (pad_full hdiv hmod _))]
    simp only [Packer.after, hdiv]
    simp [State.raise, State.withRes, ErrorKind.code, ofNat_cap, ofNat_len]

/-! ### The length of the stream (43_bitstream_codec.md R114) -/

theorem length_stream (r : Rams) (input : List Byte) :
    (r.stream input).length = (input.map fun b => (r.codeLen.entry b).toNat).sum := by
  simp [Rams.stream, List.length_flatMap, length_code]

/-- The sum over a list of symbols, symbol by symbol of the alphabet. -/
theorem sum_count_mul (f : Byte → Nat) (input : List Byte) :
    (allSymbols.map fun c => input.count c * f c).sum = (input.map f).sum := by
  rw [Finset.sum_list_map_count input, ← List.sum_toFinset _ nodup_allSymbols]
  refine (Finset.sum_subset (fun c _ => by simp) fun c _ hc => ?_).symm
  rw [List.count_eq_zero_of_not_mem (by simpa using hc), Nat.zero_mul]

/-- Settles O48: RES1 is the length of the stream, and FREQ holds the counts. -/
theorem encodedBitsAreFrequencyTimesLength : Obligations.EncodedBitsAreFrequencyTimesLength := by
  intro s t h hcoded hfit hcount ht
  rw [execEncode_of_fits h hcoded hfit, Host.Outcome.next.injEq] at ht
  subst ht
  simp only [hcount, sum_count_mul, ← length_stream]
  rfl

end Sys2Proof.Machine
end

section
/-! SUPPORT. DECODE (43_bitstream_codec.md R109 to R112): a path of the tree walked by the loop writes the symbol of its leaf,
whether the tree has one leaf or more, and so a stream of paths writes the symbols of their leaves. -/

namespace Sys2Proof.Machine

/-! ### Symbols stored in DATA -/

theorem fill_congr (m : Memory) (a : Nat) {f g : Nat → Byte} : ∀ {n : Nat}, (∀ k < n, f k = g k) →
    m.fill a f n = m.fill a g n
  | 0, _ => rfl
  | n + 1, h => by
    rw [Memory.fill, Memory.fill, fill_congr m a fun k hk => h k (by omega), h n (by omega)]

/-- DATA with a list of bytes stored from offset `a`. -/
def Memory.withBytes (m : Memory) (a : Nat) (l : List Byte) : Memory := m.fill a (fun k => l.getD k 0) l.length

theorem withBytes_nil (m : Memory) (a : Nat) : m.withBytes a [] = m := rfl

theorem withBytes_append_singleton (m : Memory) (a : Nat) (l : List Byte) (b : Byte) :
    m.withBytes a (l ++ [b]) = (m.withBytes a l).write (a + l.length) b := by
  have hold : ∀ k < l.length, (l ++ [b]).getD k 0 = l.getD k 0 := fun k hk => List.getD_append _ _ _ _ hk
  rw [Memory.withBytes, List.length_append, List.length_singleton, Memory.fill, fill_congr m a hold]
  simp [Memory.withBytes, List.getD_eq_getElem?_getD]

theorem bytes_withBytes (m : Memory) (a : Nat) (l : List Byte) : (m.withBytes a l).bytes a l.length = l := by
  refine List.ext_getElem (length_bytes _ _ _) fun i _ hi => ?_
  rw [getElem_bytes, Memory.withBytes, read_fill, if_pos (by omega), Nat.add_sub_cancel_left, List.getD_eq_getElem _ _ hi]

theorem read_withBytes (m : Memory) (a : Nat) (l : List Byte) (b : Nat) (h : b < a ∨ a + l.length ≤ b) :
    (m.withBytes a l).read b = m.read b := by
  rw [Memory.withBytes, read_fill, if_neg (by omega)]

/-- What DECODE has written does not change its input. -/
theorem streamBit_withBytes {s : State} (h : s.bufferError = none) {l : List Byte} (hl : l.length ≤ s.regs.cap) {t : Nat}
    (ht : t < 8 * s.regs.len) :
    (s.ram.data.withBytes s.regs.dst l).streamBit s.regs.src t = s.ram.data.streamBit s.regs.src t := by
  rw [Memory.streamBit, Memory.streamBit, read_withBytes]
  by_contra hin
  exact src_ne_dst_of_bufferError h (i := t / 8) (k := s.regs.src + t / 8 - s.regs.dst) (by omega) (by omega) (by omega)

/-! ### Bits of the input -/

/-- The input bits from position `t` on begin with `bits`. -/
def Memory.hasBits (m : Memory) (src t : Nat) (bits : List Bool) : Prop :=
  ∀ k < bits.length, m.streamBit src (t + k) = bits.getD k false

theorem hasBits_zero_iff {m : Memory} {src : Nat} {bits : List Bool} :
    m.hasBits src 0 bits ↔ ∀ t < bits.length, m.streamBit src t = bits.getD t false := by
  simp only [Memory.hasBits, Nat.zero_add]

theorem hasBits_append {m : Memory} {src t : Nat} {p q : List Bool} :
    m.hasBits src t (p ++ q) ↔ m.hasBits src t p ∧ m.hasBits src (t + p.length) q := by
  refine ⟨fun h => ⟨fun k hk => ?_, fun k hk => ?_⟩, fun ⟨hp, hq⟩ k hk => ?_⟩
  · rw [h k (by rw [List.length_append]; omega), List.getD_append _ _ _ _ hk]
  · rw [Nat.add_assoc, h _ (by rw [List.length_append]; omega), List.getD_append_right _ _ _ _ (by omega),
      Nat.add_sub_cancel_left]
  · rw [List.length_append] at hk
    by_cases hlt : k < p.length
    · rw [hp k hlt, List.getD_append _ _ _ _ hlt]
    · rw [List.getD_append_right _ _ _ _ (by omega), ← hq _ (by omega), Nat.add_assoc, Nat.add_sub_cancel' (by omega)]

theorem hasBits_cons {m : Memory} {src t : Nat} {b : Bool} {q : List Bool} :
    m.hasBits src t (b :: q) ↔ m.streamBit src t = b ∧ m.hasBits src (t + 1) q := by
  rw [← List.singleton_append, hasBits_append]
  simp [Memory.hasBits]

/-! ### One bit of the loop (43_bitstream_codec.md R109) -/

/-- The child a bit leads to. -/
def NodeEntry.child (e : NodeEntry) (b : Bool) : NodeIdx := if b then e.right else e.left

section
variable {node : Nodes} {r : Regs} {todo : Nat} {d : Memory} {i : NodeIdx} {n t : Nat}

theorem walkBits_of_done (h : r.treeTotal.toNat ≤ n) :
    walkBits node r todo ⟨d, i, n, t⟩ = (⟨d, i, n, t⟩, none) := by
  cases todo <;> simp [walkBits, h]

theorem walkBits_of_no_bits (h : n < r.treeTotal.toNat) :
    walkBits node r 0 ⟨d, i, n, t⟩ = (⟨d, i, n, t⟩, some .truncated) := by
  simp [walkBits, h]

theorem walkBits_of_lone_zero (h : n < r.treeTotal.toNat) (h1 : r.treeNleaf = 1) (hbit : d.streamBit r.src t = false) :
    walkBits node r (todo + 1) ⟨d, i, n, t⟩ =
      walkBits node r todo ⟨d.write (r.dst + n) (node.entry r.treeRoot).symbol, i, n + 1, t + 1⟩ := by
  simp only [walkBits, if_pos h, if_pos h1, hbit]
  rfl

theorem walkBits_of_lone_one (h : n < r.treeTotal.toNat) (h1 : r.treeNleaf = 1) (hbit : d.streamBit r.src t = true) :
    walkBits node r (todo + 1) ⟨d, i, n, t⟩ = (⟨d, i, n, t + 1⟩, some .invalidCode) := by
  simp only [walkBits, if_pos h, if_pos h1, hbit]
  rfl

theorem walkBits_of_leaf (h : n < r.treeTotal.toNat) (h1 : r.treeNleaf ≠ 1) {c : NodeIdx}
    (hc : (node.entry i).child (d.streamBit r.src t) = c) (hleaf : (node.entry c).isLeaf = true) :
    walkBits node r (todo + 1) ⟨d, i, n, t⟩ =
      walkBits node r todo ⟨d.write (r.dst + n) (node.entry c).symbol, r.treeRoot, n + 1, t + 1⟩ := by
  rw [NodeEntry.child] at hc
  simp only [walkBits, if_pos h, if_neg h1, hc, hleaf]
  rfl

theorem walkBits_of_internal (h : n < r.treeTotal.toNat) (h1 : r.treeNleaf ≠ 1) {c : NodeIdx}
    (hc : (node.entry i).child (d.streamBit r.src t) = c) (hleaf : (node.entry c).isLeaf = false) :
    walkBits node r (todo + 1) ⟨d, i, n, t⟩ = walkBits node r todo ⟨d, c, n, t + 1⟩ := by
  rw [NodeEntry.child] at hc
  simp only [walkBits, if_pos h, if_neg h1, hc, hleaf]
  rfl

end

/-! ### A path of the tree -/

theorem follow_cons {node : Nodes} {i j : NodeIdx} {b : Bool} {p : List Bool} (h : node.follow i (b :: p) = some j) :
    (node.entry i).isLeaf = false ∧ node.follow ((node.entry i).child b) p = some j := by
  rw [Nodes.follow] at h
  split at h
  · cases h
  · next hleaf => exact ⟨by simpa using hleaf, h⟩

/-- A path from a leaf ends where it begins. -/
theorem follow_of_leaf {node : Nodes} {i j : NodeIdx} {p : List Bool} (h : node.follow i p = some j)
    (hi : (node.entry i).isLeaf = true) : p = [] ∧ i = j := by
  cases p with
  | nil => exact ⟨rfl, Option.some.inj h⟩
  | cons b p => exact absurd hi (by simp [(follow_cons h).1])

section
variable {node : Nodes} {r : Regs} {todo : Nat} {d : Memory} {n : Nat} {j : NodeIdx}

/-- A path to an internal node moves the cursor there. -/
theorem walkBits_of_path_to_internal (hn : n < r.treeTotal.toNat) (h1 : r.treeNleaf ≠ 1)
    (hj : (node.entry j).isLeaf = false) (p : List Bool) : ∀ {i : NodeIdx} {t : Nat}, node.follow i p = some j →
    d.hasBits r.src t p →
    walkBits node r (p.length + todo) ⟨d, i, n, t⟩ = walkBits node r todo ⟨d, j, n, t + p.length⟩ := by
  induction p with
  | nil =>
    intro i t hp _
    obtain rfl : i = j := Option.some.inj hp
    simp
  | cons b p ih =>
    intro i t hp hbits
    obtain ⟨-, hrest⟩ := follow_cons hp
    obtain ⟨hbit, hbits⟩ := hasBits_cons.1 hbits
    have hchild : (node.entry ((node.entry i).child b)).isLeaf = false := by
      by_contra hleaf
      obtain ⟨-, rfl⟩ := follow_of_leaf hrest (by simpa using hleaf)
      exact hleaf hj
    rw [List.length_cons, Nat.add_right_comm, walkBits_of_internal hn h1 (by rw [hbit]) hchild, ih hrest hbits,
      Nat.add_right_comm t 1]
    rfl

/-- A path to a leaf writes its symbol and moves the cursor back to the root. -/
theorem walkBits_of_path_to_leaf (hn : n < r.treeTotal.toNat) (h1 : r.treeNleaf ≠ 1)
    (hj : (node.entry j).isLeaf = true) (p : List Bool) : ∀ {i : NodeIdx} {t : Nat}, p ≠ [] → node.follow i p = some j →
    d.hasBits r.src t p →
    walkBits node r (p.length + todo) ⟨d, i, n, t⟩ =
      walkBits node r todo ⟨d.write (r.dst + n) (node.entry j).symbol, r.treeRoot, n + 1, t + p.length⟩ := by
  induction p with
  | nil => intro i t hne; exact absurd rfl hne
  | cons b p ih =>
    intro i t _ hp hbits
    obtain ⟨-, hrest⟩ := follow_cons hp
    obtain ⟨hbit, hbits⟩ := hasBits_cons.1 hbits
    rw [List.length_cons, Nat.add_right_comm]
    by_cases hchild : (node.entry ((node.entry i).child b)).isLeaf = true
    · obtain ⟨rfl, rfl⟩ := follow_of_leaf hrest hchild
      rw [walkBits_of_leaf hn h1 (by rw [hbit]) hchild]
      simp
    · have hne : p ≠ [] := by
        rintro rfl
        obtain rfl : _ = j := Option.some.inj hrest
        exact hchild hj
      rw [walkBits_of_internal hn h1 (by rw [hbit]) (by simpa using hchild), ih hne hrest hbits, Nat.add_right_comm t 1]
      rfl

end

/-- The bits `p` are those after which DECODE writes symbol `b`: for a lone leaf one 0 bit (43_bitstream_codec.md R112), else
the path to the leaf of `b`. -/
def Nodes.Leads (node : Nodes) (nleaf : BitVec 9) (root : NodeIdx) (p : List Bool) (b : Byte) : Prop :=
  (nleaf = 1 ∧ p = [false] ∧ (node.entry root).symbol = b) ∨
  (nleaf ≠ 1 ∧ p ≠ [] ∧ ∃ j, node.follow root p = some j ∧ (node.entry j).isLeaf = true ∧ (node.entry j).symbol = b)

theorem walkBits_of_leads {node : Nodes} {r : Regs} {todo n t : Nat} {d : Memory} {p : List Bool} {b : Byte}
    (hp : node.Leads r.treeNleaf r.treeRoot p b) (hn : n < r.treeTotal.toNat) (hbits : d.hasBits r.src t p) :
    walkBits node r (p.length + todo) ⟨d, r.treeRoot, n, t⟩ =
      walkBits node r todo ⟨d.write (r.dst + n) b, r.treeRoot, n + 1, t + p.length⟩ := by
  rcases hp with ⟨h1, rfl, rfl⟩ | ⟨h1, hne, j, hj, hleaf, rfl⟩
  · obtain ⟨hbit, -⟩ := hasBits_cons.1 hbits
    rw [List.length_singleton, Nat.add_comm, walkBits_of_lone_zero hn h1 hbit]
  · exact walkBits_of_path_to_leaf hn h1 hleaf p hne hj hbits

/-- Fewer bits than lead to a symbol write nothing. -/
theorem walkBits_of_leads_prefix {node : Nodes} {r : Regs} {n t : Nat} {d : Memory} {p q : List Bool} {b : Byte}
    (hp : node.Leads r.treeNleaf r.treeRoot p b) (hn : n < r.treeTotal.toNat) (hq : q <+: p) (hne : q ≠ p)
    (hbits : d.hasBits r.src t q) :
    ∃ j, walkBits node r q.length ⟨d, r.treeRoot, n, t⟩ = (⟨d, j, n, t + q.length⟩, some .truncated) := by
  rcases hp with ⟨-, rfl, -⟩ | ⟨h1, -, j, hj, -, -⟩
  · obtain rfl : q = [] := by
      cases q with
      | nil => rfl
      | cons c q =>
        obtain ⟨rfl, hrest⟩ := List.cons_prefix_cons.1 hq
        exact absurd (congrArg (false :: ·) (List.prefix_nil.1 hrest)) hne
    exact ⟨_, walkBits_of_no_bits hn⟩
  · obtain ⟨rest, rfl⟩ := hq
    rw [CodeTree.follow_append] at hj
    obtain ⟨i, hi, hrest⟩ := Option.bind_eq_some_iff.1 hj
    have hleaf : (node.entry i).isLeaf = false := by
      by_contra hleaf
      obtain ⟨rfl, -⟩ := follow_of_leaf hrest (by simpa using hleaf)
      exact hne (List.append_nil q).symm
    refine ⟨i, ?_⟩
    rw [← Nat.add_zero q.length, walkBits_of_path_to_internal hn h1 hleaf q hi hbits, walkBits_of_no_bits hn]
    rfl

/-! ### A stream of paths -/

section
variable {s : State} (h : s.bufferError = none) (hcap : s.regs.treeTotal.toNat ≤ s.regs.cap) {path : Byte → List Bool}
include h hcap

/-- Bits that the input holds are still there once at most TREE_TOTAL symbols are written. -/
theorem hasBits_withBytes {l : List Byte} (hl : l.length ≤ s.regs.treeTotal.toNat) {t : Nat} {q : List Bool}
    (ht : t + q.length ≤ 8 * s.regs.len) (hq : s.ram.data.hasBits s.regs.src t q) :
    (s.ram.data.withBytes s.regs.dst l).hasBits s.regs.src t q := fun k hk => by
  rw [streamBit_withBytes h (hl.trans hcap) (by omega)]
  exact hq k hk

/-- Where the loop is after the paths of some symbols, which it has written. -/
theorem walkEnd_eq (symbols : List Byte) : ∀ {todo : Nat}, symbols.length ≤ s.regs.treeTotal.toNat →
    (∀ b ∈ symbols, s.ram.node.Leads s.regs.treeNleaf s.regs.treeRoot (path b) b) →
    (symbols.flatMap path).length + todo = 8 * s.regs.len → s.ram.data.hasBits s.regs.src 0 (symbols.flatMap path) →
    s.walkEnd = walkBits s.ram.node s.regs todo
      ⟨s.ram.data.withBytes s.regs.dst symbols, s.regs.treeRoot, symbols.length, (symbols.flatMap path).length⟩ := by
  induction symbols using List.reverseRecOn with
  | nil =>
    intro todo _ _ htodo _
    rw [State.walkEnd, ← htodo]
    simp [withBytes_nil]
  | append_singleton symbols b ih =>
    intro todo hle hlead htodo hbits
    simp only [List.flatMap_append, List.flatMap_singleton, List.length_append, List.length_singleton] at hle htodo hbits ⊢
    obtain ⟨hold, hnew⟩ := hasBits_append.1 hbits
    rw [Nat.zero_add] at hnew
    rw [ih (by omega) (fun c hc => hlead c (by simp [hc])) (by rw [← htodo, Nat.add_assoc]) hold,
      walkBits_of_leads (hlead b (by simp)) (by omega) (hasBits_withBytes h hcap (by omega) (by omega) hnew),
      withBytes_append_singleton]

/-- DECODE of the paths of TREE_TOTAL symbols (43_bitstream_codec.md R109, R111). -/
theorem execDecode_of_paths {symbols : List Byte} (hcount : symbols.length = s.regs.treeTotal.toNat)
    (hlead : ∀ b ∈ symbols, s.ram.node.Leads s.regs.treeNleaf s.regs.treeRoot (path b) b)
    (hfit : (symbols.flatMap path).length ≤ 8 * s.regs.len)
    (hbits : s.ram.data.hasBits s.regs.src 0 (symbols.flatMap path)) :
    exec .decode s = .next
      ({ s with ram.data := s.ram.data.withBytes s.regs.dst symbols }.withRes01
        symbols.length (symbols.flatMap path).length).finish := by
  have hend := walkEnd_eq h hcap symbols hcount.le hlead (Nat.add_sub_cancel' hfit) hbits
  rw [walkBits_of_done hcount.ge] at hend
  exact execDecode_of_success h hcap hend

/-- DECODE of the paths of fewer symbols and then bits at which the loop stops with an error. -/
theorem execDecode_of_paths_error {symbols : List Byte} {todo nbits : Nat} {cur : NodeIdx} {e : ErrorKind}
    (hcount : symbols.length < s.regs.treeTotal.toNat)
    (hlead : ∀ b ∈ symbols, s.ram.node.Leads s.regs.treeNleaf s.regs.treeRoot (path b) b)
    (htodo : (symbols.flatMap path).length + todo = 8 * s.regs.len)
    (hbits : s.ram.data.hasBits s.regs.src 0 (symbols.flatMap path))
    (hend : walkBits s.ram.node s.regs todo ⟨s.ram.data.withBytes s.regs.dst symbols, s.regs.treeRoot, symbols.length,
        (symbols.flatMap path).length⟩ =
      (⟨s.ram.data.withBytes s.regs.dst symbols, cur, symbols.length, nbits⟩, some e)) :
    exec .decode s = .next
      (({ s with ram.data := s.ram.data.withBytes s.regs.dst symbols }.withRes01 symbols.length nbits).raise e) :=
  execDecode_of_error h hcap ((walkEnd_eq h hcap symbols hcount.le hlead htodo hbits).trans hend)

/-- DECODE of the paths of fewer than TREE_TOTAL symbols and then a proper initial part of a path
(43_bitstream_codec.md R109). -/
theorem execDecode_of_truncated {symbols : List Byte} {q : List Bool} {c : Byte}
    (hcount : symbols.length < s.regs.treeTotal.toNat)
    (hlead : ∀ b ∈ symbols, s.ram.node.Leads s.regs.treeNleaf s.regs.treeRoot (path b) b)
    (hc : s.ram.node.Leads s.regs.treeNleaf s.regs.treeRoot (path c) c) (hq : q <+: path c) (hne : q ≠ path c)
    (hlen : (symbols.flatMap path ++ q).length = 8 * s.regs.len)
    (hbits : s.ram.data.hasBits s.regs.src 0 (symbols.flatMap path ++ q)) :
    exec .decode s = .next
      (({ s with ram.data := s.ram.data.withBytes s.regs.dst symbols }.withRes01
        symbols.length (8 * s.regs.len)).raise .truncated) := by
  rw [List.length_append] at hlen
  obtain ⟨hold, hnew⟩ := hasBits_append.1 hbits
  rw [Nat.zero_add] at hnew
  obtain ⟨j, hend⟩ := walkBits_of_leads_prefix hc hcount hq hne (hasBits_withBytes h hcap hcount.le hlen.le hnew)
  rw [hlen] at hend
  exact execDecode_of_paths_error h hcap hcount hlead hlen hold hend

end

/-! ### The paths are the codes -/

theorem nleaf_eq_one_iff (r : Regs) : r.treeNleaf = 1 ↔ r.treeNleaf.toNat = 1 := BitVec.toNat_eq (y := 1#9)

/-- With the tree invariant the code of a symbol leads to it (10_state.md R38 items 4 and 5). -/
theorem leads_of_treeOk {s : State} (h : s.treeOk) {b : Byte} (hb : s.ram.codeLen.entry b ≠ 0) :
    s.ram.node.Leads s.regs.treeNleaf s.regs.treeRoot (s.ram.code b) b := by
  obtain ⟨hpos, -, ⟨-, hroot, -⟩, ⟨hleaf, -⟩, hcoded, hlone, hfollow, -⟩ := h
  have hrootNo : s.regs.treeRoot = BitVec.ofNat 9 (2 * s.regs.treeNleaf.toNat - 2) := by
    rw [← hroot, BitVec.ofNat_toNat, BitVec.setWidth_eq]
  obtain ⟨i, hi, rfl⟩ := (hcoded b (mem_allSymbols b)).1.1 hb
  by_cases h1 : s.regs.treeNleaf.toNat = 1
  · obtain rfl : i = 0 := by omega
    rw [h1] at hrootNo
    exact .inl ⟨(nleaf_eq_one_iff _).2 h1, hlone h1, by rw [hrootNo]; rfl⟩
  · refine .inr ⟨fun e => h1 ((nleaf_eq_one_iff _).1 e), ?_, _, hrootNo ▸ hfollow (by omega) i hi, (hleaf i hi).1, rfl⟩
    rwa [ne_eq, code_eq_nil_iff]

/-! ### The statements -/

theorem ofNat_treeTotal (r : Regs) : BitVec.ofNat 32 r.treeTotal.toNat = r.treeTotal := by simp

/-- Settles O43: the codes are paths of the tree. -/
theorem decodeWritesTheSymbolsOfACodeStream : Obligations.DecodeWritesTheSymbolsOfACodeStream := by
  intro s symbols htree h hcap hcount hcoded hfit hbits
  refine ⟨s.ram.data.withBytes s.regs.dst symbols, ?_, hcount ▸ bytes_withBytes _ _ _, hcount ▸ read_withBytes _ _ _⟩
  rw [execDecode_of_paths h hcap hcount (fun b hb => leads_of_treeOk htree (hcoded b hb)) hfit (hasBits_zero_iff.2 hbits),
    hcount]
  simp [State.finish, State.withRes01, Rams.stream]

/-! ### The lone symbol (43_bitstream_codec.md R112) -/

/-- `k` times the symbol of the leaf TREE_ROOT. -/
def State.loneSymbols (s : State) (k : Nat) : List Byte := List.replicate k (s.ram.node.entry s.regs.treeRoot).symbol

theorem length_loneSymbols (s : State) (k : Nat) : (s.loneSymbols k).length = k := List.length_replicate

theorem leads_of_loneSymbols {s : State} (h1 : s.regs.treeNleaf = 1) (k : Nat) :
    ∀ b ∈ s.loneSymbols k, s.ram.node.Leads s.regs.treeNleaf s.regs.treeRoot [false] b :=
  fun _ hb => .inl ⟨h1, rfl, (List.eq_of_mem_replicate hb).symm⟩

/-- The paths of the lone symbols are zero bits. -/
theorem flatMap_loneSymbols (s : State) (k : Nat) :
    (s.loneSymbols k).flatMap (fun _ => [false]) = List.replicate k false := by
  simp [State.loneSymbols, List.flatMap]

theorem length_flatMap_loneSymbols (s : State) (k : Nat) :
    ((s.loneSymbols k).flatMap fun _ => [false]).length = k := by
  rw [flatMap_loneSymbols, List.length_replicate]

theorem hasBits_loneSymbols {s : State} {m : Memory} {src k : Nat} (h : ∀ t < k, m.streamBit src t = false) :
    m.hasBits src 0 ((s.loneSymbols k).flatMap fun _ => [false]) := by
  rw [flatMap_loneSymbols, hasBits_zero_iff, List.length_replicate]
  exact fun t ht => by simp [h t ht, ht]

theorem loneSymbols_written (s : State) (k : Nat) :
    (s.ram.data.withBytes s.regs.dst (s.loneSymbols k)).bytes s.regs.dst k = s.loneSymbols k ∧
      ∀ a, a < s.regs.dst ∨ s.regs.dst + k ≤ a →
        (s.ram.data.withBytes s.regs.dst (s.loneSymbols k)).read a = s.ram.data.read a := by
  have hbytes := bytes_withBytes s.ram.data s.regs.dst (s.loneSymbols k)
  have hframe := read_withBytes s.ram.data s.regs.dst (s.loneSymbols k)
  rw [length_loneSymbols] at hbytes hframe
  exact ⟨hbytes, hframe⟩

/-- Settles O46: zero bits are the paths of the lone symbol. -/
theorem singletonDecode : Obligations.SingletonDecode := by
  intro s h h1 hcap
  refine ⟨fun hfit hz => ⟨_, ?_, loneSymbols_written s _⟩, fun k hk hin hz hone => ⟨_, ?_, loneSymbols_written s _⟩,
    fun hshort hz => ⟨_, ?_, loneSymbols_written s _⟩⟩
  · rw [execDecode_of_paths h hcap (length_loneSymbols s _) (leads_of_loneSymbols h1 _)
      ((length_flatMap_loneSymbols s _).trans_le hfit) (hasBits_loneSymbols hz), length_flatMap_loneSymbols,
      length_loneSymbols]
    simp [State.finish, State.withRes01]
  · obtain ⟨todo, htodo⟩ := Nat.exists_eq_add_of_lt hin
    have hbit := streamBit_withBytes h (l := s.loneSymbols k) (by rw [length_loneSymbols]; omega) hin
    rw [execDecode_of_paths_error h hcap (by rwa [length_loneSymbols]) (leads_of_loneSymbols h1 k)
      (by rw [length_flatMap_loneSymbols, htodo, Nat.add_assoc]) (hasBits_loneSymbols hz)
      (by rw [length_flatMap_loneSymbols, length_loneSymbols, walkBits_of_lone_one hk h1 (hbit.trans hone)]), length_loneSymbols]
    rfl
  · rw [execDecode_of_paths_error h hcap (by rwa [length_loneSymbols]) (leads_of_loneSymbols h1 _) (todo := 0)
      (length_flatMap_loneSymbols s _) (hasBits_loneSymbols hz)
      (by rw [length_flatMap_loneSymbols, length_loneSymbols, walkBits_of_no_bits hshort]), length_loneSymbols]
    rfl

end Sys2Proof.Machine
end

section
/-! SUPPORT. With two leaves or more every bit stream is a stream of codes followed by a proper initial part of a code
(43_bitstream_codec.md R110): each bit leads from an internal node to a node of the tree, and one path only leads to a node. -/

namespace Sys2Proof.Machine

/-! ### Paths of the tree (10_state.md R38) -/

theorem entry_eq_nodeNo (r : Rams) (i : NodeIdx) : r.node.entry i = r.nodeNo i.toNat := by
  rw [Rams.nodeNo, BitVec.ofNat_toNat, BitVec.setWidth_eq]

/-- Two members that a list counts together as one are the same. -/
theorem eq_of_countP_eq_one {l : List Nat} {p : Nat → Bool} (h : l.countP p = 1) {a b : Nat} (ha : a ∈ l) (hb : b ∈ l)
    (hpa : p a = true) (hpb : p b = true) : a = b := by
  rw [List.countP_eq_length_filter, List.length_eq_one_iff] at h
  obtain ⟨x, hx⟩ := h
  have hmem {c : Nat} (hc : c ∈ l) (hpc : p c = true) : c = x :=
    List.mem_singleton.1 (hx ▸ List.mem_filter.2 ⟨hc, hpc⟩)
  rw [hmem ha hpa, hmem hb hpb]

section
variable {r : Rams} {n : Nat} (h : r.treeShape n)
include h

theorem isLeaf_iff {i : NodeIdx} (hi : i.toNat < 2 * n - 1) : (r.node.entry i).isLeaf = true ↔ i.toNat < n := by
  obtain ⟨hleaf, -, hinternal, -⟩ := h
  rw [entry_eq_nodeNo]
  refine ⟨fun hl => ?_, fun hlt => (hleaf _ hlt).1⟩
  by_contra hge
  exact absurd hl (by simp [(hinternal _ hi (by omega)).1])

theorem child_lt {i : NodeIdx} (hi : i.toNat < 2 * n - 1) (hn : n ≤ i.toNat) (b : Bool) :
    ((r.node.entry i).child b).toNat < i.toNat := by
  obtain ⟨-, -, hinternal, -⟩ := h
  obtain ⟨-, -, -, hleft, hright, -⟩ := hinternal _ hi hn
  rw [entry_eq_nodeNo]
  cases b
  · exact hleft
  · exact hright

/-- A node has one parent, and is one of its children. -/
theorem parent_unique {i j : NodeIdx} {b c : Bool} (hi : i.toNat < 2 * n - 1) (hin : n ≤ i.toNat)
    (hj : j.toNat < 2 * n - 1) (hjn : n ≤ j.toNat) (e : (r.node.entry i).child b = (r.node.entry j).child c) :
    i = j ∧ b = c := by
  have hlt := child_lt h hi hin b
  obtain ⟨-, -, hinternal, hcount⟩ := h
  have hparent {k : NodeIdx} {x : Bool} (hk : n ≤ k.toNat)
      (hx : (r.node.entry k).child x = (r.node.entry i).child b) :
      (decide (n ≤ k.toNat) && ((r.nodeNo k.toNat).left.toNat == ((r.node.entry i).child b).toNat ||
        (r.nodeNo k.toNat).right.toNat == ((r.node.entry i).child b).toNat)) = true := by
    rw [← hx, entry_eq_nodeNo]
    cases x <;> simp [NodeEntry.child, hk]
  obtain rfl : i = j := BitVec.eq_of_toNat_eq (eq_of_countP_eq_one (hcount _ (by omega))
    (List.mem_range.2 hi) (List.mem_range.2 hj) (hparent hin rfl) (hparent hjn e.symm))
  obtain ⟨-, -, hne, -⟩ := hinternal _ hi hin
  rw [entry_eq_nodeNo] at e
  refine ⟨rfl, ?_⟩
  cases b <;> cases c
  · rfl
  · exact absurd e hne
  · exact absurd e.symm hne
  · rfl

/-- A path leads down, to a node of the tree. -/
theorem follow_lt {j : NodeIdx} (p : List Bool) : ∀ {i : NodeIdx}, i.toNat < 2 * n - 1 → r.node.follow i p = some j →
    (p = [] ∧ i = j) ∨ j.toNat < i.toNat := by
  induction p with
  | nil => exact fun _ hp => .inl ⟨rfl, Option.some.inj hp⟩
  | cons b p ih =>
    intro i hi hp
    obtain ⟨hleaf, hrest⟩ := follow_cons hp
    have hin : n ≤ i.toNat := by
      by_contra hlt
      rw [(isLeaf_iff h hi).2 (by omega)] at hleaf
      cases hleaf
    have hchild := child_lt h hi hin b
    obtain ⟨-, rfl⟩ | hlt := ih (by omega) hrest
    · exact .inr hchild
    · exact .inr (hlt.trans hchild)

/-- The last step of a path from a node of the tree. -/
theorem follow_append_singleton {i j : NodeIdx} {p : List Bool} {b : Bool} (hi : i.toNat < 2 * n - 1)
    (hp : r.node.follow i (p ++ [b]) = some j) :
    ∃ k : NodeIdx, r.node.follow i p = some k ∧ k.toNat < 2 * n - 1 ∧ n ≤ k.toNat ∧ (r.node.entry k).child b = j := by
  rw [CodeTree.follow_append] at hp
  obtain ⟨k, hk, hlast⟩ := Option.bind_eq_some_iff.1 hp
  obtain ⟨hleaf, hchild⟩ := follow_cons hlast
  have hkn : k.toNat < 2 * n - 1 := by
    obtain ⟨-, rfl⟩ | hlt := follow_lt h p hi hk
    · exact hi
    · omega
  refine ⟨k, hk, hkn, ?_, Option.some.inj hchild⟩
  by_contra hlt
  rw [(isLeaf_iff h hkn).2 (by omega)] at hleaf
  cases hleaf

/-- One path leads from the root to a node. -/
theorem path_unique {root : NodeIdx} (hroot : root.toNat < 2 * n - 1) (p : List Bool) : ∀ {q : List Bool} {j : NodeIdx},
    r.node.follow root p = some j → r.node.follow root q = some j → p = q := by
  have hloop {q : List Bool} (hq : r.node.follow root q = some root) : q = [] := by
    obtain ⟨rfl, -⟩ | hlt := follow_lt h q hroot hq
    · rfl
    · omega
  induction p using List.reverseRecOn with
  | nil =>
    intro q j hp hq
    obtain rfl : root = j := Option.some.inj hp
    exact (hloop hq).symm
  | append_singleton p b ih =>
    intro q j hp hq
    rcases List.eq_nil_or_concat' q with rfl | ⟨q, c, rfl⟩
    · obtain rfl : root = j := Option.some.inj hq
      exact hloop hp
    · obtain ⟨k, hk, hklt, hkn, rfl⟩ := follow_append_singleton h hroot hp
      obtain ⟨l, hl, hllt, hln, e⟩ := follow_append_singleton h hroot hq
      obtain ⟨rfl, rfl⟩ := parent_unique h hllt hln hklt hkn e
      rw [ih hk hl]

/-- Below each node of the tree there is a leaf. -/
theorem exists_path_to_leaf : ∀ (m : Nat) {i : NodeIdx}, i.toNat ≤ m → i.toNat < 2 * n - 1 →
    ∃ (p : List Bool) (k : NodeIdx), r.node.follow i p = some k ∧ k.toNat < n := by
  intro m
  induction m with
  | zero => exact fun {i} hm hi => ⟨[], i, rfl, by omega⟩
  | succ m ih =>
    intro i hm hi
    by_cases hin : i.toNat < n
    · exact ⟨[], i, rfl, hin⟩
    · have hleft := child_lt h hi (by omega) false
      obtain ⟨p, k, hp, hk⟩ := ih (i := (r.node.entry i).child false) (by omega) (by omega)
      refine ⟨false :: p, k, ?_, hk⟩
      have hleaf : (r.node.entry i).isLeaf ≠ true := by rwa [ne_eq, isLeaf_iff h hi]
      rw [Nodes.follow, if_neg hleaf]
      exact hp

/-- Bits lead from a node of the tree to a leaf, which an initial part of them reaches, or to an internal node. -/
theorem follow_bits (bits : List Bool) : ∀ {i : NodeIdx}, i.toNat < 2 * n - 1 →
    (∃ (p : List Bool) (k : NodeIdx), p <+: bits ∧ r.node.follow i p = some k ∧ k.toNat < n) ∨
    (∃ k : NodeIdx, r.node.follow i bits = some k ∧ k.toNat < 2 * n - 1 ∧ n ≤ k.toNat) := by
  induction bits with
  | nil =>
    intro i hi
    by_cases hin : i.toNat < n
    · exact .inl ⟨[], i, List.prefix_refl _, rfl, hin⟩
    · exact .inr ⟨i, rfl, hi, by omega⟩
  | cons b bits ih =>
    intro i hi
    by_cases hin : i.toNat < n
    · exact .inl ⟨[], i, List.nil_prefix, rfl, hin⟩
    · have hchild := child_lt h hi (by omega) b
      have hleaf : (r.node.entry i).isLeaf ≠ true := by rwa [ne_eq, isLeaf_iff h hi]
      have hstep (p : List Bool) : r.node.follow i (b :: p) = r.node.follow ((r.node.entry i).child b) p := by
        rw [Nodes.follow, if_neg hleaf]
        rfl
      obtain ⟨p, k, hp, hk⟩ | ⟨k, hk⟩ := ih (i := (r.node.entry i).child b) (by omega)
      · exact .inl ⟨b :: p, k, List.cons_prefix_cons.2 ⟨rfl, hp⟩, by rwa [hstep]⟩
      · exact .inr ⟨k, by rwa [hstep]⟩

end

/-! ### Streams of codes -/

section
variable {s : State} (h : s.treeOk) (h2 : 2 ≤ s.regs.treeNleaf.toNat)
include h h2

/-- A path from TREE_ROOT to a leaf is the code of its symbol. -/
theorem exists_code_of_path {p : List Bool} {k : NodeIdx} (hk : k.toNat < s.regs.treeNleaf.toNat)
    (hp : s.ram.node.follow s.regs.treeRoot p = some k) : ∃ c, s.ram.codeLen.entry c ≠ 0 ∧ s.ram.code c = p := by
  obtain ⟨-, -, ⟨-, hroot, -⟩, htree, hcoded, -, hfollow, -⟩ := h
  have hrootNo : s.regs.treeRoot = BitVec.ofNat 9 (2 * s.regs.treeNleaf.toNat - 2) := by
    rw [← hroot, BitVec.ofNat_toNat, BitVec.setWidth_eq]
  refine ⟨_, (hcoded _ (mem_allSymbols _)).1.2 ⟨k.toNat, hk, rfl⟩, path_unique htree (by omega) _ ?_ hp⟩
  rw [hrootNo, hfollow h2 _ hk, BitVec.ofNat_toNat, BitVec.setWidth_eq]

/-- Bits begin with a code or are a proper initial part of one (43_bitstream_codec.md R110). -/
theorem code_prefix_or_prefix_code (bits : List Bool) :
    (∃ c, s.ram.codeLen.entry c ≠ 0 ∧ s.ram.code c <+: bits) ∨
    (∃ c, s.ram.codeLen.entry c ≠ 0 ∧ bits <+: s.ram.code c ∧ bits ≠ s.ram.code c) := by
  obtain ⟨-, -, ⟨-, hroot, -⟩, htree, -⟩ := id h
  obtain ⟨p, k, hpre, hp, hk⟩ | ⟨k, hp, hklt, hkn⟩ := follow_bits htree bits (i := s.regs.treeRoot) (by omega)
  · obtain ⟨c, hc, rfl⟩ := exists_code_of_path h h2 hk hp
    exact .inl ⟨c, hc, hpre⟩
  · obtain ⟨q, l, hq, hl⟩ := exists_path_to_leaf htree _ le_rfl hklt
    obtain ⟨c, hc, hcode⟩ := exists_code_of_path h h2 hl (p := bits ++ q)
      (by rw [CodeTree.follow_append, hp, Option.bind_some, hq])
    refine .inr ⟨c, hc, ⟨q, hcode.symm⟩, fun e => ?_⟩
    obtain rfl : q = [] := by simpa [← e] using hcode
    obtain rfl : k = l := Option.some.inj hq
    omega

/-- Bits begin with the codes of `total` symbols, or are the codes of fewer symbols and then a proper initial part of a
code (43_bitstream_codec.md R110). -/
theorem exists_parse (total : Nat) : ∀ bits : List Bool, ∃ symbols : List Byte,
    (∀ b ∈ symbols, s.ram.codeLen.entry b ≠ 0) ∧
    ((symbols.length = total ∧ s.ram.stream symbols <+: bits) ∨
     (symbols.length < total ∧ ∃ (q : List Bool) (c : Byte), s.ram.codeLen.entry c ≠ 0 ∧ q <+: s.ram.code c ∧
        q ≠ s.ram.code c ∧ s.ram.stream symbols ++ q = bits)) := by
  induction total with
  | zero => exact fun bits => ⟨[], by simp, .inl ⟨rfl, List.nil_prefix⟩⟩
  | succ total ih =>
    intro bits
    obtain ⟨b, hb, rest, rfl⟩ | ⟨c, hc, hpre, hne⟩ := code_prefix_or_prefix_code h h2 bits
    · obtain ⟨symbols, hcoded, hend⟩ := ih rest
      have hstream : s.ram.stream (b :: symbols) = s.ram.code b ++ s.ram.stream symbols := List.flatMap_cons
      refine ⟨b :: symbols, List.forall_mem_cons.2 ⟨hb, hcoded⟩, ?_⟩
      rw [hstream, List.length_cons]
      obtain ⟨hcount, hall⟩ | ⟨hcount, q, c, hc, hpre, hne, rfl⟩ := hend
      · exact .inl ⟨by omega, (List.prefix_append_right_inj _).2 hall⟩
      · exact .inr ⟨by omega, q, c, hc, hpre, hne, List.append_assoc _ _ _⟩
    · exact ⟨[], by simp, .inr ⟨Nat.succ_pos _, bits, c, hc, hpre, hne, rfl⟩⟩

end

/-! ### TRUNCATED -/

/-- DECODE of the codes of fewer than TREE_TOTAL symbols and then a proper initial part of a code. -/
theorem execDecode_of_short_stream {s : State} (htree : s.treeOk) (h : s.bufferError = none)
    (hcap : s.regs.treeTotal.toNat ≤ s.regs.cap) {symbols : List Byte} {q : List Bool} {c : Byte}
    (hcount : symbols.length < s.regs.treeTotal.toNat) (hcoded : ∀ b ∈ symbols, s.ram.codeLen.entry b ≠ 0)
    (hc : s.ram.codeLen.entry c ≠ 0) (hpre : q <+: s.ram.code c) (hne : q ≠ s.ram.code c)
    (hlen : (s.ram.stream symbols ++ q).length = 8 * s.regs.len)
    (hbits : ∀ t < 8 * s.regs.len, s.ram.data.streamBit s.regs.src t = (s.ram.stream symbols ++ q).getD t false) :
    exec .decode s = .next
      (({ s with ram.data := s.ram.data.withBytes s.regs.dst symbols }.withRes01
        symbols.length (8 * s.regs.len)).raise .truncated) :=
  execDecode_of_truncated h hcap hcount (fun b hb => leads_of_treeOk htree (hcoded b hb)) (leads_of_treeOk htree hc)
    hpre hne hlen (hasBits_zero_iff.2 (hlen ▸ hbits))

/-- The bits of the input buffer. -/
def State.inputBits (s : State) : List Bool := (List.range (8 * s.regs.len)).map (s.ram.data.streamBit s.regs.src)

theorem length_inputBits (s : State) : s.inputBits.length = 8 * s.regs.len := by simp [State.inputBits]

/-- The input begins with each initial part of its bits. -/
theorem streamBit_of_prefix {s : State} {l : List Bool} (hl : l <+: s.inputBits) :
    ∀ t < l.length, s.ram.data.streamBit s.regs.src t = l.getD t false := by
  intro t ht
  rw [List.getD_eq_getElem _ _ ht, hl.getElem ht]
  simp [State.inputBits]

/-- Settles O45: the bits before the end are the codes of the symbols written, and for two leaves or more every input is such
a stream. -/
theorem decodeTruncated : Obligations.DecodeTruncated := by
  constructor
  · intro s symbols q c htree h hcap hcount hcoded hc hpre hne hlen hbits
    refine ⟨_, ?_, bytes_withBytes _ _ _, read_withBytes _ _ _⟩
    rw [execDecode_of_short_stream htree h hcap hcount hcoded hc hpre hne hlen hbits]
    rfl
  · intro s htree h2 h hcap
    obtain ⟨symbols, hcoded, ⟨hcount, hall⟩ | ⟨hcount, q, c, hc, hpre, hne, hall⟩⟩ :=
      exists_parse htree h2 s.regs.treeTotal.toNat s.inputBits
    · have hfit : (s.ram.stream symbols).length ≤ 8 * s.regs.len := length_inputBits s ▸ hall.length_le
      have hbits := streamBit_of_prefix hall
      obtain ⟨data, hexec, hbytes, hframe⟩ :=
        decodeWritesTheSymbolsOfACodeStream s symbols htree h hcap hcount hcoded hfit hbits
      rw [← hcount] at hbytes hframe
      exact ⟨symbols, data, hcoded, hbits, hbytes, hframe, .inl ⟨hcount, hfit, hexec⟩⟩
    · have hlen : (s.ram.stream symbols ++ q).length = 8 * s.regs.len := by rw [hall, length_inputBits]
      have hbits := streamBit_of_prefix ⟨[], (List.append_nil (s.ram.stream symbols ++ q)).trans hall⟩
      rw [hlen] at hbits
      refine ⟨symbols, _, hcoded, streamBit_of_prefix ⟨q, hall⟩, bytes_withBytes s.ram.data s.regs.dst symbols,
        read_withBytes _ _ _, .inr ⟨hcount, ⟨q, c, hc, hpre, hne, hlen, hbits⟩, ?_⟩⟩
      rw [execDecode_of_short_stream htree h hcap hcount hcoded hc hpre hne hlen hbits]
      rfl

end Sys2Proof.Machine
end

section
/-! SUPPORT. The round trip of BUILD, ENCODE and DECODE (43_bitstream_codec.md R113). -/

namespace Sys2Proof.Machine

section
variable {s b : State} {S : List Byte} (hS : 1 ≤ S.length) (hcount : ∀ c : Byte, (s.ram.freq.entry c).toNat = S.count c)
include hcount

/-- The frequencies are the counts, so they sum to the length. -/
theorem freqSum_of_counts : s.ram.freqSum = S.length := by
  have hsum := sum_count_mul (fun _ => 1) S
  simpa [Rams.freqSum, hcount] using hsum

theorem freq_ne_zero_of_mem {c : Byte} (hc : c ∈ S) : s.ram.freq.entry c ≠ 0 := fun e => by
  have hpos := List.count_pos_iff.2 hc
  rw [← hcount, e] at hpos
  exact absurd hpos (by decide)

include hS

theorem alphabet_ne_nil_of_counts : s.ram.alphabet ≠ [] := by
  obtain ⟨c, hc⟩ := List.exists_mem_of_length_pos hS
  exact List.ne_nil_of_mem (mem_alphabet_iff.2 (freq_ne_zero_of_mem hcount hc))

/-- BUILD on the counts of a list: its length in TREE_TOTAL, and a code that leads to each of its symbols. -/
theorem build_of_counts (hlen : S.length < 2 ^ 32) (hb : exec .build s = .next b) :
    b.regs.treeTotal.toNat = S.length ∧ ∀ c ∈ S, b.ram.codeLen.entry c ≠ 0 ∧
      b.ram.node.Leads b.regs.treeNleaf b.regs.treeRoot (b.ram.code c) c := by
  have hne := alphabet_ne_nil_of_counts hS hcount
  have hsum := freqSum_of_counts hcount
  have hfit : s.ram.freqSum ≤ 0xFFFFFFFF := by omega
  have htree := buildEstablishesTheTreeInvariant s b hne hfit hb
  have hcoded := (codeTableProperties s b hne hfit hb).1
  obtain ⟨node, heap, codeLen, codeBits, maxlen, hbuild, -⟩ := buildCompletes s hne hfit
  obtain rfl := Host.Outcome.next.inj (hbuild.symm.trans hb)
  refine ⟨?_, fun c hc => ?_⟩
  · show (BitVec.ofNat 32 s.ram.freqSum).toNat = S.length
    rw [hsum, BitVec.toNat_ofNat, Nat.mod_eq_of_lt hlen]
  · have hcode := (hcoded c).2 (freq_ne_zero_of_mem hcount hc)
    exact ⟨hcode, leads_of_treeOk htree hcode⟩

end

/-- The codes are a function of the code table. -/
theorem code_congr {r r' : Rams} (hlen : r.codeLen = r'.codeLen) (hbits : r.codeBits = r'.codeBits) : r.code = r'.code := by
  funext c
  rw [Rams.code, Rams.code, hlen, hbits]

/-- Settles O47: what ENCODE wrote is the stream of the codes of `S`, and DECODE writes the symbols of a stream of codes. -/
theorem decodeOfEncodeRestoresTheInput : Obligations.DecodeOfEncodeRestoresTheInput := by
  intro s b u e v d S hS hcount hb hnode hcodeLen hcodeBits _ _ _ huerr hinput hu hroom he hram hvnleaf hvroot hvtotal
    hverr hsrc hlen hcap hv hd
  have hSlen : S.length < 2 ^ 32 := by
    rw [← hinput, State.input, length_bytes]
    exact u.regs.arg1.isLt
  obtain ⟨htotal, hcodes⟩ := build_of_counts hS hcount hSlen hb
  subst hinput
  rw [execEncode_of_fits hu (fun c hc => hcodeLen ▸ (hcodes c hc).1) hroom] at he
  obtain rfl := Host.Outcome.next.inj he
  have hlead : ∀ c ∈ u.input, v.ram.node.Leads v.regs.treeNleaf v.regs.treeRoot (u.ram.code c) c := by
    intro c hc
    rw [hram, hvnleaf, hvroot, code_congr hcodeLen hcodeBits]
    exact hnode ▸ (hcodes c hc).2
  have hvlen : v.regs.len = ((u.ram.stream u.input).length + 7) / 8 := by
    rw [Regs.len, hlen]
    exact (BitVec.toNat_ofNat _ _).trans (Nat.mod_eq_of_lt (hroom.trans_lt u.regs.arg3.isLt))
  have hbits : v.ram.data.hasBits v.regs.src 0 (u.ram.stream u.input) := by
    rw [hasBits_zero_iff, hram, Regs.src, hsrc]
    exact fun t ht => streamBit_packed _ _ _ (by omega)
  rw [← hvtotal] at htotal
  rw [execDecode_of_paths hv (htotal.trans_le hcap) htotal.symm hlead (by rw [hvlen, ← Rams.stream]; omega) hbits] at hd
  obtain rfl := Host.Outcome.next.inj hd
  exact ⟨huerr, hverr, bytes_withBytes _ _ _, rfl, rfl⟩

end Sys2Proof.Machine
end

section
/-! SUPPORT. The lifecycle of a command (60_exceptions.md R115 to R131): acceptance, the completion of an illegal word, and
what an ABORT leaves; and that every step answers a next state. -/

namespace Sys2Proof.Machine

/-! ### The illegal words -/

/-- The words of the commands are the numbers below 9 (30_encoding.md R69). -/
theorem exists_eq_encode_iff {w : Word} : (∃ i, w = encode i) ↔ w.toNat < 9 := by
  constructor
  · rintro ⟨i, rfl⟩
    cases i <;> decide
  · intro h
    obtain ⟨k, hk, rfl⟩ : ∃ k < 9, w = BitVec.ofNat 32 k := ⟨w.toNat, h, by simp⟩
    interval_cases k
    exacts [⟨.nop, rfl⟩, ⟨.freqClear, rfl⟩, ⟨.freqCount, rfl⟩, ⟨.build, rfl⟩, ⟨.encode, rfl⟩, ⟨.decode, rfl⟩,
      ⟨.pqInit, rfl⟩, ⟨.pqInsert, rfl⟩, ⟨.pqExtract, rfl⟩]

/-- The illegal words are those from 9 on (30_encoding.md R69, R71). -/
theorem exists_decodeWord_eq_error_iff {w : Word} : (∃ e, decodeWord w = .error e) ↔ 9 ≤ w.toNat := by
  rw [← not_lt, ← exists_eq_encode_iff]
  cases hd : decodeWord w with
  | ok i => simpa using ⟨i, decodeWord_eq_ok_iff.1 hd⟩
  | error e =>
    refine iff_of_true ⟨e, rfl⟩ ?_
    rintro ⟨i, hi⟩
    cases hd.symm.trans (decodeWord_eq_ok_iff.2 hi)

/-- An engine event on an illegal word completes with ILLEGAL_CMD (60_exceptions.md R120). -/
theorem engineStep_of_illegal {s : State} (h : 9 ≤ s.regs.cmd.toNat) : s.engineStep = .next (s.raise .illegalCmd) := by
  obtain ⟨e, he⟩ := exists_decodeWord_eq_error_iff.2 h
  rw [State.engineStep, he]

/-- Settles O5: the engine's event raises ILLEGAL_CMD, and nothing else is written. -/
theorem illegalWordCompletesWithIllegalCmd : Obligations.IllegalWordCompletesWithIllegalCmd := by
  intro s hm hcmd
  rw [step_of_engine hm, engineStep_of_illegal (by rwa [useTurn_regs]), State.raise, useTurn_regs]
  rfl

/-! ### Every step answers a next state -/

theorem exists_exec_eq_next (i : Instr) (s : State) : ∃ t, exec i s = .next t := by
  cases i <;> exact ⟨_, rfl⟩

theorem exists_engineStep_eq_next (s : State) : ∃ t, s.engineStep = .next t := by
  rcases engineStep_cases s with ⟨i, -, h⟩ | ⟨-, -, h⟩ <;> rw [h]
  · exact exists_exec_eq_next i s
  · exact ⟨_, rfl⟩

/-- A write to CTRL answers a next state: so does the command that an ABORT finds at its end. -/
theorem exists_writeCtrl_eq_next (s : State) (v : Word) : ∃ t, s.writeCtrl v = .next t := by
  unfold State.writeCtrl
  split
  · exact ⟨_, rfl⟩
  · dsimp only
    split
    · split
      · exact ⟨_, rfl⟩
      · exact exists_engineStep_eq_next _
    · exact ⟨_, rfl⟩

theorem exists_writeTarget_eq_next (s : State) (v : Word) (x : Target) : ∃ t, s.writeTarget v x = .next t := by
  unfold State.writeTarget
  split
  case h_1 => exact exists_writeCtrl_eq_next s v
  all_goals exact ⟨_, rfl⟩

/-- Settles O6: every event of the engine and of the host does. -/
theorem everyStepAnswersNext : Obligations.EveryStepAnswersNext := by
  intro s
  rcases step_cases s with ⟨-, h⟩ | ⟨-, -, h⟩ | ⟨_, v, _, -, h⟩ | ⟨_, _, -, h⟩ | ⟨_, _, _, _, -, h⟩ | ⟨_, -, h⟩ <;>
    rw [h]
  · exact exists_engineStep_eq_next _
  · exact ⟨_, rfl⟩
  · exact exists_writeTarget_eq_next _ v _
  all_goals exact ⟨_, rfl⟩

/-! ### The idle block -/

/-- Settles O7: the host moves, and has nothing to do. -/
theorem idleBlockHoldsItsState : Obligations.IdleBlockHoldsItsState := by
  intro s hb hp
  rw [step_of_host (host_of_idle hb), useTurn_of_idle hb, State.hostStep, hp]

/-- Settles O8: the protected write of CMD is performed, and is the acceptance. -/
theorem cmdWriteWhileIdleIsAcceptance : Obligations.CmdWriteWhileIdleIsAcceptance := by
  intro s addr w rest hn ha hb
  have hvalid : (s.regs.treeValid && w != 0x00000003) = if w = 0x00000003 then false else s.regs.treeValid := by
    by_cases hw : w = 0x00000003
    · simp [hw]
    · rw [if_neg hw, bne_iff_ne.2 hw, Bool.and_true]
  rw [step_wr hn, target_reg ha (by omega) rfl]
  simp only [State.writeTarget, State.protectedWrite, State.accept, afterHost_regs, hb, hvalid,
    Bool.false_eq_true, if_false]

/-! ### The write set of a stopped command (60_exceptions.md R127) -/

/-- A stopped ENCODE or DECODE leaves the registers. -/
theorem spoilOutput_regs (s : State) (k : Nat) : (s.spoilOutput k).regs = s.regs := by
  unfold State.spoilOutput; split <;> rfl

/-- No stopped command's write set holds what its completion leaves. -/
theorem spoil_keepsControl (s : State) (c : Option Instr) (k : Nat) : s.KeepsControl (s.spoil c k) := by
  have out : s.KeepsControl (s.spoilOutput k) := by unfold State.spoilOutput; split <;> constructor <;> rfl
  rcases c with _ | i
  · exact keepsControl_refl s
  · cases i with
    | encode => exact out
    | decode => exact out
    | _ => constructor <;> simp [State.spoil]

/-- The stopped commands that use the queue leave it empty, and the others leave its registers. -/
theorem spoil_pqSize_pqSeq (s : State) (c : Option Instr) (k : Nat) :
    (c ∈ [some .build, some .pqInit, some .pqInsert, some .pqExtract] →
      (s.spoil c k).regs.pqSize = 0 ∧ (s.spoil c k).regs.pqSeq = 0) ∧
    (c ∉ [some .build, some .pqInit, some .pqInsert, some .pqExtract] →
      (s.spoil c k).regs.pqSize = s.regs.pqSize ∧ (s.spoil c k).regs.pqSeq = s.regs.pqSeq) := by
  rcases c with _ | i
  · exact ⟨fun h => absurd h (by decide), fun _ => ⟨rfl, rfl⟩⟩
  · cases i with
    | build | pqInit | pqInsert | pqExtract => exact ⟨fun _ => ⟨rfl, rfl⟩, fun h => absurd h (by decide)⟩
    | encode | decode =>
      refine ⟨fun h => absurd h (by decide), fun _ => ?_⟩
      rw [State.spoil, spoilOutput_regs]
      exact ⟨rfl, rfl⟩
    | nop | freqClear | freqCount => exact ⟨fun h => absurd h (by decide), fun _ => ⟨rfl, rfl⟩⟩

/-- The same RAMs agree outside every write set. -/
theorem ramAgreesOutside_of_ram_eq {s t : State} (h : t.ram = s.ram) (c : Option Instr) : s.ramAgreesOutside t c := by
  refine ⟨fun _ _ => ?_, fun _ => ⟨?_, ?_, ?_⟩, fun _ _ _ => ?_, fun _ => ?_, fun _ _ => ?_⟩ <;> rw [h]

/-- A stopped ENCODE or DECODE writes its output buffer, if the buffer checks would pass. -/
theorem spoilOutput_ramAgreesOutside (s : State) (k : Nat) {i : Instr} (hi : i = .encode ∨ i = .decode) :
    s.ramAgreesOutside (s.spoilOutput k) (some i) := by
  unfold State.spoilOutput
  split
  · exact ramAgreesOutside_of_ram_eq rfl _
  · next hbuf =>
    refine ⟨fun _ _ => rfl, fun _ => ⟨rfl, rfl, rfl⟩, fun _ _ _ => rfl, fun hno => ?_, fun a ha => ?_⟩
    · rcases hno with he | ⟨hne, hnd⟩
      · exact absurd hbuf he
      · rcases hi with rfl | rfl
        · exact absurd rfl hne
        · exact absurd rfl hnd
    · exact (read_fill _ _ _ _ a).trans (if_neg (by omega))

/-- A stopped command writes its write set only. -/
theorem spoil_ramAgreesOutside (s : State) (c : Option Instr) (k : Nat) : s.ramAgreesOutside (s.spoil c k) c := by
  rcases c with _ | i
  · exact ramAgreesOutside_of_ram_eq rfl _
  · cases i with
    | encode => exact spoilOutput_ramAgreesOutside s k (.inl rfl)
    | decode => exact spoilOutput_ramAgreesOutside s k (.inr rfl)
    | nop | pqInit => exact ramAgreesOutside_of_ram_eq rfl _
    | freqClear =>
      rw [State.spoil]
      exact ⟨fun h _ => absurd rfl h, fun _ => ⟨rfl, rfl, rfl⟩, fun _ _ _ => rfl, fun _ => rfl, fun _ _ => rfl⟩
    | freqCount =>
      rw [State.spoil]
      exact ⟨fun _ h => absurd rfl h, fun _ => ⟨rfl, rfl, rfl⟩, fun _ _ _ => rfl, fun _ => rfl, fun _ _ => rfl⟩
    | build =>
      rw [State.spoil]
      exact ⟨fun _ _ => rfl, fun h => absurd rfl h, fun h => absurd rfl h, fun _ => rfl, fun _ _ => rfl⟩
    | pqInsert =>
      rw [State.spoil]
      exact ⟨fun _ _ => rfl, fun _ => ⟨rfl, rfl, rfl⟩, fun _ h => absurd rfl h, fun _ => rfl, fun _ _ => rfl⟩
    | pqExtract =>
      rw [State.spoil]
      exact ⟨fun _ _ => rfl, fun _ => ⟨rfl, rfl, rfl⟩, fun _ _ h => absurd rfl h, fun _ => rfl, fun _ _ => rfl⟩

/-! ### ABORT (60_exceptions.md R126, R127) -/

/-- The running command as an ABORT finds it: the write is performed, and IRQ_EN has taken bit 0 of its word. -/
def State.underAbort (s : State) (rest : List Input) (addr : BusAddr) (v : Word) : State :=
  { s with
    regs.irqEn := v.getLsbD 0
    env := { s.env with
      program := rest, turns := s.env.turns.tail, records := s.env.records ++ [⟨.write, addr, v⟩] } }

/-- A write of ABORT = 1 and SRST = 0 to CTRL while a command runs (10_state.md R20). -/
theorem writeCtrl_of_abort {s : State} {v : Word} (hreset : v.getLsbD 2 = false) (habort : v.getLsbD 1 = true)
    (hb : s.regs.busy = true) : s.writeCtrl v =
      if Config.abortTakesEffect s.env.draws then .next { s with regs.irqEn := v.getLsbD 0 }.abort.drawn
      else { s with regs.irqEn := v.getLsbD 0 }.drawn.engineStep :=
  (if_neg (by rw [hreset]; decide)).trans (if_pos (by rw [habort]; exact hb))

/-- An ABORT of a running command takes effect, or finds the command at its end. -/
theorem step_abort {s : State} {addr : BusAddr} {v : Word} {rest : List Input} (hn : s.hostNext (.wr addr v) rest)
    (ha : addr.toNat / 4 = 2) (hreset : v.getLsbD 2 = false) (habort : v.getLsbD 1 = true) (hb : s.regs.busy = true) :
    step s = .next (s.underAbort rest addr v).abort.drawn ∨ step s = (s.underAbort rest addr v).drawn.engineStep := by
  have hwrite : (s.afterHost rest ⟨.write, addr, v⟩).writeTarget v (.reg .ctrl) = _ :=
    writeCtrl_of_abort hreset habort (by rwa [afterHost_regs])
  rw [step_wr hn, target_reg ha (by omega) rfl, hwrite, State.afterHost, State.useTurn, if_pos hb]
  split
  · exact .inl rfl
  · exact .inr rfl

/-- Settles O49: an ABORT that takes effect leaves what is outside the write set and takes ABORTED; else the engine's
event completes the command. -/
theorem abortHasTwoOutcomes : Obligations.AbortHasTwoOutcomes := by
  intro s addr v rest hn ha hreset habort hb
  rcases step_abort hn ha hreset habort hb with h | h
  · set u := s.underAbort rest addr v
    have hc := spoil_keepsControl u (command? u.regs.cmd) u.env.draws
    obtain ⟨hempty, hleft⟩ := spoil_pqSize_pqSeq u (command? u.regs.cmd) u.env.draws
    refine .inr ⟨_, h, hc.dataBytes, congrArg Env.program hc.env, congrArg Env.records hc.env,
      spoil_ramAgreesOutside u _ u.env.draws, fun hne => ?_, hempty, hleft, rfl, rfl, rfl, rfl,
      hc.irqEn, spoil_treeValid u _ _, hc.wrBusy, hc.cmd, hc.arg0, hc.arg1, hc.arg2, hc.arg3⟩
    have ht := spoil_keepsTree (s := u) hne u.env.draws
    exact ⟨ht.treeNleaf, ht.treeRoot, ht.treeTotal, ht.treeMaxlen, ht.nodeCount⟩
  · refine .inl ⟨(s.underAbort rest addr v).drawn, rfl, rfl, rfl, rfl, rfl, ?_⟩
    rcases engineStep_cases (s.underAbort rest addr v).drawn with ⟨i, hd, he⟩ | ⟨e, hd, he⟩
    · exact .inl ⟨i, hd, h.trans he⟩
    · exact .inr ⟨exists_decodeWord_eq_error_iff.1 ⟨e, hd⟩, h.trans he⟩

end Sys2Proof.Machine
end

section
/-! SUPPORT. Reset (70_reset_and_hazards.md R133 to R135): what power-on, the reset input and a soft reset leave, and that
the invariants hold from there. -/

namespace Sys2Proof.Machine

/-! ### The soft reset (70_reset_and_hazards.md R134) -/

/-- A soft reset of a block with BUSY = 0 leaves the RAMs. -/
theorem softReset_of_idle {s : State} (hb : s.regs.busy = false) :
    s.softReset = { s with regs := Regs.reset, env.observed := true } := by
  simp [State.softReset, hb]

/-- A soft reset stops the running command, and spoils its write set. -/
theorem softReset_of_busy {s : State} (hb : s.regs.busy = true) :
    s.softReset = { (s.spoil (command? s.regs.cmd) s.env.draws).drawn with
      regs := Regs.reset, env.observed := true } := by
  simp [State.softReset, hb]

/-- A write of SRST = 1 to CTRL is a soft reset, whatever the other bits are (10_state.md R20). -/
theorem step_softReset {s : State} {addr : BusAddr} {v : Word} {rest : List Input} (hn : s.hostNext (.wr addr v) rest)
    (ha : addr.toNat / 4 = 2) (hreset : v.getLsbD 2 = true) :
    step s = .next (s.afterHost rest ⟨.write, addr, v⟩).softReset := by
  rw [step_wr hn, target_reg ha (by omega) rfl]
  exact if_pos hreset

/-- The write sets depend on the block alone. -/
theorem State.SameBlock.ramAgreesOutside {s u t : State} {c : Option Instr} (h : s.SameBlock u)
    (hu : u.ramAgreesOutside t c) : s.ramAgreesOutside t c := by
  have hbuf : u.bufferError = s.bufferError := by rw [State.bufferError, h.regs, h.dataBytes]; rfl
  rw [State.ramAgreesOutside, h.ram, hbuf, h.regs] at hu
  exact hu

/-- Settles O50: the write set of a running command is spoiled first, then every register is reset. -/
theorem softResetResetsEveryRegister : Obligations.SoftResetResetsEveryRegister := by
  intro s addr v rest hn ha hreset
  have hu := afterHost_sameBlock s rest ⟨.write, addr, v⟩
  set u := s.afterHost rest ⟨.write, addr, v⟩
  refine ⟨u.softReset, step_softReset hn ha hreset, rfl, ?_⟩
  cases hb : s.regs.busy with
  | false =>
    rw [softReset_of_idle (hu.busy.trans hb)]
    exact ⟨hu.dataBytes, rfl, rfl, fun _ => hu.ram, fun h => absurd h (by decide)⟩
  | true =>
    rw [softReset_of_busy (hu.busy.trans hb), hu.cmd]
    have hc := spoil_keepsControl u (command? s.regs.cmd) u.env.draws
    exact ⟨hc.dataBytes.trans hu.dataBytes, congrArg Env.program hc.env, congrArg Env.records hc.env,
      fun h => absurd h (by decide), fun _ => hu.ramAgreesOutside (spoil_ramAgreesOutside u _ _)⟩

/-! ### Power-on and the reset input (70_reset_and_hazards.md R133) -/

/-- The reset input is taken off the program, and is no transaction (log entry 15). -/
theorem step_powerOn {s : State} {rest : List Input} (hn : s.hostNext .powerOn rest) :
    step s = .next (s.useTurn.withProgram rest).powerOnReset := by
  simp only [step_of_host hn.1, State.hostStep, useTurn_program, hn.2]

/-- Settles O51: power-on and the reset input leave the registers of Regs.reset, which are R135's table. -/
theorem powerOnResetValues : Obligations.PowerOnResetValues := by
  refine ⟨fun n ram => ⟨rfl, rfl⟩, fun t ht => ?_⟩
  have hregs : t.regs = Regs.reset := by
    rcases ht with ⟨n, ram, rfl⟩ | ⟨s, rest, hn, h⟩
    · rfl
    · cases (step_powerOn hn).symm.trans h
      rfl
  rw [hregs]
  decide

/-! ### The invariants after a reset -/

/-- Settles O59: with the registers reset no command runs, the queue is empty and no tree is valid; the blank DATA lists no
byte. -/
theorem resetMeetsTheInvariants : Obligations.ResetMeetsTheInvariants := by
  refine ⟨fun n ram => ⟨fun busy => ?_, Queue.ok_of_empty rfl, fun valid => ?_⟩, rfl, fun c hc => ?_⟩
  · cases busy
  · cases valid
  · exact absurd hc List.not_mem_nil

end Sys2Proof.Machine
end

section
/-! SUPPORT. WAIT ends (70_reset_and_hazards.md R144): the engine's event does not depend on what stands outside the block,
so host reads before it do not change its result. -/

namespace Sys2Proof.Machine

/-! ### The engine's event and the outside -/

/-- The state with another outside. -/
def State.withEnv (s : State) (e : Env) : State := { s with env := e }

@[simp] theorem withEnv_dataBytes (s : State) (e : Env) : (s.withEnv e).dataBytes = s.dataBytes := rfl
@[simp] theorem withEnv_regs (s : State) (e : Env) : (s.withEnv e).regs = s.regs := rfl
@[simp] theorem withEnv_ram (s : State) (e : Env) : (s.withEnv e).ram = s.ram := rfl
@[simp] theorem withEnv_env (s : State) (e : Env) : (s.withEnv e).env = e := rfl
@[simp] theorem withEnv_queue (s : State) (e : Env) : (s.withEnv e).queue = s.queue := rfl
@[simp] theorem withEnv_bufferError (s : State) (e : Env) : (s.withEnv e).bufferError = s.bufferError := rfl

/-- A state with the registers, RAMs and DATA_BYTES of another differs from it in the outside only. -/
theorem eq_withEnv {s t : State} (hbytes : t.dataBytes = s.dataBytes) (hregs : t.regs = s.regs) (hram : t.ram = s.ram) :
    t = s.withEnv t.env := by
  rw [State.withEnv, ← hbytes, ← hregs, ← hram]

/-- A command neither reads nor writes what stands outside the block. -/
theorem exec_withEnv {i : Instr} {s t : State} (h : exec i s = .next t) (e : Env) :
    exec i (s.withEnv e) = .next (t.withEnv e) := by
  cases i <;> cases h
  case nop | freqClear | pqInit => rfl
  all_goals refine congrArg Host.Outcome.next ?_
  case build | pqInsert | pqExtract =>
    simp only [apply_ite (State.withEnv · e)]
    rfl
  case encode =>
    simp only [withEnv_bufferError, withEnv_regs, withEnv_ram]
    split
    · rfl
    · split <;> rfl
  case decode =>
    simp only [withEnv_bufferError, withEnv_regs, withEnv_ram]
    split
    · rfl
    · rw [apply_ite (State.withEnv · e)]
      refine ite_congr rfl (fun _ => rfl) fun _ => ?_
      split <;> rfl
  case freqCount =>
    simp only [withEnv_dataBytes, withEnv_regs, withEnv_ram]
    rw [apply_ite (State.withEnv · e)]
    refine ite_congr rfl (fun _ => rfl) fun _ => ?_
    split <;> rfl

/-- An engine event neither reads nor writes what stands outside the block. -/
theorem engineStep_withEnv {s t : State} (h : s.engineStep = .next t) (e : Env) :
    (s.withEnv e).engineStep = .next (t.withEnv e) := by
  unfold State.engineStep at h ⊢
  rw [withEnv_regs]
  split at h
  · exact exec_withEnv h e
  · cases h; rfl

/-! ### WAIT (30_encoding.md R76) -/

/-- A read of STATUS is exact at any time (10_state.md R39). -/
theorem readData_status (s : State) : s.readData HostProgram.aSTATUS = s.regs.statusWord :=
  readData_of_plain s HostProgram.aSTATUS rfl (by decide)

/-- WAIT's condition on the word it reads is DONE = 1 (30_encoding.md R76). -/
theorem statusWord_and_two_eq_two_iff (r : Regs) : r.statusWord &&& 0x00000002 = 0x00000002 ↔ r.done = true := by
  obtain ⟨-, hdone, -⟩ := statusWord_bits r
  rw [show (0x00000002 : Word) = BitVec.twoPow 32 1 from rfl, BitVec.and_twoPow, hdone]
  cases r.done <;> decide

/-- WAIT is one read of STATUS; it is done when it shows DONE = 1. -/
theorem step_wait {s : State} {rest : List Input} (hm : s.mover = .host)
    (hp : s.env.program = HostProgram.wait ++ rest) :
    step s = .next ((s.useTurn.hostRead HostProgram.aSTATUS).withProgram
      (if s.regs.done = true then rest else s.env.program)) := by
  rw [step_poll (rest := rest) ⟨hm, hp⟩, readData_status]
  simp only [statusWord_and_two_eq_two_iff]

/-- WAIT leaves the block while the command runs, and uses up one turn. -/
theorem step_wait_of_running {s : State} {rest : List Input} {turns : List Agent} (hb : s.regs.busy = true)
    (hd : s.regs.done = false) (hp : s.env.program = HostProgram.wait ++ rest) (ht : s.env.turns = .host :: turns) :
    ∃ e : Env, step s = .next (s.withEnv e) ∧ e.program = HostProgram.wait ++ rest ∧ e.turns = turns := by
  have hm : s.mover = .host := by simp [State.mover, hb, hp, ht, HostProgram.wait]
  have hstep := step_wait hm hp
  rw [hd, if_neg Bool.false_ne_true, hp] at hstep
  rw [eq_withEnv (s := s) (t := (s.useTurn.hostRead _).withProgram _) (by simp) (by simp) (by simp)] at hstep
  exact ⟨_, hstep, by simp, by simp [State.useTurn, hb, ht]⟩

/-- What WAIT leaves once the command has completed. -/
theorem step_wait_of_done {s : State} {rest : List Input} (hb : s.regs.busy = false) (hd : s.regs.done = true)
    (hp : s.env.program = HostProgram.wait ++ rest) :
    ∃ t, step s = .next t ∧ t.regs = s.regs ∧ t.ram = s.ram ∧ t.env.program = rest ∧ t.env.observed = true := by
  refine ⟨_, step_wait (host_of_idle hb) hp, by simp, by simp, by simp [hd], ?_⟩
  have ho : s.observes HostProgram.aSTATUS = true := (observes_iff s _).2 ⟨rfl, .inr hd⟩
  simp [ho]

/-- Without a turn of the host the engine completes the command. -/
theorem step_of_no_host_turn {s u : State} (hb : s.regs.busy = true) (ht : s.env.turns.head? ≠ some .host)
    (hu : s.engineStep = .next u) :
    ∃ e : Env, step s = .next (u.withEnv e) ∧ e.program = s.env.program := by
  have hm : s.mover = .engine := by
    unfold State.mover
    rw [if_pos hb]
    split
    · next hturns _ => exact absurd (congrArg List.head? hturns) ht
    · rfl
  refine ⟨s.useTurn.env, ?_, useTurn_program s⟩
  rw [step_of_engine hm, eq_withEnv (useTurn_dataBytes s) (useTurn_regs s) (useTurn_ram s)]
  exact engineStep_withEnv hu _

theorem run_succ_of_step {s t : State} (h : step s = .next t) (k : Nat) : core.run (k + 1) s = core.run k t := by
  simp only [Host.Core.run, core, h]

/-- WAIT ends two steps after the last host turn before the completion, whatever its reads before that. -/
theorem wait_ends {later : List Agent} {rest : List Input} (hlater : later.head? ≠ some .host) (k : Nat) :
    ∀ {s u : State}, s.regs.busy = true → s.regs.done = false → s.engineStep = .next u →
      s.env.program = HostProgram.wait ++ rest → s.env.turns = List.replicate k .host ++ later →
      ∃ t, core.run (k + 2) s = .next t ∧ t.regs = u.regs ∧ t.ram = u.ram ∧ t.env.program = rest ∧
        t.env.observed = true := by
  induction k with
  | zero =>
    intro s u hb hd hu hp ht
    obtain ⟨_, -, -, hcomp⟩ := engineStep_completes hu
    obtain ⟨e, hstep, hprog⟩ := step_of_no_host_turn hb (ht ▸ hlater) hu
    obtain ⟨t, hwait, hleft⟩ := step_wait_of_done (s := u.withEnv e) hcomp.busy hcomp.done (hprog.trans hp)
    exact ⟨t, (run_succ_of_step hstep 1).trans (run_succ_of_step hwait 0), hleft⟩
  | succ k ih =>
    intro s u hb hd hu hp ht
    obtain ⟨e, hstep, hprog, hturns⟩ := step_wait_of_running hb hd hp ht
    rw [run_succ_of_step hstep]
    exact ih (u := u.withEnv e) hb hd (engineStep_withEnv hu e) hprog hturns

/-- Settles O60: with DONE = 0 until the completion (10_state.md R22) each host turn is a read of WAIT. -/
theorem waitEndsUnderEverySchedule : Obligations.WaitEndsUnderEverySchedule := by
  intro s u k later rest hs hb hu hp ht hlater
  obtain ⟨hdone, -⟩ := hs hb
  exact wait_ends hlater k hb hdone hu hp ht

end Sys2Proof.Machine
end
